-- ==== Sys2Proof/Word.lean ====
section
/-! DEFINITION. The word types of the block (00_scope.md R6): a byte, the 7-bit device address and the 32-bit request
word. Bit `k` has weight `2^k`, which is the numbering of `BitVec`. Quantities that the spec never treats as bits
(indices, lengths, coordinates, the contrast level) are `Nat` or `Int`. -/

namespace Sys2Proof

/-- A byte, 8 bits (R6). -/
abbrev Byte := BitVec 8

/-- The "fixed 7-bit device address" (R52). -/
abbrev DevAddr := BitVec 7

/-- The 32-bit request word of the requester-side port (R55). -/
abbrev ReqWord := BitVec 32

end Sys2Proof
end

