-- ==== Sys2Proof/Config.lean ====
section
/-! DEFINITION. The implementation parameters (00_scope.md R4) and the free values of the model: what the spec leaves
open, as constants without a body, so that no proof can see what they are. The constraints on the parameters (R5) are
in WellFormed.lean, the spec's default values in Machine/Defaults.lean. -/

namespace Sys2Proof

/-- The three kinds of transport failure (R80). -/
inductive FailKind
  | timeout | nack | arblost
  deriving DecidableEq, Repr

/-- The answer of the bus PHY to one transaction: `ok` or one of the three failures (R72). -/
inductive TxnResult
  | ok
  | fail (kind : FailKind)
  deriving DecidableEq, Repr

/-- The parameters of R4. `LOCK_FAIR` is a proposition about the environment, not data: it is
`Sys2Proof.Machine.LockFair` in Safety.lean (log 10). `topBitRule` says whether constraint (f) of R5 is in force; the
spec lets a model that must agree with a real panel drop it to "the two control bytes differ" (93 U1, log 3). `initInverted` is
"the initial `inverted`" that R104 has a model set beside `INIT_CONTRAST` (log 27). -/
structure Config where
  width       : Nat
  height      : Nat
  devAddr     : DevAddr
  ctrlCmd     : Byte
  ctrlData    : Byte
  topBitRule  : Bool
  maxTxn      : Nat
  initSeq     : List (List Byte)
  windowSeq   : List (List Byte)
  cmdNormal   : Byte
  cmdInverse  : Byte
  cmdContrast : Byte
  contrastMin : Int
  contrastMax : Int
  initContrast : Byte
  initInverted : Bool
  deriving DecidableEq, Repr

/-- `PAGES = H / 8` (R4). -/
def Config.pages (c : Config) : Nat := c.height / 8

/-- `N = W * PAGES`, the framebuffer size in bytes (R4). -/
def Config.size (c : Config) : Nat := c.width * c.pages

/-- The registers of the optional receiver model (20_memory.md R45): column and page pointer, the window, the
addressing mode and the mode registers. R45 gives no widths: pointers, window bounds and the number of rows are `Nat`. -/
structure PanelRegs where
  pc       : Nat
  pp       : Nat
  cs       : Nat
  ce       : Nat
  ps       : Nat
  pe       : Nat
  mode     : Byte
  contrast : Byte
  inverted : Bool
  mux      : Nat
  pump     : Byte
  on       : Bool
  deriving DecidableEq, Repr, Inhabited

/-! Free values. Each is a constant that nothing in Lean can evaluate (log 4 to 8, 16 to 18, 28). -/

/-- Byte `i` of the framebuffer right after the `n`-th reset (R23: "unspecified, every byte"), `n` first. -/
opaque Config.resetFb : Nat → Nat → Byte
/-- `disp.powered` right after the `n`-th reset (R23: unspecified). -/
opaque Config.resetPowered : Nat → Bool
/-- `disp.contrast` right after the `n`-th reset (R23: unspecified). -/
opaque Config.resetContrast : Nat → Byte
/-- `disp.inverted` right after the `n`-th reset (R23: unspecified). -/
opaque Config.resetInverted : Nat → Bool
/-- `wp` right after the `n`-th reset, before it is brought into `0 .. N` (R23: unspecified). -/
opaque Config.resetWp : Nat → Nat
/-- The argument of the default multiplex-ratio group of a panel of `height` rows, where `height - 1` is no byte (R54 and
R103 give no byte there; log 28). -/
opaque Config.muxRatioByte : Nat → Byte
/-- Whether the `n`-th poll of the bus lock is granted (R76: the wait "has no bound"). -/
opaque Config.lockGrant : Nat → Bool
/-- What the `n`-th poll of the PHY gives: an answer (R72: any of the four), or none yet (93 U11). -/
opaque Config.phyAnswer : Nat → Option TxnResult
/-- How many payload bytes of the `n`-th transaction reached the panel, if it failed (R46, D24). -/
opaque Config.deliveredLength : Nat → Nat
/-- Panel registers where the spec gives the panel no value. -/
opaque Config.panelRegs : Nat → PanelRegs
/-- Panel RAM bytes (by draw, then by address) where the spec gives the panel no value. -/
opaque Config.panelRam : Nat → Nat → Byte

end Sys2Proof
end

