-- ==== Sys2Proof/Machine/Defaults.lean ====
section
/-! DEFINITION. The controller command bytes (30_encoding.md R54) and the default values of the parameters (R4, R103,
R108). Every command byte is "from general knowledge, not in source" in the spec itself and reachable only through a
parameter (log 2). -/

namespace Sys2Proof

def Cmd.memoryMode : Byte := 0x20#8
def Cmd.columnWindow : Byte := 0x21#8
def Cmd.pageWindow : Byte := 0x22#8
def Cmd.contrast : Byte := 0x81#8
def Cmd.chargePump : Byte := 0x8D#8
def Cmd.normalDisplay : Byte := 0xA6#8
def Cmd.inverseDisplay : Byte := 0xA7#8
def Cmd.muxRatio : Byte := 0xA8#8
def Cmd.displayOff : Byte := 0xAE#8
def Cmd.displayOn : Byte := 0xAF#8

/-- The argument of the default multiplex-ratio group: `H - 1` (R54, R103). DESIGN CHOICE: R5 allows an `H` above 256, for
which `H - 1` is no byte and the spec says nothing; the byte is then a free value (log 28). -/
def Config.defaultMuxRatio (height : Nat) : Byte :=
  if height ≤ 256 then BitVec.ofNat 8 (height - 1) else Config.muxRatioByte height

/-- The default `INIT_SEQ` (R103): addressing mode, multiplex ratio, charge pump, display-on. Its second byte of the
multiplex-ratio group is the model's choice where `H` is above 256 (log 28). -/
def Config.defaultInitSeq (height : Nat) : List (List Byte) :=
  [[Cmd.memoryMode, 0x00#8], [Cmd.muxRatio, Config.defaultMuxRatio height], [Cmd.chargePump, 0x14#8], [Cmd.displayOn]]

/-- The default `WINDOW_SEQ` (R108): the column window `0 .. W - 1`, then the page window `0 .. PAGES - 1`. -/
def Config.defaultWindowSeq (width pages : Nat) : List (List Byte) :=
  [[Cmd.columnWindow, 0x00#8, BitVec.ofNat 8 (width - 1)], [Cmd.pageWindow, 0x00#8, BitVec.ofNat 8 (pages - 1)]]

/-- The configuration of a `width` by `height` panel with every parameter that has a default at that default (R4);
the OPEN parameters are the arguments. -/
def Config.ofGeometry (width height : Nat) (devAddr : DevAddr) (maxTxn : Nat) : Config where
  width := width
  height := height
  devAddr := devAddr
  ctrlCmd := 0x00#8
  ctrlData := 0x80#8
  topBitRule := true
  maxTxn := maxTxn
  initSeq := Config.defaultInitSeq height
  windowSeq := Config.defaultWindowSeq width (height / 8)
  cmdNormal := Cmd.normalDisplay
  cmdInverse := Cmd.inverseDisplay
  cmdContrast := Cmd.contrast
  contrastMin := 0
  contrastMax := 255
  initContrast := 0x7F#8
  initInverted := false

/-- The configuration that `State.reset` carries: the default geometry, and for the OPEN parameters the values of the
spec's own full-size examples (`DEV_ADDR = 0x3C`, `MAX_TXN = 128`; log 1). -/
def Config.default : Config := Config.ofGeometry 128 64 0x3C#7 128

end Sys2Proof
end

