-- ==== Sys2Proof/Machine/InitSeq.lean ====
section
/-! DEFINITION. What the command stream of `INIT_SEQ` leaves as contrast and inversion (42_controller_ops.md R104), read
command by command inside each group: several commands may share one group (40_framer.md R73). -/

namespace Sys2Proof

/-- The "fixed number of argument bytes" of the commands that R46 lists. -/
def Machine.commandArgs (cmd : Byte) : Option Nat :=
  if cmd = Cmd.normalDisplay ∨ cmd = Cmd.inverseDisplay ∨ cmd = Cmd.displayOff ∨ cmd = Cmd.displayOn then some 0
  else if cmd = Cmd.memoryMode ∨ cmd = Cmd.contrast ∨ cmd = Cmd.chargePump ∨ cmd = Cmd.muxRatio then some 1
  else if cmd = Cmd.columnWindow ∨ cmd = Cmd.pageWindow then some 2
  else none

/-- The number of argument bytes of a command in a group of `INIT_SEQ`: of the three that are parameters of R4 as R112 and
R115 use them, of the others as R46 lists them; `none` for a command that the spec does not list (log 27). -/
def Config.argsOf (c : Config) (cmd : Byte) : Option Nat :=
  if cmd = c.cmdContrast then some 1
  else if cmd = c.cmdNormal ∨ cmd = c.cmdInverse then some 0
  else Machine.commandArgs cmd

/-- The values that `INIT_CONTRAST` and the initial `inverted` have to match (R104); `none` where any value matches. -/
structure InitValues where
  contrast : Option Byte
  inverted : Option Bool
  deriving DecidableEq, Repr

/-- What one command leaves. A contrast command that the group cuts short leaves the contrast open (log 27). -/
def Config.commandLeaves (c : Config) (cmd : Byte) (args : List Byte) (v : InitValues) : InitValues :=
  if cmd = c.cmdContrast then { v with contrast := args.head? }
  else if cmd = c.cmdNormal then { v with inverted := some false }
  else if cmd = c.cmdInverse then { v with inverted := some true }
  else v

/-- What the bytes after a command that the spec does not list leave. Which of them are its arguments is not known: a value
that one of them could set is open (log 27). -/
def Config.unreadLeaves (c : Config) (rest : List Byte) (v : InitValues) : InitValues where
  contrast := if c.cmdContrast ∈ rest then none else v.contrast
  inverted := if c.cmdNormal ∈ rest ∨ c.cmdInverse ∈ rest then none else v.inverted

/-- What one group leaves, read as a command stream (R73, R46). The first argument bounds the number of commands. -/
def Config.groupLeaves (c : Config) : Nat → List Byte → InitValues → InitValues
  | 0, _, v => v
  | _, [], v => v
  | fuel + 1, cmd :: rest, v =>
    match c.argsOf cmd with
    | some n => c.groupLeaves fuel (rest.drop n) (c.commandLeaves cmd (rest.take n) v)
    | none => c.unreadLeaves rest v

/-- What the whole `INIT_SEQ` leaves. When it sends neither, `inverted` is 0 and `INIT_CONTRAST` is the parameter's own value
(R104 (c)). -/
def Config.initLeaves (c : Config) : InitValues :=
  c.initSeq.foldl (fun v g => c.groupLeaves g.length g v) ⟨none, some false⟩

/-- R104: "A model given an `INIT_SEQ` that does set contrast or inversion must set `INIT_CONTRAST` and the initial
`inverted` to match" (log 27). -/
def Config.initValuesOk (c : Config) : Bool :=
  c.initLeaves.contrast.all (· == c.initContrast) && c.initLeaves.inverted.all (· == c.initInverted)

end Sys2Proof
end

