-- ==== Sys2Proof/Syntax.lean ====
section
/-! DEFINITION. The instructions: one constructor for each of the 18 rows of spec/opcode_table.json, and the carriers
of their encodings. Operands are what the rules of files 41 and 42 are written over (R58): integers for coordinates and
the contrast level, a flag, a colour, bytes. -/

namespace Sys2Proof

/-- "a two-valued enumeration {SET, CLEAR}" (00_scope.md section 6). -/
inductive Color
  | set | clear
  deriving DecidableEq, Repr

/-- One constructor per row of the opcode table: the seven operations of the requester (R3, R57), the two frames of the
framer (R73, R74), the nine controller command groups (R54). -/
inductive Instr
  | init
  | update
  | setInvert (flag : Bool)
  | setContrast (level : Int)
  | clear
  | setPixel (x y : Int) (color : Color)
  | getBuffer
  | cmdFrame (payload : List Byte)
  | dataFrame (payload : List Byte)
  | setMemoryMode (m : Byte)
  | setMuxRatio (v : Byte)
  | chargePump (v : Byte)
  | displayOn
  | setColumnWindow (a b : Byte)
  | setPageWindow (a b : Byte)
  | normalDisplay
  | inverseDisplay
  | setContrastCmd (c : Byte)
  deriving DecidableEq, Repr

/-- A code of one of the two wire spaces of the table: a frame (control byte, then payload: R50 without the address,
which is the same in every frame), or a controller command group (the payload of one command frame, R54). -/
inductive WireCode
  | frame (bytes : List Byte)
  | group (bytes : List Byte)
  deriving DecidableEq, Repr

/-- A code of any space of the table. The space is part of the code: the same byte means different things as a control
byte and as a command. -/
inductive Code
  | request (word : ReqWord)
  | wire (code : WireCode)
  deriving DecidableEq, Repr

end Sys2Proof
end

