-- ==== Sys2Proof/WellFormed.lean ====
section
/-! DEFINITION. What is checked once: the constraints on the parameters (00_scope.md R5) and the operand ranges that an
encoding admits (R53, R58, R63). -/

namespace Sys2Proof

/-- R5 (a), (b): at least one column and one page, and every page whole. -/
def Config.geometryOk (c : Config) : Bool :=
  decide (1 ≤ c.width) && decide (8 ≤ c.height) && decide (c.height % 8 = 0)

/-- R5 (c), (g): the window arguments fit a byte and every coordinate in bounds fits its field. -/
def Config.fieldsOk (c : Config) : Bool :=
  decide (c.width ≤ 256) && decide (c.pages ≤ 256) && decide (c.width < 2048) && decide (c.height < 2048)

/-- R5 (d), (e) for one command group: not empty, and no longer than a transaction. -/
def Config.groupOk (c : Config) (g : List Byte) : Bool :=
  decide (1 ≤ g.length) && decide (g.length ≤ c.maxTxn)

/-- R5 (d), (e): every group the block ever sends fits one transaction; the longest of the fixed ones, the contrast
group, has two bytes. -/
def Config.groupsOk (c : Config) : Bool :=
  decide (2 ≤ c.maxTxn) && c.initSeq.all c.groupOk && c.windowSeq.all c.groupOk

/-- R5 (f), or what 93 U1 lets a model replace it by: the control bytes differ. -/
def Config.controlBytesOk (c : Config) : Bool :=
  if c.topBitRule then c.ctrlCmd.getLsbD 7 != c.ctrlData.getLsbD 7 else c.ctrlCmd != c.ctrlData

/-- 93 U15: `0 <= CONTRAST_MIN <= CONTRAST_MAX <= 255`. -/
def Config.contrastOk (c : Config) : Bool :=
  decide (0 ≤ c.contrastMin) && decide (c.contrastMin ≤ c.contrastMax) && decide (c.contrastMax ≤ 255)

/-- The constraints of R5, "a configuration that breaks one is refused (the model gives it no meaning)", of 93 U15 (log 22)
and of R104 (`Config.initValuesOk`, log 27). -/
def Config.valid (c : Config) : Bool :=
  c.geometryOk && c.fieldsOk && c.groupsOk && c.controlBytesOk && c.contrastOk && c.initValuesOk

/-- The payload of a frame has `1 .. MAX_TXN` bytes (R53). -/
def payloadOk (c : Config) (payload : List Byte) : Bool :=
  decide (1 ≤ payload.length) && decide (payload.length ≤ c.maxTxn)

/-- The operands fit the fields of the instruction's encoding: `LEVEL` signed 16-bit, `X` and `Y` signed 12-bit (R58),
a payload of `1 .. MAX_TXN` bytes (R53). The meanings of files 41 and 42 do not need this: they are written over the
integers. -/
def Instr.wellFormed (c : Config) : Instr → Bool
  | .setContrast level => decide (-32768 ≤ level) && decide (level ≤ 32767)
  | .setPixel x y _ =>
    decide (-2048 ≤ x) && decide (x ≤ 2047) && decide (-2048 ≤ y) && decide (y ≤ 2047)
  | .cmdFrame payload => payloadOk c payload
  | .dataFrame payload => payloadOk c payload
  | .init | .update | .setInvert _ | .clear | .getBuffer | .setMemoryMode _ | .setMuxRatio _ | .chargePump _
  | .displayOn | .setColumnWindow _ _ | .setPageWindow _ _ | .normalDisplay | .inverseDisplay
  | .setContrastCmd _ => true

end Sys2Proof
end

