-- ==== Sys2Proof/Decode.lean ====
section
/-! DEFINITION. The decoder, total on every word and every byte list, which refuses by name; after it the encoder,
written from the same tables (30_encoding.md R50 to R63). -/

namespace Sys2Proof

/-- Why a code is no instruction. -/
inductive DecodeError
  /-- A request word that matches no row of R57: reserved (R59). -/
  | reservedWord (word : ReqWord)
  /-- A frame without even a control byte (R50). -/
  | emptyFrame
  /-- A control byte that is neither `CTRL_CMD` nor `CTRL_DATA` (R51). -/
  | unknownControl (ctrl : Byte)
  /-- A payload that is empty or longer than `MAX_TXN` (R53, R75). -/
  | payloadLength (length : Nat)
  /-- A byte list that is none of the command groups of R54. -/
  | unknownGroup (bytes : List Byte)
  deriving DecidableEq, Repr

/-- A row of the request-word table (R57): `w` selects it when `w & mask = pattern`. -/
structure RequestRow where
  mnemonic : String
  pattern  : ReqWord
  mask     : ReqWord
  deriving DecidableEq, Repr

/-- `w & mask = pattern` (R57). -/
def RequestRow.selects (r : RequestRow) (w : ReqWord) : Bool := w &&& r.mask == r.pattern

def rowInit : RequestRow := ⟨"INIT", 0x10000000#32, 0xFFFFFFFF#32⟩
def rowUpdate : RequestRow := ⟨"UPDATE", 0x20000000#32, 0xFFFFFFFF#32⟩
def rowSetInvert : RequestRow := ⟨"SET_INVERT", 0x30000000#32, 0xFFFFFFFE#32⟩
def rowSetContrast : RequestRow := ⟨"SET_CONTRAST", 0x40000000#32, 0xFFFF0000#32⟩
def rowClear : RequestRow := ⟨"CLEAR", 0x50000000#32, 0xFFFFFFFF#32⟩
def rowSetPixel : RequestRow := ⟨"SET_PIXEL", 0x60000000#32, 0xFE000000#32⟩
def rowGetBuffer : RequestRow := ⟨"GET_BUFFER", 0x70000000#32, 0xFFFFFFFF#32⟩

/-- The table of R57. -/
def requestRows : List RequestRow :=
  [rowInit, rowUpdate, rowSetInvert, rowSetContrast, rowClear, rowSetPixel, rowGetBuffer]

/-- `sext_16(w[15:0])` (R58). -/
def fieldLevel (w : ReqWord) : Int := (w.extractLsb' 0 16).toInt
/-- `sext_12(w[23:12])` (R58). -/
def fieldX (w : ReqWord) : Int := (w.extractLsb' 12 12).toInt
/-- `sext_12(w[11:0])` (R58). -/
def fieldY (w : ReqWord) : Int := (w.extractLsb' 0 12).toInt
/-- `SET` when `w[24] = 1`, else `CLEAR` (R58). -/
def fieldColor (w : ReqWord) : Color := if w.getLsbD 24 then .set else .clear
/-- `w[0]` (R58). -/
def fieldFlag (w : ReqWord) : Bool := w.getLsbD 0

/-- The request decoder: one of the seven operations, or reserved (R57 to R59). -/
def decodeRequest (w : ReqWord) : Except DecodeError Instr :=
  if rowInit.selects w then .ok .init
  else if rowUpdate.selects w then .ok .update
  else if rowSetInvert.selects w then .ok (.setInvert (fieldFlag w))
  else if rowSetContrast.selects w then .ok (.setContrast (fieldLevel w))
  else if rowClear.selects w then .ok .clear
  else if rowSetPixel.selects w then .ok (.setPixel (fieldX w) (fieldY w) (fieldColor w))
  else if rowGetBuffer.selects w then .ok .getBuffer
  else .error (.reservedWord w)

/-- A frame: the control byte of this configuration, then the payload (R50, R51, R53). -/
def decodeFrame (c : Config) : List Byte → Except DecodeError Instr
  | [] => .error .emptyFrame
  | ctrl :: payload =>
    if payloadOk c payload = false then .error (.payloadLength payload.length)
    else if ctrl = c.ctrlCmd then .ok (.cmdFrame payload)
    else if ctrl = c.ctrlData then .ok (.dataFrame payload)
    else .error (.unknownControl ctrl)

/-- A controller command group: the command byte, then its arguments (R54). -/
def decodeGroup : List Byte → Except DecodeError Instr
  | [b] =>
    if b = Cmd.displayOn then .ok .displayOn
    else if b = Cmd.normalDisplay then .ok .normalDisplay
    else if b = Cmd.inverseDisplay then .ok .inverseDisplay
    else .error (.unknownGroup [b])
  | [b, v] =>
    if b = Cmd.memoryMode then .ok (.setMemoryMode v)
    else if b = Cmd.muxRatio then .ok (.setMuxRatio v)
    else if b = Cmd.chargePump then .ok (.chargePump v)
    else if b = Cmd.contrast then .ok (.setContrastCmd v)
    else .error (.unknownGroup [b, v])
  | [b, v, w] =>
    if b = Cmd.columnWindow then .ok (.setColumnWindow v w)
    else if b = Cmd.pageWindow then .ok (.setPageWindow v w)
    else .error (.unknownGroup [b, v, w])
  | bytes => .error (.unknownGroup bytes)

/-- The decoder of all three spaces. -/
def decode (c : Config) : Code → Except DecodeError Instr
  | .request w => decodeRequest w
  | .wire (.frame bytes) => decodeFrame c bytes
  | .wire (.group bytes) => decodeGroup bytes

/-- Format `L` (R56): `OP`, 12 reserved bits, `LEVEL`. -/
def encodeLevel (level : Int) : ReqWord := 0x4#4 ++ 0#12 ++ BitVec.ofInt 16 level

/-- The `COLOR` bit (R56, D36). -/
def colorBit : Color → BitVec 1
  | .set => 1#1
  | .clear => 0#1

/-- Format `P` (R56): `OP`, 3 reserved bits, `COLOR`, `X`, `Y`. -/
def encodePixel (x y : Int) (color : Color) : ReqWord :=
  0x6#4 ++ 0#3 ++ colorBit color ++ BitVec.ofInt 12 x ++ BitVec.ofInt 12 y

/-- The encoder: the request words of R56, R57 and R63, the frames of R50, the groups of R54. -/
def encode (c : Config) : Instr → Code
  | .init => .request 0x10000000#32
  | .update => .request 0x20000000#32
  | .setInvert flag => .request (0x3#4 ++ 0#27 ++ BitVec.ofBool flag)
  | .setContrast level => .request (encodeLevel level)
  | .clear => .request 0x50000000#32
  | .setPixel x y color => .request (encodePixel x y color)
  | .getBuffer => .request 0x70000000#32
  | .cmdFrame payload => .wire (.frame (c.ctrlCmd :: payload))
  | .dataFrame payload => .wire (.frame (c.ctrlData :: payload))
  | .setMemoryMode m => .wire (.group [Cmd.memoryMode, m])
  | .setMuxRatio v => .wire (.group [Cmd.muxRatio, v])
  | .chargePump v => .wire (.group [Cmd.chargePump, v])
  | .displayOn => .wire (.group [Cmd.displayOn])
  | .setColumnWindow a b => .wire (.group [Cmd.columnWindow, a, b])
  | .setPageWindow a b => .wire (.group [Cmd.pageWindow, a, b])
  | .normalDisplay => .wire (.group [Cmd.normalDisplay])
  | .inverseDisplay => .wire (.group [Cmd.inverseDisplay])
  | .setContrastCmd v => .wire (.group [Cmd.contrast, v])

/-- The code that a number of spec/opcode_table.json stands for (log 13). A 32-bit number is a request word. The table
writes a command group as one number whose most significant byte goes first on the wire ("0x20 m" has 0x20 in bits
15:8). An 8-bit number is a control byte if it is one of the two, and the rest of the frame is then the shortest
payload, one zero byte; otherwise it is a one-byte command group. -/
def tableCode (c : Config) (nbits w : Nat) : Option Code :=
  if 2 ^ nbits ≤ w then none
  else if nbits = 32 then some (.request (BitVec.ofNat 32 w))
  else if nbits = 24 then
    some (.wire (.group [BitVec.ofNat 8 (w / 65536), BitVec.ofNat 8 (w / 256), BitVec.ofNat 8 w]))
  else if nbits = 16 then some (.wire (.group [BitVec.ofNat 8 (w / 256), BitVec.ofNat 8 w]))
  else if nbits = 8 then
    if BitVec.ofNat 8 w = c.ctrlCmd ∨ BitVec.ofNat 8 w = c.ctrlData then
      some (.wire (.frame [BitVec.ofNat 8 w, 0#8]))
    else some (.wire (.group [BitVec.ofNat 8 w]))
  else none

/-- The instruction that the decoder reads from the table's number `w` of `nbits` bits, with the control bytes at
their defaults, as the table has them. -/
def decodeTableWord (nbits w : Nat) : Option Instr :=
  match tableCode Config.default nbits w with
  | some code => (decode Config.default code).toOption
  | none => none

end Sys2Proof
end

