-- ==== Sys2Proof/Machine/State.lean ====
section
/-! DEFINITION. The state of the machine (10_state.md), with the configuration it carries and the environment's inputs
as plain data, the reasons a step can stop, and the state after reset (R23, R150). -/

namespace Sys2Proof.Machine

/-- The display-controller state register (R12). -/
inductive Ctl
  | uninitialized | ready | updating | failed
  deriving DecidableEq, Repr

/-- The display-state record (R13 to R16). -/
structure Disp where
  powered  : Bool
  contrast : Byte
  inverted : Bool
  deriving DecidableEq, Repr

/-- The bus-side events (R20). -/
inductive Event
  | acq
  | rel
  | txn (addr : DevAddr) (ctrl : Byte) (payload : List Byte) (result : TxnResult)
  deriving DecidableEq, Repr

/-- A memory: (address, byte) pairs. In its canonical form every address of the address space is listed, in rising
order, so that equal memories are equal data; an address that is not listed does not exist (log 19). -/
abbrev Memory := List Host.Cell

/-- The canonical form of a memory of `n` bytes at the addresses `0 .. n - 1` (R17, R38). -/
def Memory.wf (n : Nat) (m : Memory) : Bool := m.map (·.1) == List.range' 0 n

/-- What an operation still has to do on the bus: send a command group (or a whole payload) after a control byte, set
`wp <- 0` at the start of the data phase, or send the next `n` framebuffer bytes from `wp` on (R102, R107). -/
inductive Item
  | send (ctrl : Byte) (payload : List Byte)
  | rewind
  | chunk (n : Nat)
  deriving DecidableEq, Repr

/-- Where an operation that has not responded stands: waiting for the lock (R76), or with these items left, the first of
which the PHY has not answered yet (R25: "the index of the command group being sent"). -/
inductive Stage
  | lockWait
  | sending (rest : List Item)
  deriving DecidableEq, Repr

/-- The operation in progress (R25). -/
structure Activity where
  op    : Instr
  stage : Stage
  deriving DecidableEq, Repr

/-- The status of a response (R61). -/
inductive Status
  | ok
  | notInitialized
  | alreadyFailed
  | transport (kind : FailKind)
  deriving DecidableEq, Repr

/-- A response: a status, and the framebuffer bytes for a `GET_BUFFER` (R60). -/
structure Response where
  status : Status
  data   : List Byte
  deriving DecidableEq, Repr

/-- The inputs from the environment (R22, R26). A poll of the lock or of the PHY takes the next entry of its script; when
the script is at its end the answer is the free value of that poll (log 7, log 8). In `phyScript`, `none` is "no answer
yet"; in `lockScript`, `false` is "not granted yet". -/
structure Env where
  lockScript : List Bool
  lockPolls  : Nat
  phyScript  : List (Option TxnResult)
  phyPolls   : Nat
  panelDraws : Nat
  deriving DecidableEq, Repr

/-- The optional receiver model (20_memory.md R45): its registers, and its display RAM, `gd[p][c]` at address
`p * 128 + c` for `p` in `0 .. 7` and `c` in `0 .. 127`. -/
structure Panel where
  regs : PanelRegs
  gd   : Memory
  deriving DecidableEq, Repr

/-- Columns of the receiver's RAM (R45). -/
def Panel.columns : Nat := 128
/-- Pages of the receiver's RAM (R45). -/
def Panel.pageCount : Nat := 8

/-- The machine. `cfg` is the configuration (R4), which no step changes; `ctl`, `disp`, `fb`, `wp`, `lock`, `hist` are
the state of 10_state.md; `activity` is what R25 says exists only inside an operation; `requests` and `framerCall` are
what has been handed to the machine and not taken yet; `responses` and `framerReturn` are what it has given back; `env`
and `panel` are the environment; `resets` counts the resets before the last one, for the free values of a reset. -/
structure State where
  cfg          : Config
  ctl          : Ctl
  disp         : Disp
  fb           : Memory
  wp           : Nat
  lock         : Bool
  hist         : List Event
  activity     : Option Activity
  requests     : List ReqWord
  framerCall   : Option WireCode
  responses    : List Response
  framerReturn : Option TxnResult
  env          : Env
  panel        : Panel
  resets       : Nat
  deriving DecidableEq, Repr

/-- The one thing that stops the machine for an address. -/
inductive Fault
  /-- An access to framebuffer bytes that do not exist. Raised by `SET_PIXEL`, `GET_BUFFER` and `UPDATE`, and only in a
  state whose `fb` does not hold the addresses `0 .. N - 1`; no legal state is one. R33 gives such an access no meaning.
  Safe: the model stops. -/
  | framebufferRange (addr count : Nat)
  deriving DecidableEq, Repr

/-- Why the model gives no meaning. -/
inductive Refusal
  /-- Raised by `exec` for an instruction that has no meaning yet; none at present. Safe. -/
  | notModelled (mnemonic : String)
  /-- Raised by `step` for a code that the decoder refuses (R59: "A model refuses a reserved word"). Safe. -/
  | undecodable (reason : DecodeError)
  /-- Raised by `step`, and by every meaning, when the configuration breaks R5 (93 U13), 93 U15 (log 22) or R104 (log 27). Safe. -/
  | invalidConfiguration
  /-- Raised by every meaning while another operation is in progress (R154, 93 U6). Safe. -/
  | operationOverlap
  /-- Raised by a framer call outside a lock bracket (R72: precondition `lock = 1`). Safe. -/
  | lockNotHeld
  /-- Raised by a display-controller operation that would acquire a lock the block holds (R76: precondition
  `lock = 0`). Safe. -/
  | lockAlreadyHeld
  /-- Raised by a framer call whose payload is empty or longer than `MAX_TXN` (R75, 93 U3). Safe. -/
  | payloadLength (length : Nat)
  deriving DecidableEq, Repr

/-- What a meaning answers. -/
abbrev Result := Host.Outcome State Fault Refusal

/-- A memory of `n` bytes with given contents. -/
def Memory.ofFn (n : Nat) (f : Nat → Byte) : Memory := (List.range' 0 n).map fun a => (a, f a)

/-- A panel of which nothing is known (log 16, log 17). -/
def Panel.free (draw : Nat) : Panel where
  regs := Config.panelRegs draw
  gd := Memory.ofFn (Panel.pageCount * Panel.columns) (Config.panelRam draw)

/-- The state after the `n`-th reset of a block with configuration `c`, in this environment and with this panel (R23, R150):
what R23 calls unspecified is a free value of that reset, and "the panel is not reset by a reset of the block". -/
def State.atReset (c : Config) (n : Nat) (env : Env) (panel : Panel) : State where
  cfg := c
  ctl := .uninitialized
  disp := ⟨Config.resetPowered n, Config.resetContrast n, Config.resetInverted n⟩
  fb := Memory.ofFn c.size (Config.resetFb n)
  wp := Config.resetWp n % (c.size + 1)
  lock := false
  hist := []
  activity := none
  requests := []
  framerCall := none
  responses := []
  framerReturn := none
  env := env
  panel := panel
  resets := n

/-- The state after the first reset (power-on) of a block with configuration `c`: nothing has been asked of it, no answer of
the environment is settled, and nothing is known of the panel. -/
def State.resetWith (c : Config) : State := State.atReset c 0 ⟨[], 0, [], 0, 1⟩ (Panel.free 0)

/-- The machine right after reset, with the default configuration. -/
def State.reset : State := State.resetWith Config.default

end Sys2Proof.Machine
end

