-- ==== Sys2Proof/Machine/Flags.lean ====
section
/-! DEFINITION. Status codes and the state checks. The block has no condition codes (10_state.md R21); what plays their
part is the status byte of a response (30_encoding.md R61), the acceptance matrix over `ctl` (42 R101) and the record
`disp` (10_state.md R13 to R16). -/

namespace Sys2Proof.Machine

/-- The `STATUS` byte (R61). -/
def Status.code : Status → Byte
  | .ok => 0x00#8
  | .notInitialized => 0x01#8
  | .alreadyFailed => 0x02#8
  | .transport .timeout => 0x10#8
  | .transport .nack => 0x11#8
  | .transport .arblost => 0x12#8

/-- The bytes of a response: the status byte, then the data (R60). -/
def Response.bytes (r : Response) : List Byte := r.status.code :: r.data

/-- The state check of `UPDATE` (R101, R107). -/
def updateCheck : Ctl → Option Status
  | .uninitialized => some .notInitialized
  | .failed => some .alreadyFailed
  | .ready | .updating => none

/-- The state check of `SET_INVERT` and `SET_CONTRAST` (R101, R112, R115; 90_conflicts.md C1). -/
def modeCheck : Ctl → Option Status
  | .failed => some .alreadyFailed
  | .uninitialized | .ready | .updating => none

/-- The state check of an operation (R101); `INIT` and the framebuffer operations are accepted in every state (R85), and
the framer has none. -/
def stateCheck : Instr → Ctl → Option Status
  | .update, c => updateCheck c
  | .setInvert _, c => modeCheck c
  | .setContrast _, c => modeCheck c
  | .init, _ | .clear, _ | .setPixel _ _ _, _ | .getBuffer, _ | .cmdFrame _, _ | .dataFrame _, _
  | .setMemoryMode _, _ | .setMuxRatio _, _ | .chargePump _, _ | .displayOn, _ | .setColumnWindow _ _, _
  | .setPageWindow _ _, _ | .normalDisplay, _ | .inverseDisplay, _ | .setContrastCmd _, _ => none

end Sys2Proof.Machine
end

