-- ==== Sys2Proof/Machine/Operands.lean ====
section
/-! DEFINITION. Operand forms and the arithmetic of the block: the bit-packer (20_memory.md R30, R31, 41 R89), the clamp of
the contrast level (42 R116), the cuts of the data phase (42 R109, R110). -/

namespace Sys2Proof.Machine

/-- The bound check of `SET_PIXEL`, on mathematical integers (R87, R89). -/
def inBounds (c : Config) (x y : Int) : Bool :=
  !(decide (x < 0) || decide (x ≥ c.width) || decide (y < 0) || decide (y ≥ c.height))

/-- `byteIndex = page * W + x` with `page = y div 8` (R30). -/
def byteIndex (c : Config) (x y : Nat) : Nat := y / 8 * c.width + x

/-- `bitInPage = y mod 8` (R30). -/
def bitInPage (y : Nat) : Nat := y % 8

/-- `page(i) = i div W` (R31). -/
def pageOf (c : Config) (i : Nat) : Nat := i / c.width

/-- `col(i) = i mod W` (R31). -/
def colOf (c : Config) (i : Nat) : Nat := i % c.width

/-- `index(p, c) = p * W + c` (R31). -/
def indexOf (c : Config) (page col : Nat) : Nat := page * c.width + col

/-- The byte with one pixel bit written: `old | (1 << k)` or `old & ~(1 << k)` (R87). -/
def pixelByte (color : Color) (bit : Nat) (old : Byte) : Byte :=
  match color with
  | .set => old ||| (1#8 <<< bit)
  | .clear => old &&& ~~~(1#8 <<< bit)

/-- `clamp(v, lo, hi) = max(lo, min(v, hi))` (R6). -/
def clamp (v lo hi : Int) : Int := max lo (min v hi)

/-- The byte that `SET_CONTRAST` sends and stores (R115, R116). -/
def contrastByte (c : Config) (level : Int) : Byte := BitVec.ofInt 8 (clamp level c.contrastMin c.contrastMax)

/-- The greedy cut of `n` bytes into chunks of at most `maxTxn` (R109): the loop of R107 on the sizes alone. The first
argument bounds the number of chunks. -/
def chunkSizes (maxTxn : Nat) : Nat → Nat → List Nat
  | 0, _ => []
  | fuel + 1, n => if n = 0 then [] else min maxTxn n :: chunkSizes maxTxn fuel (n - min maxTxn n)

/-- The command frames of a list of groups (D8: one transaction per group). -/
def commandItems (c : Config) (groups : List (List Byte)) : List Item := groups.map (.send c.ctrlCmd)

/-- What `INIT` sends (R102). -/
def initPlan (c : Config) : List Item := commandItems c c.initSeq

/-- What `UPDATE` sends (R107): the window phase, then the data phase from `wp = 0`. -/
def updatePlan (c : Config) : List Item :=
  commandItems c c.windowSeq ++ .rewind :: (chunkSizes c.maxTxn c.size c.size).map .chunk

/-- What `SET_INVERT` sends (R112). -/
def invertPlan (c : Config) (flag : Bool) : List Item :=
  commandItems c [[if flag then c.cmdInverse else c.cmdNormal]]

/-- What `SET_CONTRAST` sends (R115, D34). -/
def contrastPlan (c : Config) (level : Int) : List Item :=
  commandItems c [[c.cmdContrast, contrastByte c level]]

/-- What an operation sends on the bus: nothing, for the framebuffer operations; the framer's own calls are not
operations of the requester. -/
def planOf (c : Config) : Instr → List Item
  | .init => initPlan c
  | .update => updatePlan c
  | .setInvert flag => invertPlan c flag
  | .setContrast level => contrastPlan c level
  | .clear | .setPixel _ _ _ | .getBuffer | .cmdFrame _ | .dataFrame _ | .setMemoryMode _ | .setMuxRatio _
  | .chargePump _ | .displayOn | .setColumnWindow _ _ | .setPageWindow _ _ | .normalDisplay | .inverseDisplay
  | .setContrastCmd _ => []

end Sys2Proof.Machine
end

