-- ==== Sys2Proof/Machine/Panel.lean ====
section
/-! DEFINITION. What the receiver does with a transaction (20_memory.md R46): "from general knowledge, not in source" in
the spec itself. Where R46 gives no effect the receiver's state is a free value (log 17, log 18). -/

namespace Sys2Proof.Machine

/-- Replaces the byte at `addr`; an address that is not listed does not exist and nothing is written. -/
def Memory.write (m : Memory) (addr : Nat) (b : Byte) : Memory := m.map fun c => if c.1 = addr then (addr, b) else c

/-- The byte at `addr`, if it exists. -/
def Memory.read (m : Memory) (addr : Nat) : Option Byte := (m.find? fun c => c.1 == addr).map (·.2)

/-- `m ← 0x00` selects horizontal addressing (R46). -/
def horizontal : Byte := 0x00#8

/-- `gd[p][c]` (R45). -/
def Panel.ram (p : Panel) (page col : Nat) : Option Byte := p.gd.read (page * Panel.columns + col)

/-- A command of a parsed command stream: complete, not in R46's list, or cut short by the end of the payload. -/
inductive PanelCommand
  | complete (cmd : Byte) (args : List Byte)
  | unlisted
  | cutShort (cmd : Byte)
  deriving DecidableEq, Repr

/-- "the payload is parsed as controller commands, each command byte followed by its fixed number of argument bytes"
(R46). The first argument bounds the number of commands. -/
def parseCommands : Nat → List Byte → List PanelCommand
  | 0, _ => []
  | _, [] => []
  | fuel + 1, cmd :: rest =>
    match commandArgs cmd with
    | none => [.unlisted]
    | some n =>
      if rest.length < n then [.cutShort cmd]
      else .complete cmd (rest.take n) :: parseCommands fuel (rest.drop n)

/-- The effect of one complete command on the registers (R46). -/
def regsCommand (r : PanelRegs) (cmd : Byte) (args : List Byte) : PanelRegs :=
  match args with
  | [] =>
    if cmd = Cmd.normalDisplay then { r with inverted := false }
    else if cmd = Cmd.inverseDisplay then { r with inverted := true }
    else if cmd = Cmd.displayOff then { r with on := false }
    else { r with on := true }
  | [v] =>
    if cmd = Cmd.memoryMode then { r with mode := v }
    else if cmd = Cmd.contrast then { r with contrast := v }
    else if cmd = Cmd.chargePump then { r with pump := v }
    else { r with mux := v.toNat + 1 }
  | a :: b :: _ =>
    if cmd = Cmd.columnWindow then { r with cs := a.toNat, ce := b.toNat, pc := a.toNat }
    else { r with ps := a.toNat, pe := b.toNat, pp := a.toNat }

/-- A command that was cut short leaves the registers it writes free, and no others (log 17). -/
def regsCutShort (r free : PanelRegs) (cmd : Byte) : PanelRegs :=
  if cmd = Cmd.memoryMode then { r with mode := free.mode }
  else if cmd = Cmd.contrast then { r with contrast := free.contrast }
  else if cmd = Cmd.chargePump then { r with pump := free.pump }
  else if cmd = Cmd.muxRatio then { r with mux := free.mux }
  else if cmd = Cmd.columnWindow then { r with cs := free.cs, ce := free.ce, pc := free.pc }
  else { r with ps := free.ps, pe := free.pe, pp := free.pp }

/-- One parsed command; `draw` numbers the transaction. An unlisted one leaves the registers free (log 17); no command reaches the
RAM, which only data transactions write (R32). -/
def Panel.command (draw : Nat) (p : Panel) : PanelCommand → Panel
  | .complete cmd args => { p with regs := regsCommand p.regs cmd args }
  | .unlisted => { p with regs := Config.panelRegs draw }
  | .cutShort cmd => { p with regs := regsCutShort p.regs (Config.panelRegs draw) cmd }

/-- A command stream (R46). -/
def Panel.commandStream (draw : Nat) (payload : List Byte) (p : Panel) : Panel :=
  (parseCommands payload.length payload).foldl (Panel.command draw) p

/-- The pointers after one data byte in horizontal mode (R46). -/
def regsAdvance (r : PanelRegs) : PanelRegs :=
  if r.pc = r.ce then { r with pc := r.cs, pp := if r.pp = r.pe then r.ps else r.pp + 1 }
  else { r with pc := r.pc + 1 }

/-- `gd[pp][pc] <- b`, then the pointers advance (R46). -/
def Panel.store (p : Panel) (b : Byte) : Panel :=
  { regs := regsAdvance p.regs, gd := p.gd.write (p.regs.pp * Panel.columns + p.regs.pc) b }

/-- Whether `gd[pp][pc]` exists (R45). -/
def Panel.inRam (p : Panel) : Bool := decide (p.regs.pp < Panel.pageCount) && decide (p.regs.pc < Panel.columns)

/-- Data bytes in horizontal mode, in order; and whether every one of them had a place in the RAM. -/
def Panel.storeAll : List Byte → Panel → Panel × Bool
  | [], p => (p, true)
  | b :: rest, p => ((storeAll rest (p.store b)).1, p.inRam && (storeAll rest (p.store b)).2)

/-- A data stream (R46). Outside horizontal mode R46 states no effect: RAM and pointers are free. If a byte had no place
in the RAM of R45, the RAM is free (log 17). -/
def Panel.dataStream (draw : Nat) (payload : List Byte) (p : Panel) : Panel :=
  if payload = [] then p
  else if p.regs.mode = horizontal then
    if (Panel.storeAll payload p).2 then (Panel.storeAll payload p).1
    else { (Panel.storeAll payload p).1 with gd := (Panel.free draw).gd }
  else
    { regs := { p.regs with pc := (Config.panelRegs draw).pc, pp := (Config.panelRegs draw).pp }
      gd := (Panel.free draw).gd }

/-- The part of the payload that reaches the panel: all of it when the result is `ok`; "A transaction with a failure
result delivers some prefix of its bytes, possibly empty, possibly all" (R46, D24). -/
def delivered (draw : Nat) (payload : List Byte) : TxnResult → List Byte
  | .ok => payload
  | .fail _ => payload.take (Config.deliveredLength draw)

/-- What the panel does with one transaction (R46). -/
def Panel.receive (c : Config) (draw : Nat) (ctrl : Byte) (payload : List Byte) (result : TxnResult) (p : Panel) : Panel :=
  if ctrl = c.ctrlCmd then p.commandStream draw (delivered draw payload result)
  else if ctrl = c.ctrlData then p.dataStream draw (delivered draw payload result)
  else p

end Sys2Proof.Machine
end

