-- ==== Sys2Proof/Machine/Ops.lean ====
section
/-! DEFINITION. The named operations over memory, lock, bus and responses that the meanings are written with
(00_scope.md R7, 20_memory.md R33, R34, 40_framer.md, 60_exceptions.md R133, R134). -/

namespace Sys2Proof.Machine

/-- The cells at the addresses `addr .. addr + n - 1` of a memory in canonical form. -/
def Memory.slice (m : Memory) (addr n : Nat) : Memory := (m.drop addr).take n

/-- The bytes at the addresses `addr .. addr + n - 1`. -/
def Memory.bytes (m : Memory) (addr n : Nat) : List Byte := (m.slice addr n).map (·.2)

/-- `n` bytes of one value at the addresses `0 .. n - 1`. -/
def Memory.fill (n : Nat) (b : Byte) : Memory := Memory.ofFn n fun _ => b

/-- Byte `j` of the list goes to `addr + j`. -/
def Memory.writeAll (m : Memory) (addr : Nat) : List Byte → Memory
  | [] => m
  | b :: rest => (m.write addr b).writeAll (addr + 1) rest

namespace State

/-- `MemRead(addr, n)` (R33): the bytes, if `n >= 1` and every one of them exists. -/
def memRead (s : State) (addr n : Nat) : Option (List Byte) :=
  if 1 ≤ n ∧ addr + n ≤ s.cfg.size ∧ (s.fb.slice addr n).map (·.1) = List.range' addr n then some (s.fb.bytes addr n)
  else none

/-- `MemWrite(addr, n, v)` with `n = len(v)` (R34): the state with the bytes written, if `n >= 1` and every one of them
exists. -/
def memWrite (s : State) (addr : Nat) (v : List Byte) : Option State :=
  if 1 ≤ v.length ∧ addr + v.length ≤ s.cfg.size then some { s with fb := s.fb.writeAll addr v } else none

/-- The loop `for i in 0 .. N-1: MemWrite(i, 1, [0x00])` of R86 and R102. -/
def clearBuffer (s : State) : State := { s with fb := Memory.fill s.cfg.size 0x00#8 }

/-- `pixel(x, y)`, defined only in bounds (R30). -/
def pixel (s : State) (x y : Nat) : Option Bool :=
  if x < s.cfg.width ∧ y < s.cfg.height then
    (s.fb.read (byteIndex s.cfg x y)).map fun b => b.getLsbD (bitInPage y)
  else none

/-- `emit e` (R7, R20). -/
def emit (e : Event) (s : State) : State := { s with hist := s.hist ++ [e] }

/-- `respond`: ends the operation with its response (R7, R60). -/
def respond (status : Status) (data : List Byte) (s : State) : State :=
  { s with responses := s.responses ++ [⟨status, data⟩], activity := none }

/-- `raise`: ends the operation with an error as its response (R7). "Nothing is saved anywhere for a handler" (R133):
what an error does to `ctl` is the operation's own rule and is done before. -/
def raise (error : Status) (s : State) : State := s.respond error []

/-- The end of an accepted operation in `TransportError` (R133): `ctl` to FAILED when the operation is `INIT` or
`UPDATE`. -/
def enterFailed (s : State) : State := { s with ctl := .failed }

/-- The way out of FAILED (R134), which is the success of `INIT` (R104): `fb` cleared, `disp` set, `ctl` READY. -/
def leaveFailed (s : State) : State :=
  { s.clearBuffer with disp := ⟨true, s.cfg.initContrast, s.cfg.initInverted⟩, ctl := .ready }

/-- A reset of the block while it runs (R150): the block is as after any reset, with fresh free values where R23 specifies
none; configuration, environment and panel are not the block's and stay, and so do the requests still to come and the
responses already given (log 25). It comes from outside and is no step. -/
def afterReset (s : State) : State :=
  { State.atReset s.cfg (s.resets + 1) s.env s.panel with requests := s.requests, responses := s.responses }

/-- Whether the lock is granted at this poll (R76). -/
def lockGranted (s : State) : Bool :=
  match s.env.lockScript with
  | g :: _ => g
  | [] => Config.lockGrant s.env.lockPolls

/-- The environment after a poll of the lock. -/
def afterLockPoll (s : State) : State :=
  match s.env.lockScript with
  | _ :: rest => { s with env := { s.env with lockScript := rest } }
  | [] => { s with env := { s.env with lockPolls := s.env.lockPolls + 1 } }

/-- What the PHY answers at this poll (R72), `none` while it has not answered. -/
def phyAnswer (s : State) : Option TxnResult :=
  match s.env.phyScript with
  | a :: _ => a
  | [] => Config.phyAnswer s.env.phyPolls

/-- The environment after a poll of the PHY. -/
def afterPhyPoll (s : State) : State :=
  match s.env.phyScript with
  | _ :: rest => { s with env := { s.env with phyScript := rest } }
  | [] => { s with env := { s.env with phyPolls := s.env.phyPolls + 1 } }

/-- The panel takes what it is sent (R46); every transaction has a draw of its own. -/
def deliver (ctrl : Byte) (payload : List Byte) (result : TxnResult) (s : State) : State :=
  { s with
    panel := s.panel.receive s.cfg s.env.panelDraws ctrl payload result
    env := { s.env with panelDraws := s.env.panelDraws + 1 } }

/-- `Transact(ctrl, payload)` (R72): one transaction to `DEV_ADDR`, one event, no retry (R79). With no answer yet there
is no event. DESIGN CHOICE: R46 speaks of a transaction with a result only, and what the panel has received of one that the
PHY has not answered, yet or ever (93 U11), is open; here the panel is as before until the answer comes (log 29). -/
def transact (ctrl : Byte) (payload : List Byte) (s : State) : State × Option TxnResult :=
  match s.phyAnswer with
  | none => (s.afterPhyPoll, none)
  | some r => ((s.afterPhyPoll.deliver ctrl payload r).emit (.txn s.cfg.devAddr ctrl payload r), some r)

/-- `WriteCommand(bs)` (R73). -/
def writeCommand (bytes : List Byte) (s : State) : State × Option TxnResult := s.transact s.cfg.ctrlCmd bytes

/-- `WriteData(bs)` (R74). -/
def writeData (bytes : List Byte) (s : State) : State × Option TxnResult := s.transact s.cfg.ctrlData bytes

/-- The granted half of `Acquire()` (R76). -/
def acquired (s : State) : State := { s.emit .acq with lock := true }

/-- `Release()` (R77). -/
def release (s : State) : State := { s.emit .rel with lock := false }

end State

/-- How a run of items ended: all sent; stopped at the first failure (R79); or at one that has no answer yet. -/
inductive Sent
  | done
  | failed (kind : FailKind)
  | waiting (rest : List Item)
  deriving DecidableEq, Repr

namespace State

/-- Sends the items in order, "stopping at the first whose result is not `ok`" (R100). The loops of R102 and R107. -/
def sendAll : List Item → State → State × Sent
  | [], s => (s, .done)
  | .rewind :: rest, s => sendAll rest { s with wp := 0 }
  | .send ctrl payload :: rest, s =>
    match s.transact ctrl payload with
    | (t, some .ok) => sendAll rest t
    | (t, some (.fail kind)) => (t, .failed kind)
    | (t, none) => (t, .waiting (.send ctrl payload :: rest))
  | .chunk n :: rest, s =>
    match s.writeData (s.fb.bytes s.wp n) with
    | (t, some .ok) => sendAll rest { t with wp := t.wp + n }
    | (t, some (.fail kind)) => (t, .failed kind)
    | (t, none) => (t, .waiting (.chunk n :: rest))

/-- What an operation that holds the lock does once its items are sent (R100, R133): the operation's own effects, then
`Release()`, then the response; or it stays in progress. -/
def finish (op : Instr) (onOk onFail : State → State) (r : State × Sent) : State :=
  match r.2 with
  | .done => (onOk r.1).release.respond .ok []
  | .failed kind => (onFail r.1).release.raise (.transport kind)
  | .waiting rest => { r.1 with activity := some ⟨op, .sending rest⟩ }

/-- `Acquire()` and, when it is granted, the bracket (R78); otherwise the operation waits. -/
def enterBracket (op : Instr) (plan : List Item) (onOk onFail : State → State) (s : State) : State :=
  if s.lockGranted then finish op onOk onFail (sendAll plan s.afterLockPoll.acquired)
  else { s.afterLockPoll with activity := some ⟨op, .lockWait⟩ }

/-- The common shape of the four display-controller operations (R100): state check, bracket, response. An operation that
is in progress goes on where it stands. -/
def controller (op : Instr) (plan : List Item) (accept onOk onFail : State → State) (s : State) : Result :=
  match s.activity with
  | none =>
    match stateCheck op s.ctl with
    | some error => .next (s.raise error)
    | none =>
      if s.lock then .refused .lockAlreadyHeld
      else .next (enterBracket op plan onOk onFail (accept s))
  | some ⟨_, .lockWait⟩ =>
    if s.lock then .refused .lockAlreadyHeld
    else .next (enterBracket op plan onOk onFail s)
  | some ⟨_, .sending rest⟩ =>
    if s.lock then .next (finish op onOk onFail (sendAll rest s))
    else .refused .lockNotHeld

/-- A framer call by itself (R72 to R75): one transaction inside a bracket that is already open. It returns the
transaction's result, or stays in progress while the PHY has not answered. -/
def framer (op : Instr) (ctrl : Byte) (payload : List Byte) (s : State) : Result :=
  if s.lock = false then .refused .lockNotHeld
  else if payloadOk s.cfg payload = false then .refused (.payloadLength payload.length)
  else
    .next (match s.transact ctrl payload with
      | (t, some r) => { t with framerReturn := some r, activity := none }
      | (t, none) => { t with activity := some ⟨op, .sending [.send ctrl payload]⟩ })

/-- Whether running `i` now would overlap another operation: one is in progress, and it is not `i` (R154, R25). -/
def overlaps (s : State) (i : Instr) : Bool :=
  match s.activity with
  | none => false
  | some a => a.op != i

/-- With an illegal configuration nothing runs, whatever would run otherwise: "the model has no run for it" (93 U13, R5). -/
def configured (s : State) (k : Result) : Result :=
  if s.cfg.valid = false then .refused .invalidConfiguration else k

/-- What every meaning checks first: the configuration is legal (R5) and no other operation is in progress (R154). -/
def gate (s : State) (i : Instr) (k : Result) : Result :=
  s.configured (if s.overlaps i then .refused .operationOverlap else k)

end State

end Sys2Proof.Machine
end

