-- ==== Sys2Proof/Machine/Controller.lean ====
section
/-! DEFINITION. The display-controller operations (42_controller_ops.md). -/

namespace Sys2Proof.Machine

/-- `INIT` (R102, R104, R105). -/
def execInit (s : State) : Result :=
  s.gate .init (s.controller .init (initPlan s.cfg) id State.leaveFailed State.enterFailed)

/-- Whether `UPDATE` would read framebuffer bytes that do not exist: every legal state holds all `N` of them (R33). -/
def updateReads (s : State) : Bool := (updateCheck s.ctl).isSome || (s.memRead 0 s.cfg.size).isSome

/-- `UPDATE` (R107 to R111). -/
def execUpdate (s : State) : Result :=
  s.gate .update
    (if updateReads s then
      s.controller .update (updatePlan s.cfg) (fun s => { s with ctl := .updating }) (fun s => { s with ctl := .ready })
        State.enterFailed
    else .fault (.framebufferRange 0 s.cfg.size))

/-- `SET_INVERT flag` (R112). A failure leaves `ctl` and `disp` as they are (D15). -/
def execSetInvert (flag : Bool) (s : State) : Result :=
  s.gate (.setInvert flag)
    (s.controller (.setInvert flag) (invertPlan s.cfg flag) id
      (fun s => { s with disp := { s.disp with inverted := flag } }) id)

/-- `SET_CONTRAST level` (R115, R116). -/
def execSetContrast (level : Int) (s : State) : Result :=
  s.gate (.setContrast level)
    (s.controller (.setContrast level) (contrastPlan s.cfg level) id
      (fun s => { s with disp := { s.disp with contrast := contrastByte s.cfg level } }) id)

end Sys2Proof.Machine
end

