-- ==== Sys2Proof/Machine/Framebuffer.lean ====
section
/-! DEFINITION. The framebuffer operations (41_framebuffer_ops.md). -/

namespace Sys2Proof.Machine

/-- `CLEAR` (R86). -/
def execClear (s : State) : Result :=
  s.gate .clear (.next (s.clearBuffer.respond .ok []))

/-- `SET_PIXEL x, y, color` (R87 to R89). -/
def execSetPixel (x y : Int) (color : Color) (s : State) : Result :=
  s.gate (.setPixel x y color)
    (if inBounds s.cfg x y then
      match s.memRead (byteIndex s.cfg x.toNat y.toNat) 1 with
      | some [old] =>
        match s.memWrite (byteIndex s.cfg x.toNat y.toNat) [pixelByte color (bitInPage y.toNat) old] with
        | some t => .next (t.respond .ok [])
        | none => .fault (.framebufferRange (byteIndex s.cfg x.toNat y.toNat) 1)
      | _ => .fault (.framebufferRange (byteIndex s.cfg x.toNat y.toNat) 1)
    else .next (s.respond .ok []))

/-- `GET_BUFFER` (R90). -/
def execGetBuffer (s : State) : Result :=
  s.gate .getBuffer
    (match s.memRead 0 s.cfg.size with
     | some bytes => .next (s.respond .ok bytes)
     | none => .fault (.framebufferRange 0 s.cfg.size))

end Sys2Proof.Machine
end

