-- ==== Sys2Proof/Machine/Framer.lean ====
section
/-! DEFINITION. The wire rows of the opcode table: the two frames (40_framer.md R73, R74) and the nine command groups
(30_encoding.md R54), each of which is "the payload of one command frame". What the panel does with it is R46, in
Machine/Panel.lean. -/

namespace Sys2Proof.Machine

/-- `CMD_FRAME`: `WriteCommand(payload)` (R73). -/
def execCmdFrame (payload : List Byte) (s : State) : Result :=
  s.gate (.cmdFrame payload) (s.framer (.cmdFrame payload) s.cfg.ctrlCmd payload)

/-- `DATA_FRAME`: `WriteData(payload)` (R74). -/
def execDataFrame (payload : List Byte) (s : State) : Result :=
  s.gate (.dataFrame payload) (s.framer (.dataFrame payload) s.cfg.ctrlData payload)

/-- `SET_MEMORY_MODE m` (R54, R103). -/
def execSetMemoryMode (m : Byte) (s : State) : Result :=
  s.gate (.setMemoryMode m) (s.framer (.setMemoryMode m) s.cfg.ctrlCmd [Cmd.memoryMode, m])

/-- `SET_MUX_RATIO v` (R54, R103). -/
def execSetMuxRatio (v : Byte) (s : State) : Result :=
  s.gate (.setMuxRatio v) (s.framer (.setMuxRatio v) s.cfg.ctrlCmd [Cmd.muxRatio, v])

/-- `CHARGE_PUMP v` (R54, R103). -/
def execChargePump (v : Byte) (s : State) : Result :=
  s.gate (.chargePump v) (s.framer (.chargePump v) s.cfg.ctrlCmd [Cmd.chargePump, v])

/-- `DISPLAY_ON` (R54, R103). -/
def execDisplayOn (s : State) : Result :=
  s.gate .displayOn (s.framer .displayOn s.cfg.ctrlCmd [Cmd.displayOn])

/-- `SET_COLUMN_WINDOW a b` (R54, R108). -/
def execSetColumnWindow (a b : Byte) (s : State) : Result :=
  s.gate (.setColumnWindow a b) (s.framer (.setColumnWindow a b) s.cfg.ctrlCmd [Cmd.columnWindow, a, b])

/-- `SET_PAGE_WINDOW a b` (R54, R108). -/
def execSetPageWindow (a b : Byte) (s : State) : Result :=
  s.gate (.setPageWindow a b) (s.framer (.setPageWindow a b) s.cfg.ctrlCmd [Cmd.pageWindow, a, b])

/-- `NORMAL_DISPLAY` (R54, R112). -/
def execNormalDisplay (s : State) : Result :=
  s.gate .normalDisplay (s.framer .normalDisplay s.cfg.ctrlCmd [Cmd.normalDisplay])

/-- `INVERSE_DISPLAY` (R54, R112). -/
def execInverseDisplay (s : State) : Result :=
  s.gate .inverseDisplay (s.framer .inverseDisplay s.cfg.ctrlCmd [Cmd.inverseDisplay])

/-- `SET_CONTRAST_CMD c` (R54, R115). -/
def execSetContrastCmd (c : Byte) (s : State) : Result :=
  s.gate (.setContrastCmd c) (s.framer (.setContrastCmd c) s.cfg.ctrlCmd [Cmd.contrast, c])

end Sys2Proof.Machine
end

