-- ==== Sys2Proof/Machine/Dispatch.lean ====
section
/-! DEFINITION. One arm per instruction. -/

namespace Sys2Proof.Machine

def exec (i : Instr) (s : State) : Host.Outcome State Fault Refusal :=
  match i with
  | .init => Sys2Proof.Machine.execInit s
  | .update => Sys2Proof.Machine.execUpdate s
  | .setInvert flag => Sys2Proof.Machine.execSetInvert flag s
  | .setContrast level => Sys2Proof.Machine.execSetContrast level s
  | .clear => Sys2Proof.Machine.execClear s
  | .setPixel x y color => Sys2Proof.Machine.execSetPixel x y color s
  | .getBuffer => Sys2Proof.Machine.execGetBuffer s
  | .cmdFrame payload => Sys2Proof.Machine.execCmdFrame payload s
  | .dataFrame payload => Sys2Proof.Machine.execDataFrame payload s
  | .setMemoryMode m => Sys2Proof.Machine.execSetMemoryMode m s
  | .setMuxRatio v => Sys2Proof.Machine.execSetMuxRatio v s
  | .chargePump v => Sys2Proof.Machine.execChargePump v s
  | .displayOn => Sys2Proof.Machine.execDisplayOn s
  | .setColumnWindow a b => Sys2Proof.Machine.execSetColumnWindow a b s
  | .setPageWindow a b => Sys2Proof.Machine.execSetPageWindow a b s
  | .normalDisplay => Sys2Proof.Machine.execNormalDisplay s
  | .inverseDisplay => Sys2Proof.Machine.execInverseDisplay s
  | .setContrastCmd c => Sys2Proof.Machine.execSetContrastCmd c s

end Sys2Proof.Machine
end

