-- ==== Sys2Proof/Machine/Fetch.lean ====
section
/-! DEFINITION. What the next step runs. The block fetches no instructions (10_state.md R11): an operation in progress
goes on; otherwise a framer call that has been handed over is taken, and otherwise the next request word. -/

namespace Sys2Proof.Machine

/-- What the next step does. -/
inductive Fetched
  /-- Nothing has been handed over: the block waits for a request (R150). -/
  | idle
  /-- The operation in progress goes on (R25). -/
  | resume (op : Instr)
  /-- A code, and the state with the code taken. -/
  | code (code : Code) (rest : State)
  deriving DecidableEq, Repr

/-- "The port accepts a request only when no operation is in progress" (R55). -/
def State.fetch (s : State) : Fetched :=
  match s.activity with
  | some a => .resume a.op
  | none =>
    match s.framerCall with
    | some c => .code (.wire c) { s with framerCall := none }
    | none =>
      match s.requests with
      | w :: rest => .code (.request w) { s with requests := rest }
      | [] => .idle

/-- The state in which the next step takes this code. A wire code is a call inside a lock bracket, so the lock is held
(R78). -/
def State.withCode (s : State) : Code → State
  | .request w => { s with requests := w :: s.requests, framerCall := none, activity := none }
  | .wire c => { s with framerCall := some c, activity := none, lock := true }

end Sys2Proof.Machine
end

