-- ==== Sys2Proof/Machine/Step.lean ====
section
/-! DEFINITION. One step: the operation in progress goes on, or the next code is taken, decoded and run to its end or to
the first wait (10_state.md R25, 20_memory.md R40). With an illegal configuration there is no step (00_scope.md R5). -/

namespace Sys2Proof.Machine

def step (s : State) : Host.Outcome State Fault Refusal :=
  s.configured <|
    match s.fetch with
    | .idle => .next s
    | .resume op => exec op s
    | .code code rest =>
      match decode s.cfg code with
      | .ok i => exec i rest
      | .error reason => .refused (.undecodable reason)

/-- `s` with the instruction that the opcode table's number stands for where `step` takes its next one (log 11 to 13). -/
def State.withFetchWord (s : State) (nbits w : Nat) : State :=
  match tableCode s.cfg nbits w with
  | some code => s.withCode code
  | none => s

end Sys2Proof.Machine
end

