-- ==== Sys2Proof/Safety.lean ====
section
/-! DEFINITION. What counts as a legal state and a legal bus history, in the terms the statements use. -/

namespace Sys2Proof

/-- One whole command of a group, with exactly its arguments. -/
def Config.isCommand (c : Config) : List Byte → Bool
  | cmd :: args => c.argsOf cmd == some args.length
  | [] => false

/-- The group is these commands one after another (R73); a command that the spec does not list may follow them, with any
bytes after it that are none of the three command bytes of R104. -/
def Config.GroupReads (c : Config) (g : List Byte) (cmds : List (List Byte)) : Prop :=
  (∀ x ∈ cmds, c.isCommand x = true) ∧ ∃ tail, g = cmds.flatten ++ tail ∧
    (tail = [] ∨ ∃ cmd rest, tail = cmd :: rest ∧ c.argsOf cmd = none ∧ c.cmdContrast ∉ rest ∧ c.cmdNormal ∉ rest ∧
      c.cmdInverse ∉ rest)

/-- The groups are these commands one after another, however they are grouped. -/
def Config.GroupsRead (c : Config) : List (List Byte) → List (List Byte) → Prop
  | [], cmds => cmds = []
  | g :: rest, cmds => ∃ first others, cmds = first ++ others ∧ c.GroupReads g first ∧ c.GroupsRead rest others

/-- `INIT_SEQ` sends these commands, in this order. -/
def Config.InitReads (c : Config) (cmds : List (List Byte)) : Prop := c.GroupsRead c.initSeq cmds

end Sys2Proof

namespace Sys2Proof.Machine

/-- The bus as the history shows it (40_framer.md R78): free; a bracket opened, nothing sent yet; a bracket whose
transactions were all `ok`; a bracket whose last transaction failed. -/
inductive BusState
  | free | opened | held | broken
  deriving DecidableEq, Repr

/-- A transaction as R71, R72 and R53 allow it: to `DEV_ADDR`, one of the two control bytes, `1 .. MAX_TXN` bytes. -/
def txnOk (c : Config) (addr : DevAddr) (ctrl : Byte) (payload : List Byte) : Bool :=
  addr == c.devAddr && (ctrl == c.ctrlCmd || ctrl == c.ctrlData) && payloadOk c payload

/-- The next bus state, `none` if R78 or R79 forbids the event: `ACQ TXN ... TXN REL`, a failed `TXN` is followed by
`REL`; a bracket without a `TXN` only when `INIT_SEQ` is empty (R102 (a)). -/
def busNext (c : Config) (b : BusState) (e : Event) : Option BusState :=
  match b, e with
  | .free, .acq => some .opened
  | .opened, .txn addr ctrl payload .ok | .held, .txn addr ctrl payload .ok =>
    if txnOk c addr ctrl payload then some .held else none
  | .opened, .txn addr ctrl payload (.fail _) | .held, .txn addr ctrl payload (.fail _) =>
    if txnOk c addr ctrl payload then some .broken else none
  | .opened, .rel => if c.initSeq = [] then some .free else none
  | .held, .rel | .broken, .rel => some .free
  | _, _ => none

/-- The bus state after a history. -/
def busAfter (c : Config) : BusState → List Event → Option BusState
  | b, [] => some b
  | b, e :: rest =>
    match busNext c b e with
    | some b' => busAfter c b' rest
    | none => none

/-- The items an operation still has to send, from `wp` on, stay inside the framer's contract (R75) and inside the
framebuffer (R110). -/
def itemsOk (c : Config) : Nat → List Item → Bool
  | _, [] => true
  | wp, .send ctrl payload :: rest => (ctrl == c.ctrlCmd) && payloadOk c payload && itemsOk c wp rest
  | _, .rewind :: rest => itemsOk c 0 rest
  | wp, .chunk n :: rest =>
    decide (1 ≤ n) && decide (n ≤ c.maxTxn) && decide (wp + n ≤ c.size) && itemsOk c (wp + n) rest

/-- The first item is a transaction: what an operation that waits for the PHY waits for. -/
def startsWithTxn : List Item → Bool
  | .send _ _ :: _ | .chunk _ :: _ => true
  | .rewind :: _ | [] => false

/-- One of the four display-controller operations (R3). -/
def isController : Instr → Bool
  | .init | .update | .setInvert _ | .setContrast _ => true
  | .clear | .setPixel _ _ _ | .getBuffer | .cmdFrame _ | .dataFrame _ | .setMemoryMode _ | .setMuxRatio _
  | .chargePump _ | .displayOn | .setColumnWindow _ _ | .setPageWindow _ _ | .normalDisplay | .inverseDisplay
  | .setContrastCmd _ => false

/-- What R25 says of the state between two operations, and what may stand while one is in progress: `ctl` is UPDATING
exactly while an `UPDATE` is, the lock is held exactly while there is something to send, and what is left to send is the
rest of what the operation sends. -/
def activityOk (s : State) : Prop :=
  match s.activity with
  | none => s.lock = false ∧ s.ctl ≠ .updating
  | some ⟨op, .lockWait⟩ => isController op = true ∧ s.lock = false ∧ (s.ctl = .updating ↔ op = .update)
  | some ⟨op, .sending rest⟩ =>
    isController op = true ∧ s.lock = true ∧ (s.ctl = .updating ↔ op = .update) ∧
      startsWithTxn rest = true ∧ rest <:+ planOf s.cfg op ∧ itemsOk s.cfg s.wp rest = true

/-- What the history says of the lock: R19, R78. -/
def busOk (s : State) : Prop :=
  if s.lock then busAfter s.cfg .free s.hist = some .opened ∨ busAfter s.cfg .free s.hist = some .held
  else busAfter s.cfg .free s.hist = some .free

/-- The legal states: the configuration keeps R5, `fb` holds exactly the addresses `0 .. N - 1` (R17, R91), `wp` is in
`0 .. N` (R18), the panel's RAM is whole (R45), no call is handed to the framer from outside (R3), and activity and
history are as R25 and R78 say. -/
structure State.Inv (s : State) : Prop where
  config   : s.cfg.valid = true
  buffer   : s.fb.wf s.cfg.size = true
  pointer  : s.wp ≤ s.cfg.size
  ram      : s.panel.gd.wf (Panel.pageCount * Panel.columns) = true
  noCall   : s.framerCall = none
  activity : activityOk s
  bus      : busOk s

/-- No operation is in progress, the configuration is legal and `fb` is whole: what the framebuffer operations need (R85:
"accepted in every value of `ctl`"). -/
structure State.Free (s : State) : Prop where
  config : s.cfg.valid = true
  none   : s.activity = none
  buffer : s.fb.wf s.cfg.size = true

/-- The block is between two operations (R25): free, the lock not held, and `ctl` not UPDATING. -/
structure State.Idle (s : State) : Prop extends State.Free s where
  lock   : s.lock = false
  ctl    : s.ctl ≠ .updating

/-- A bracket is open for a framer call with this payload (R72, R75). -/
structure State.FramerReady (s : State) (payload : List Byte) : Prop where
  config : s.cfg.valid = true
  none   : s.activity = none
  lock   : s.lock = true
  length : payloadOk s.cfg payload = true

/-- What the `k`-th poll of the lock from this state on gives. -/
def State.grantAt (s : State) (k : Nat) : Bool :=
  match s.env.lockScript[k]? with
  | some g => g
  | none => Config.lockGrant (s.env.lockPolls + (k - s.env.lockScript.length))

/-- What the `k`-th poll of the PHY from this state on gives. -/
def State.answerAt (s : State) (k : Nat) : Option TxnResult :=
  match s.env.phyScript[k]? with
  | some a => a
  | none => Config.phyAnswer (s.env.phyPolls + (k - s.env.phyScript.length))

/-- `LOCK_FAIR` (R4, D23), for the `Acquire` that is pending at `s`: it is eventually granted. -/
def LockFair (s : State) : Prop := ∃ k, s.grantAt k = true

/-- How many of the next `m` polls of the PHY are answered. -/
def State.answeredPolls (s : State) (m : Nat) : Nat := (List.range m).countP fun k => (s.answerAt k).isSome

/-- The PHY gets around to `n` answers, however late: the premise of 93 U11 beside `LOCK_FAIR`, "every transaction gets a
result", for `n` transactions. A PHY that always answers some later poll meets it for every `n`, and so does one that
answers the next `n` polls at once. -/
def PhyAnswers (s : State) (n : Nat) : Prop := ∃ m, n ≤ s.answeredPolls m

/-- The bytes of the framebuffer, `fb[0], fb[1], ...`. -/
def State.buffer (s : State) : List Byte := s.fb.map (·.2)

/-- `K = ceil(N / MAX_TXN)` (R109). -/
def chunkCount (c : Config) : Nat := (c.size + c.maxTxn - 1) / c.maxTxn

/-- Chunk `j`: `fb[j * MAX_TXN .. min((j + 1) * MAX_TXN, N) - 1]` (R109). -/
def State.chunkAt (s : State) (j : Nat) : List Byte := (s.buffer.drop (j * s.cfg.maxTxn)).take s.cfg.maxTxn

/-- The transactions of a run of items that starts with the pointer at `wp`, as control byte and payload. -/
def itemPayloads (c : Config) (fb : Memory) : Nat → List Item → List (Byte × List Byte)
  | _, [] => []
  | wp, .send ctrl payload :: rest => (ctrl, payload) :: itemPayloads c fb wp rest
  | _, .rewind :: rest => itemPayloads c fb 0 rest
  | wp, .chunk n :: rest => (c.ctrlData, fb.bytes wp n) :: itemPayloads c fb (wp + n) rest

/-- Where a run of items leaves the pointer. -/
def itemsEnd : Nat → List Item → Nat
  | wp, [] => wp
  | wp, .send _ _ :: rest => itemsEnd wp rest
  | _, .rewind :: rest => itemsEnd 0 rest
  | wp, .chunk n :: rest => itemsEnd (wp + n) rest

/-- Where the pointer stands when the `k`-th transaction of a run of items goes out. -/
def pointerAt : Nat → List Item → Nat → Nat
  | wp, [], _ => wp
  | _, .rewind :: rest, k => pointerAt 0 rest k
  | wp, .send _ _ :: _, 0 | wp, .chunk _ :: _, 0 => wp
  | wp, .send _ _ :: rest, k + 1 => pointerAt wp rest k
  | wp, .chunk n :: rest, k + 1 => pointerAt (wp + n) rest k

/-- What is left of a run of items at its `k`-th transaction, that one included. -/
def itemsFrom : List Item → Nat → List Item
  | [], _ => []
  | .rewind :: rest, k => itemsFrom rest k
  | .send ctrl payload :: rest, 0 => .send ctrl payload :: rest
  | .chunk n :: rest, 0 => .chunk n :: rest
  | .send _ _ :: rest, k + 1 | .chunk _ :: rest, k + 1 => itemsFrom rest k

/-- Transactions that all succeeded, as events (R20). -/
def okEvents (c : Config) (txns : List (Byte × List Byte)) : List Event := txns.map fun p => .txn c.devAddr p.1 p.2 .ok

/-- The panel after transactions that all succeeded. -/
def panelAfter (c : Config) : Nat → List (Byte × List Byte) → Panel → Panel
  | _, [], p => p
  | draw, (ctrl, payload) :: rest, p => panelAfter c (draw + 1) rest (p.receive c draw ctrl payload .ok)

/-- The transactions of a whole operation, in the terms of its own rule: R102, R107 with R109, R112, R115. -/
def State.operationTxns (s : State) : Instr → List (Byte × List Byte)
  | .init => s.cfg.initSeq.map fun g => (s.cfg.ctrlCmd, g)
  | .update => (s.cfg.windowSeq.map fun g => (s.cfg.ctrlCmd, g)) ++
      (List.range (chunkCount s.cfg)).map fun j => (s.cfg.ctrlData, s.chunkAt j)
  | .setInvert flag => [(s.cfg.ctrlCmd, [if flag then s.cfg.cmdInverse else s.cfg.cmdNormal])]
  | .setContrast level => [(s.cfg.ctrlCmd, [s.cfg.cmdContrast, contrastByte s.cfg level])]
  | .clear | .setPixel _ _ _ | .getBuffer | .cmdFrame _ | .dataFrame _ | .setMemoryMode _ | .setMuxRatio _
  | .chargePump _ | .displayOn | .setColumnWindow _ _ | .setPageWindow _ _ | .normalDisplay | .inverseDisplay
  | .setContrastCmd _ => []

/-- `wp` when the `k`-th transaction of a whole operation goes out: only the data phase of `UPDATE` moves it (R107, R18). -/
def State.operationPointer (s : State) (i : Instr) (k : Nat) : Nat :=
  if i = .update ∧ s.cfg.windowSeq.length ≤ k then (k - s.cfg.windowSeq.length) * s.cfg.maxTxn else s.wp

/-- What the success of an operation writes, beside lock, history and response (R104, R107, R112, R115). -/
def State.succeeded (s : State) : Instr → State
  | .init => { s with fb := Memory.fill s.cfg.size 0x00#8, disp := ⟨true, s.cfg.initContrast, s.cfg.initInverted⟩, ctl := .ready }
  | .update => { s with wp := s.cfg.size, ctl := .ready }
  | .setInvert flag => { s with disp := { s.disp with inverted := flag } }
  | .setContrast level => { s with disp := { s.disp with contrast := contrastByte s.cfg level } }
  | .clear | .setPixel _ _ _ | .getBuffer | .cmdFrame _ | .dataFrame _ | .setMemoryMode _ | .setMuxRatio _
  | .chargePump _ | .displayOn | .setColumnWindow _ _ | .setPageWindow _ _ | .normalDisplay | .inverseDisplay
  | .setContrastCmd _ => s

/-- `ctl` once an operation has failed (R120, R133). -/
def State.failedCtl (s : State) (i : Instr) : Ctl := if i = .init ∨ i = .update then .failed else s.ctl

/-- `ctl` while an operation is in progress (R107, R25). -/
def State.busyCtl (s : State) (i : Instr) : Ctl := if i = .update then .updating else s.ctl

end Sys2Proof.Machine
end

