-- ==== Sys2Proof/Certificates/Slice0/Obligations.lean ====
section
/-! DEFINITION. The statements for the provers, file by file of the spec. `s.Free`, `s.Idle`, `s.Inv`, `s.answerAt k`,
`s.grantAt k` are defined in Safety.lean: the environment's answers are either in the scripts of the state or free
values, and every statement holds for both. -/

open Sys2Proof Sys2Proof.Machine

/-! ## Encodings (30_encoding.md) -/

/-- R50, R54, R56 to R58, R63: no operand bit is dropped by an encoding: every well-formed instruction of the 18 is
decoded from its own code. -/
def Obligations.DecodeOfEncodeIsTheInstruction : Prop :=
  ∀ (c : Config) (i : Instr), c.valid = true → i.wellFormed c = true → decode c (encode c i) = .ok i

/-- R57 to R59: a code that is decoded is exactly the code of what it decodes to, and that is well formed: no reserved
bit is ignored, and no instruction has a second code. -/
def Obligations.EncodeOfDecodeIsTheCode : Prop :=
  ∀ (c : Config) (code : Code) (i : Instr), decode c code = .ok i → i.wellFormed c = true ∧ encode c i = code

/-- R57, R58: the seven patterns with their numbers, what each word of a pattern decodes to, operands as R58 assembles
them, and that no word is of two patterns. -/
def Obligations.RequestWordsFollowTheTable : Prop :=
  (∀ w : ReqWord, w &&& 0xFFFFFFFF#32 = 0x10000000#32 → decodeRequest w = .ok .init) ∧
  (∀ w : ReqWord, w &&& 0xFFFFFFFF#32 = 0x20000000#32 → decodeRequest w = .ok .update) ∧
  (∀ w : ReqWord, w &&& 0xFFFFFFFE#32 = 0x30000000#32 → decodeRequest w = .ok (.setInvert (w.getLsbD 0))) ∧
  (∀ w : ReqWord, w &&& 0xFFFF0000#32 = 0x40000000#32 →
    decodeRequest w = .ok (.setContrast
      (if w.toNat % 65536 < 32768 then (w.toNat % 65536 : Nat) else (w.toNat % 65536 : Nat) - 65536))) ∧
  (∀ w : ReqWord, w &&& 0xFFFFFFFF#32 = 0x50000000#32 → decodeRequest w = .ok .clear) ∧
  (∀ w : ReqWord, w &&& 0xFE000000#32 = 0x60000000#32 →
    decodeRequest w = .ok (.setPixel
      (if w.toNat / 4096 % 4096 < 2048 then (w.toNat / 4096 % 4096 : Nat) else (w.toNat / 4096 % 4096 : Nat) - 4096)
      (if w.toNat % 4096 < 2048 then (w.toNat % 4096 : Nat) else (w.toNat % 4096 : Nat) - 4096)
      (if w.getLsbD 24 then .set else .clear))) ∧
  (∀ w : ReqWord, w &&& 0xFFFFFFFF#32 = 0x70000000#32 → decodeRequest w = .ok .getBuffer) ∧
  requestRows.Pairwise (fun a b => ∀ w : ReqWord, ¬(a.selects w = true ∧ b.selects w = true))

/-- R59: a request word that matches no row is refused, by name, and nothing of it is run. (With an illegal configuration the step
is refused for that: IllegalConfigurationsAreRefused.) -/
def Obligations.ReservedWordsAreRefused : Prop :=
  ∀ (s : State) (w : ReqWord) (rest : List ReqWord), s.cfg.valid = true → s.activity = none → s.framerCall = none →
    s.requests = w :: rest → (∀ r ∈ requestRows, r.selects w = false) →
    step s = .refused (.undecodable (.reservedWord w))

/-- A few words of 95_test_vectors.md section 2.2 (V2.25 to V2.39), by hand from R56 to R58. -/
def Obligations.VectorWordsDecode : Prop :=
  decodeRequest 0x30000001#32 = .ok (.setInvert true) ∧
  decodeRequest 0x4000012C#32 = .ok (.setContrast 300) ∧
  decodeRequest 0x40008000#32 = .ok (.setContrast (-32768)) ∧
  decodeRequest 0x6100500A#32 = .ok (.setPixel 5 10 .set) ∧
  decodeRequest 0x60800800#32 = .ok (.setPixel (-2048) (-2048) .clear) ∧
  decodeRequest 0x62000000#32 = .error (.reservedWord 0x62000000#32) ∧
  decodeGroup [0x21#8, 0x00#8, 0x7F#8] = .ok (.setColumnWindow 0x00#8 0x7F#8)

/-- R61: the codes, and that the block produces no other `STATUS` value. -/
def Obligations.StatusCodesAreTheTables : Prop :=
  Status.ok.code = 0x00#8 ∧ Status.notInitialized.code = 0x01#8 ∧ Status.alreadyFailed.code = 0x02#8 ∧
  (Status.transport .timeout).code = 0x10#8 ∧ (Status.transport .nack).code = 0x11#8 ∧
  (Status.transport .arblost).code = 0x12#8 ∧
  (∀ a b : Status, a.code = b.code → a = b) ∧
  ∀ st : Status, st.code ∈ [0x00#8, 0x01#8, 0x02#8, 0x10#8, 0x11#8, 0x12#8]

/-! ## Reset, configuration and steps (10_state.md, 70_reset_and_hazards.md) -/

/-- R23, R150: what the spec fixes after reset, the first one and one of a block that runs, which leaves the panel as it was.
(Of `fb`, `disp` and `wp` it fixes nothing; what the model holds there is a free value, log 4 to 6. Empty `activity` says
that the block waits for a request. That requests, responses and the environment's answers stay is the model's choice,
log 25.) -/
def Obligations.ResetIsUninitializedAndQuiet : Prop :=
  ∀ c : Config, (State.resetWith c).ctl = .uninitialized ∧ (State.resetWith c).lock = false ∧
    (State.resetWith c).hist = [] ∧ (State.resetWith c).activity = none ∧ (State.resetWith c).cfg = c ∧
    ∀ s : State, s.afterReset.ctl = .uninitialized ∧ s.afterReset.lock = false ∧ s.afterReset.hist = [] ∧
      s.afterReset.activity = none ∧ s.afterReset.framerCall = none ∧ s.afterReset.cfg = s.cfg ∧
      s.afterReset.panel = s.panel ∧ s.afterReset.requests = s.requests ∧ s.afterReset.responses = s.responses ∧
      s.afterReset.env = s.env

/-- The legal states are not empty: the state after reset is one, for every legal configuration, and the model's own
reset state has a legal configuration (its values for the OPEN parameters are log 1). A reset at any moment, inside an
operation too, leaves a legal state. -/
def Obligations.ResetIsLegal : Prop :=
  (∀ c : Config, c.valid = true → (State.resetWith c).Inv) ∧ State.reset.Inv ∧ ∀ s : State, s.Inv → s.afterReset.Inv

/-- Headline: every step from a legal state leads to a legal state. So between operations `ctl` is never UPDATING and the
lock is free (R25); the history is a sequence of brackets `ACQ TXN ... TXN REL`, a failed transaction is the last of its
bracket, and every transaction is one that R71, R72 and R53 allow (R78, R79); `fb` keeps its size and `wp` stays in
`0 .. N` (R17, R18, R110). -/
def Obligations.StepsKeepLegality : Prop :=
  ∀ s t : State, s.Inv → step s = .next t → t.Inv

/-- From a legal state a step always goes on, but for a reserved request word: no fault, no other refusal. -/
def Obligations.LegalStatesGoOn : Prop :=
  ∀ s : State, s.Inv → (∃ t, step s = .next t) ∨
    ∃ w rest, s.activity = none ∧ s.requests = w :: rest ∧ decodeRequest w = .error (.reservedWord w) ∧
      step s = .refused (.undecodable (.reservedWord w))

/-- R91: no step allocates, frees or resizes: the configuration, and with it `N`, never changes, and `fb` keeps exactly
the addresses `0 .. N - 1`. -/
def Obligations.BufferSizeNeverChanges : Prop :=
  ∀ s t : State, step s = .next t →
    t.cfg = s.cfg ∧ (s.fb.wf s.cfg.size = true → t.fb.wf s.cfg.size = true ∧ t.fb.length = s.fb.length)

/-- A step runs the decoded instruction: the request at the port, or the call handed to the framer, is taken and run; an
operation in progress goes on; with nothing to do the block waits (R25, R55, R150), if its configuration is legal
(IllegalConfigurationsAreRefused). Where the next code is taken from is the model's choice (log 11, log 12). -/
def Obligations.StepRunsTheDecodedInstruction : Prop :=
  (∀ (s : State) (w : ReqWord) (rest : List ReqWord) (i : Instr), s.activity = none → s.framerCall = none →
    s.requests = w :: rest → decodeRequest w = .ok i → step s = exec i { s with requests := rest }) ∧
  (∀ (s : State) (c : WireCode) (i : Instr), s.activity = none → s.framerCall = some c →
    decode s.cfg (.wire c) = .ok i → step s = exec i { s with framerCall := none }) ∧
  (∀ (s : State) (a : Activity), s.activity = some a → step s = exec a.op s) ∧
  (∀ s : State, s.cfg.valid = true → s.activity = none → s.framerCall = none → s.requests = [] → step s = .next s)

/-- R154, 93 U6: while an operation is in progress no other is run. That the model refuses it, where the spec gives the
overlap no meaning, is the model's choice (log 15). -/
def Obligations.OverlappingOperationsAreRefused : Prop :=
  ∀ (s : State) (a : Activity) (i : Instr), s.cfg.valid = true → s.activity = some a → i ≠ a.op →
    exec i s = .refused .operationOverlap

/-- R5, 93 U13: "a configuration that breaks one is refused", "the model has no run for it": no instruction runs and no step is
taken, not even one that waits; and which configurations those are, R5 (a)
to (g) in order. What is refused beside R5, and where R5 (f) is not asked, is the model's own reading: contrast bounds outside a
byte (93 U15, log 22); initial values that do not match `INIT_SEQ` (R104, log 27), which is the last clause: the last display-mode
command of `INIT_SEQ` decides, and the last contrast command, however the commands are grouped; and with `topBitRule` false only
that the control bytes differ (93 U1, log 3). -/
def Obligations.IllegalConfigurationsAreRefused : Prop :=
  (∀ s : State, s.cfg.valid = false → step s = .refused .invalidConfiguration ∧
    ∀ i : Instr, exec i s = .refused .invalidConfiguration) ∧
  (∀ c : Config, c.valid = true ↔
    (1 ≤ c.width ∧ 8 ≤ c.height) ∧ c.height % 8 = 0 ∧ (c.width ≤ 256 ∧ c.height / 8 ≤ 256) ∧
    (2 ≤ c.maxTxn ∧ ∀ g ∈ c.initSeq ++ c.windowSeq, g.length ≤ c.maxTxn) ∧
    (∀ g ∈ c.initSeq ++ c.windowSeq, g ≠ []) ∧
    (if c.topBitRule then c.ctrlCmd.getLsbD 7 ≠ c.ctrlData.getLsbD 7 else c.ctrlCmd ≠ c.ctrlData) ∧
    (c.width < 2048 ∧ c.height < 2048) ∧
    (0 ≤ c.contrastMin ∧ c.contrastMin ≤ c.contrastMax ∧ c.contrastMax ≤ 255) ∧ c.initValuesOk = true) ∧
  ∀ (c : Config) (cmds : List (List Byte)), c.InitReads cmds →
    (c.initValuesOk = true ↔
      (c.initInverted = true ↔ c.cmdInverse ≠ c.cmdNormal ∧
        cmds.reverse.find? (fun x => x == [c.cmdNormal] || x == [c.cmdInverse]) = some [c.cmdInverse]) ∧
      ∀ v, cmds.reverse.find? (fun x => x.head? == some c.cmdContrast) = some [c.cmdContrast, v] → c.initContrast = v)

/-- R60, R90: responses are given once and for all: no instruction changes one, or gives more than one. -/
def Obligations.ResponsesAreNeverChanged : Prop :=
  ∀ (i : Instr) (s t : State), exec i s = .next t →
    t.responses = s.responses ∨ ∃ r, t.responses = s.responses ++ [r]

/-- R25, R78: when an operation has responded, nothing of it is left: no operation in progress, the lock free, `ctl` not
UPDATING; and while it has not, it is in progress. -/
def Obligations.ResponseEndsTheOperation : Prop :=
  ∀ s t : State, s.Inv → step s = .next t → (t.responses ≠ s.responses → t.activity = none ∧ t.lock = false ∧
    t.ctl ≠ .updating) ∧ (t.responses = s.responses → t = s ∨ t.activity.isSome = true)

/-! ## Framebuffer (20_memory.md, 41_framebuffer_ops.md) -/

/-- R31: the two maps are inverse bijections, and in ascending index order the column moves fastest. -/
def Obligations.IndexMapsAreInverse : Prop :=
  ∀ c : Config, c.valid = true →
    (∀ i, i < c.size → pageOf c i < c.pages ∧ colOf c i < c.width ∧ indexOf c (pageOf c i) (colOf c i) = i) ∧
    (∀ p q, p < c.pages → q < c.width →
      indexOf c p q < c.size ∧ pageOf c (indexOf c p q) = p ∧ colOf c (indexOf c p q) = q) ∧
    (∀ i, i + 1 < c.size →
      (colOf c i ≠ c.width - 1 → pageOf c (i + 1) = pageOf c i ∧ colOf c (i + 1) = colOf c i + 1) ∧
      (colOf c i = c.width - 1 → pageOf c (i + 1) = pageOf c i + 1 ∧ colOf c (i + 1) = 0))

/-- R33, R34: `MemRead` answers exactly the bytes asked for, if they exist, and nothing otherwise; `MemWrite` writes
exactly its bytes, if they exist, and changes no other byte and nothing else. -/
def Obligations.MemoryAccessesAreExact : Prop :=
  ∀ (s : State) (addr : Nat), s.fb.wf s.cfg.size = true →
    (∀ n, 1 ≤ n → addr + n ≤ s.cfg.size →
      ∃ bytes, s.memRead addr n = some bytes ∧ bytes.length = n ∧ ∀ j, j < n → bytes[j]? = s.fb.read (addr + j)) ∧
    (∀ n, n = 0 ∨ s.cfg.size < addr + n → s.memRead addr n = none) ∧
    (∀ v : List Byte, 1 ≤ v.length → addr + v.length ≤ s.cfg.size →
      ∃ t, s.memWrite addr v = some t ∧ t = { s with fb := t.fb } ∧ t.fb.wf s.cfg.size = true ∧
        (∀ j, j < v.length → t.fb.read (addr + j) = v[j]?) ∧
        ∀ a, a < addr ∨ addr + v.length ≤ a → t.fb.read a = s.fb.read a) ∧
    (∀ v : List Byte, v.length = 0 ∨ s.cfg.size < addr + v.length → s.memWrite addr v = none)

/-- R86, R85: `CLEAR` runs in every value of `ctl`, answers `OK`, makes every byte 0 and every pixel CLEAR, and changes
nothing else; on a clear framebuffer it changes nothing. -/
def Obligations.ClearZeroesTheBuffer : Prop :=
  decodeRequest 0x50000000#32 = .ok .clear ∧
  ∀ s : State, s.Free → ∃ t, exec .clear s = .next t ∧
    (∀ a, a < s.cfg.size → t.fb.read a = some 0x00#8) ∧
    (∀ x y, x < s.cfg.width → y < s.cfg.height → t.pixel x y = some false) ∧
    ((∀ a, a < s.cfg.size → s.fb.read a = some 0x00#8) → t.fb = s.fb) ∧
    t = { s with fb := t.fb, responses := s.responses ++ [⟨.ok, []⟩] }

/-- R87, R85: `SET_PIXEL` runs in every value of `ctl` and answers `OK`. In bounds it writes `old | (1 << k)` or
`old & ~(1 << k)` to the byte of the pixel, and changes no other byte and nothing else; out of bounds, on either side of
either axis, it changes nothing. -/
def Obligations.SetPixelWritesItsByte : Prop :=
  (∀ w : ReqWord, w &&& 0xFE000000#32 = 0x60000000#32 → decodeRequest w = .ok (.setPixel (w.extractLsb' 12 12).toInt
    (w.extractLsb' 0 12).toInt (if w.getLsbD 24 then .set else .clear))) ∧
  (∀ (s : State) (x y : Nat) (color : Color), s.Free → x < s.cfg.width → y < s.cfg.height →
    ∃ t old, exec (.setPixel x y color) s = .next t ∧ s.fb.read (y / 8 * s.cfg.width + x) = some old ∧
      t.fb.read (y / 8 * s.cfg.width + x) =
        some (match color with
          | .set => old ||| (1#8 <<< (y % 8))
          | .clear => old &&& ~~~(1#8 <<< (y % 8))) ∧
      (∀ a, a ≠ y / 8 * s.cfg.width + x → t.fb.read a = s.fb.read a) ∧
      t = { s with fb := t.fb, responses := s.responses ++ [⟨.ok, []⟩] }) ∧
  ∀ (s : State) (x y : Int) (color : Color), s.cfg.valid = true → s.activity = none →
    (x < 0 ∨ x ≥ s.cfg.width ∨ y < 0 ∨ y ≥ s.cfg.height) →
    exec (.setPixel x y color) s = .next { s with responses := s.responses ++ [⟨.ok, []⟩] }

/-- R92: the laws of the source's section 8: (a) round trip, (b) frame, (c) clipping, (d) clear, (e) invert, and that of
the display-controller operations only a successful `INIT` writes `fb`. -/
def Obligations.FramebufferLaws : Prop :=
  (∀ (s t : State) (x y : Nat) (color : Color), s.Free → x < s.cfg.width → y < s.cfg.height →
    exec (.setPixel x y color) s = .next t → t.pixel x y = some (color == .set)) ∧
  (∀ (s t : State) (x y x' y' : Nat) (color : Color), s.Free → x < s.cfg.width → y < s.cfg.height →
    exec (.setPixel x y color) s = .next t → (x', y') ≠ (x, y) → t.pixel x' y' = s.pixel x' y') ∧
  (∀ (s t : State) (x y : Int) (color : Color), (x < 0 ∨ x ≥ s.cfg.width ∨ y < 0 ∨ y ≥ s.cfg.height) →
    exec (.setPixel x y color) s = .next t → t.fb = s.fb) ∧
  (∀ (s t : State) (x y : Nat), exec .clear s = .next t → x < s.cfg.width → y < s.cfg.height →
    t.pixel x y = some false) ∧
  (∀ s t u : State, exec (.setInvert true) s = .next t → exec (.setInvert false) t = .next u → u.fb = s.fb) ∧
  (∀ (s t : State) (i : Instr), isController i = true → exec i s = .next t → t.fb ≠ s.fb →
    i = .init ∧ t.responses = s.responses ++ [⟨.ok, []⟩])

/-- R88: `SET_PIXEL` does not read `disp` (nor `ctl`): from states that differ there only, it writes the same. -/
def Obligations.SetPixelDoesNotReadInvert : Prop :=
  ∀ (s t : State) (d : Disp) (k : Ctl) (x y : Int) (color : Color), exec (.setPixel x y color) s = .next t →
    exec (.setPixel x y color) { s with disp := d, ctl := k } = .next { t with disp := d, ctl := k }

/-- R44: two `SET_PIXEL` operations to different bits of one byte both take effect, and neither disturbs the other's bit
or another byte. -/
def Obligations.PixelsOfOneByteAreIndependent : Prop :=
  ∀ (s t u : State) (x y y' : Nat) (c c' : Color), s.Free → x < s.cfg.width → y < s.cfg.height →
    y' < s.cfg.height → y / 8 = y' / 8 → y ≠ y' →
    exec (.setPixel x y c) s = .next t → exec (.setPixel x y' c') t = .next u →
    u.pixel x y = some (c == .set) ∧ u.pixel x y' = some (c' == .set) ∧
      ∀ a, a ≠ y / 8 * s.cfg.width + x → u.fb.read a = s.fb.read a

/-- R90, R60, R85: `GET_BUFFER` runs in every value of `ctl`, answers `OK` with the `N` bytes `fb[0], ..., fb[N-1]`, and
changes nothing; and what has been answered is a copy: no later instruction changes it. -/
def Obligations.GetBufferAnswersTheBytes : Prop :=
  decodeRequest 0x70000000#32 = .ok .getBuffer ∧
  (∀ s : State, s.Free → ∃ bytes : List Byte,
    exec .getBuffer s = .next { s with responses := s.responses ++ [⟨.ok, bytes⟩] } ∧
    bytes.length = s.cfg.size ∧ (∀ a, a < s.cfg.size → bytes[a]? = s.fb.read a) ∧
    (Response.bytes ⟨.ok, bytes⟩).length = 1 + s.cfg.size) ∧
  ∀ (i : Instr) (s t : State), exec i s = .next t → s.responses <+: t.responses

/-! ## Display controller (42_controller_ops.md) -/

/-- R102, R104: `INIT` accepted in every value of `ctl`, lock granted, every group `ok`: the events in order, `fb` cleared,
`disp` set, `ctl` READY, answer `OK`; and the values `disp` is set to: INIT_CONTRAST, by default 0x7F, and 0, or what the last
command of INIT_SEQ for it sets, however the commands are grouped. (How the commands of a group are told apart is log 27.) -/
def Obligations.InitBringsUp : Prop :=
  Config.default.initContrast = 0x7F#8 ∧
  (∀ (c : Config) (cmds : List (List Byte)), c.valid = true → c.InitReads cmds →
    ((∀ x ∈ cmds, x ≠ [c.cmdNormal] ∧ x ≠ [c.cmdInverse]) → c.initInverted = false) ∧
    (∀ (flag : Bool) (before after : List (List Byte)), c.cmdNormal ≠ c.cmdInverse →
      cmds = before ++ [if flag then c.cmdInverse else c.cmdNormal] :: after →
      (∀ x ∈ after, x ≠ [c.cmdNormal] ∧ x ≠ [c.cmdInverse]) → c.initInverted = flag) ∧
    (∀ (v : Byte) (before after : List (List Byte)), cmds = before ++ [c.cmdContrast, v] :: after →
      (∀ x ∈ after, ∀ u, x ≠ [c.cmdContrast, u]) → c.initContrast = v)) ∧
  ∀ s : State, s.Idle → s.grantAt 0 = true → (∀ k, k < s.cfg.initSeq.length → s.answerAt k = some .ok) →
    ∃ t, exec .init s = .next t ∧
      t.hist = s.hist ++ .acq :: s.cfg.initSeq.map (fun g => .txn s.cfg.devAddr s.cfg.ctrlCmd g .ok) ++ [.rel] ∧
      (∀ a, a < s.cfg.size → t.fb.read a = some 0x00#8) ∧ t.fb.wf s.cfg.size = true ∧
      t.disp = ⟨true, s.cfg.initContrast, s.cfg.initInverted⟩ ∧ t.ctl = .ready ∧
      t = { s with ctl := t.ctl, disp := t.disp, fb := t.fb, hist := t.hist, env := t.env, panel := t.panel,
                   responses := s.responses ++ [⟨.ok, []⟩] }

/-- R105, R102 (d), R133: `INIT` whose `k`-th group fails: the groups before it were sent, those after it never
attempted; `ctl` FAILED; `fb`, `disp`, `wp` as before and the lock released; the failure's kind in the answer; and an
`UPDATE` right after it is rejected, not attempted. -/
def Obligations.InitFailureChangesOnlyCtl : Prop :=
  ∀ (s : State) (k : Nat) (kind : FailKind), s.Idle → s.grantAt 0 = true → k < s.cfg.initSeq.length →
    (∀ j, j < k → s.answerAt j = some .ok) → s.answerAt k = some (.fail kind) →
    ∃ t, exec .init s = .next t ∧
      t.hist = s.hist ++ .acq :: (s.cfg.initSeq.take k).map (fun g => .txn s.cfg.devAddr s.cfg.ctrlCmd g .ok) ++
        [.txn s.cfg.devAddr s.cfg.ctrlCmd (s.cfg.initSeq[k]?.getD []) (.fail kind), .rel] ∧
      t = { s with ctl := .failed, hist := t.hist, env := t.env, panel := t.panel,
                   responses := s.responses ++ [⟨.transport kind, []⟩] } ∧
      exec .update t = .next { t with responses := t.responses ++ [⟨.alreadyFailed, []⟩] }

/-- R107, R109: `UPDATE` in READY, lock granted and every transaction `ok` at once (with waits it is
OperationsRunThroughTheirWaits): the window groups, then the `K` data transactions, chunk `j` carrying
`fb[j * MAX_TXN .. min((j + 1) * MAX_TXN, N) - 1]`; `wp = N`, `ctl` READY, `fb` and `disp` as before, answer `OK`. -/
def Obligations.UpdateStreamsTheBuffer : Prop :=
  ∀ s : State, s.Idle → s.ctl = .ready → s.grantAt 0 = true →
    (∀ k, k < s.cfg.windowSeq.length + chunkCount s.cfg → s.answerAt k = some .ok) →
    ∃ t, exec .update s = .next t ∧
      t.hist = s.hist ++ .acq :: s.cfg.windowSeq.map (fun g => .txn s.cfg.devAddr s.cfg.ctrlCmd g .ok) ++
        (List.range (chunkCount s.cfg)).map (fun j => .txn s.cfg.devAddr s.cfg.ctrlData (s.chunkAt j) .ok) ++ [.rel] ∧
      t = { s with wp := s.cfg.size, hist := t.hist, env := t.env, panel := t.panel,
                   responses := s.responses ++ [⟨.ok, []⟩] }

/-- R109, R110: the chunks are cut greedily: `K = ceil(N / MAX_TXN)` of them, each of `1 .. MAX_TXN` bytes, all but the
last of `MAX_TXN`, the last of `N - MAX_TXN * (K - 1)`; their concatenation is exactly `fb[0 .. N-1]`. -/
def Obligations.ChunksConcatenateToTheBuffer : Prop :=
  ∀ s : State, s.cfg.valid = true → s.fb.wf s.cfg.size = true →
    ((List.range (chunkCount s.cfg)).map s.chunkAt).flatten = s.buffer ∧
    s.buffer.length = s.cfg.size ∧ (∀ a, a < s.cfg.size → s.buffer[a]? = s.fb.read a) ∧
    (∀ j, j < chunkCount s.cfg → 1 ≤ (s.chunkAt j).length ∧ (s.chunkAt j).length ≤ s.cfg.maxTxn) ∧
    (∀ j, j + 1 < chunkCount s.cfg → (s.chunkAt j).length = s.cfg.maxTxn) ∧
    (s.chunkAt (chunkCount s.cfg - 1)).length = s.cfg.size - s.cfg.maxTxn * (chunkCount s.cfg - 1)

/-- R111, R133, R18: `UPDATE` whose `k`-th data chunk fails: `ctl` FAILED, `wp` the index of the first byte of that chunk,
`fb` and `disp` as before, the failure's kind in the answer, and nothing sent after it. -/
def Obligations.UpdateDataFailureKeepsTheBuffer : Prop :=
  ∀ (s : State) (k : Nat) (kind : FailKind), s.Idle → s.ctl = .ready → s.grantAt 0 = true → k < chunkCount s.cfg →
    (∀ j, j < s.cfg.windowSeq.length + k → s.answerAt j = some .ok) →
    s.answerAt (s.cfg.windowSeq.length + k) = some (.fail kind) →
    ∃ t, exec .update s = .next t ∧
      t.hist = s.hist ++ .acq :: s.cfg.windowSeq.map (fun g => .txn s.cfg.devAddr s.cfg.ctrlCmd g .ok) ++
        (List.range k).map (fun j => .txn s.cfg.devAddr s.cfg.ctrlData (s.chunkAt j) .ok) ++
        [.txn s.cfg.devAddr s.cfg.ctrlData (s.chunkAt k) (.fail kind), .rel] ∧
      t = { s with ctl := .failed, wp := k * s.cfg.maxTxn, hist := t.hist, env := t.env, panel := t.panel,
                   responses := s.responses ++ [⟨.transport kind, []⟩] }

/-- R107, R133, R18: `UPDATE` whose `k`-th window group fails: `ctl` FAILED, `wp` as before, no data sent. -/
def Obligations.UpdateWindowFailureKeepsThePointer : Prop :=
  ∀ (s : State) (k : Nat) (kind : FailKind), s.Idle → s.ctl = .ready → s.grantAt 0 = true →
    k < s.cfg.windowSeq.length → (∀ j, j < k → s.answerAt j = some .ok) → s.answerAt k = some (.fail kind) →
    ∃ t, exec .update s = .next t ∧
      t.hist = s.hist ++ .acq :: (s.cfg.windowSeq.take k).map (fun g => .txn s.cfg.devAddr s.cfg.ctrlCmd g .ok) ++
        [.txn s.cfg.devAddr s.cfg.ctrlCmd (s.cfg.windowSeq[k]?.getD []) (.fail kind), .rel] ∧
      t = { s with ctl := .failed, hist := t.hist, env := t.env, panel := t.panel,
                   responses := s.responses ++ [⟨.transport kind, []⟩] }

/-- R112: `SET_INVERT flag`, in every state of `ctl` but FAILED: one command byte, whatever `disp.inverted` was;
`disp.inverted` is the flag on `ok` and unchanged on a failure; `ctl` never changes; in FAILED it is rejected with no other
effect. -/
def Obligations.SetInvertSendsOneCommand : Prop :=
  (∀ flag : Bool, decodeRequest (if flag then 0x30000001#32 else 0x30000000#32) = .ok (.setInvert flag)) ∧
  (∀ (s : State) (flag : Bool), s.Idle → s.ctl = .failed →
    exec (.setInvert flag) s = .next { s with responses := s.responses ++ [⟨.alreadyFailed, []⟩] }) ∧
  ∀ (s : State) (flag : Bool) (r : TxnResult), s.Idle → s.ctl ≠ .failed → s.grantAt 0 = true →
    s.answerAt 0 = some r →
    ∃ t, exec (.setInvert flag) s = .next t ∧
      t = { s with
            disp := (match r with | .ok => { s.disp with inverted := flag } | .fail _ => s.disp)
            hist := s.hist ++ [.acq, .txn s.cfg.devAddr s.cfg.ctrlCmd
              [if flag then s.cfg.cmdInverse else s.cfg.cmdNormal] r, .rel]
            responses := s.responses ++ [⟨match r with | .ok => .ok | .fail kind => .transport kind, []⟩]
            env := t.env, panel := t.panel }

/-- R115: `SET_CONTRAST level`, in every state of `ctl` but FAILED: one transaction, the command byte and the clamped level
`c`; `disp.contrast` is `c` on `ok` and unchanged on a failure; `ctl` never changes; in FAILED it is rejected with no other
effect. -/
def Obligations.SetContrastSendsTheClampedLevel : Prop :=
  (∀ w : ReqWord, w &&& 0xFFFF0000#32 = 0x40000000#32 →
    decodeRequest w = .ok (.setContrast (w.extractLsb' 0 16).toInt)) ∧
  (∀ (s : State) (level : Int), s.Idle → s.ctl = .failed →
    exec (.setContrast level) s = .next { s with responses := s.responses ++ [⟨.alreadyFailed, []⟩] }) ∧
  ∀ (s : State) (level : Int) (r : TxnResult), s.Idle → s.ctl ≠ .failed → s.grantAt 0 = true →
    s.answerAt 0 = some r →
    ∃ t c, exec (.setContrast level) s = .next t ∧
      ((c : Byte).toNat : Int) = max s.cfg.contrastMin (min level s.cfg.contrastMax) ∧
      t = { s with
            disp := (match r with | .ok => { s.disp with contrast := c } | .fail _ => s.disp)
            hist := s.hist ++ [.acq, .txn s.cfg.devAddr s.cfg.ctrlCmd [s.cfg.cmdContrast, c] r, .rel]
            responses := s.responses ++ [⟨match r with | .ok => .ok | .fail kind => .transport kind, []⟩]
            env := t.env, panel := t.panel }

/-- R116: the clamp is a comparison on the signed integer, not a truncation. -/
def Obligations.ClampIsNotATruncation : Prop :=
  (∀ level : Int, clamp level 0 255 = if level < 0 then 0 else if level ≤ 255 then level else 255) ∧
  ∀ (c : Config) (level : Int), c.contrastMin = 0 → c.contrastMax = 255 →
    contrastByte c level = if level < 0 then 0x00#8 else if level ≤ 255 then BitVec.ofInt 8 level else 0xFF#8

/-- R126: `UPDATE` in UNINITIALIZED answers `NotInitializedError`, with no other effect; nothing else does. -/
def Obligations.NotInitializedIsUpdatesAlone : Prop :=
  (∀ s : State, s.Idle → s.ctl = .uninitialized →
    exec .update s = .next { s with responses := s.responses ++ [⟨.notInitialized, []⟩] }) ∧
  ∀ (i : Instr) (s t : State) (data : List Byte), exec i s = .next t →
    t.responses = s.responses ++ [⟨.notInitialized, data⟩] → i = .update ∧ s.ctl = .uninitialized ∧ data = []

/-- R127: `UPDATE`, `SET_INVERT` and `SET_CONTRAST` in FAILED answer `AlreadyFailedError`, with no other effect; nothing
else does, `INIT` never. -/
def Obligations.AlreadyFailedIsOfThreeOperations : Prop :=
  (∀ (s : State) (i : Instr), s.Idle → s.ctl = .failed →
    (i = .update ∨ (∃ flag, i = .setInvert flag) ∨ ∃ level, i = .setContrast level) →
    exec i s = .next { s with responses := s.responses ++ [⟨.alreadyFailed, []⟩] }) ∧
  ∀ (i : Instr) (s t : State) (data : List Byte), exec i s = .next t →
    t.responses = s.responses ++ [⟨.alreadyFailed, data⟩] →
    s.ctl = .failed ∧ data = [] ∧ (i = .update ∨ (∃ flag, i = .setInvert flag) ∨ ∃ level, i = .setContrast level)

/-- R128: a `TransportError` comes from the four display-controller operations only, and its kind is the result of the
last transaction, which is the last event before the `REL`. -/
def Obligations.TransportErrorIsTheLastResult : Prop :=
  ∀ (i : Instr) (s t : State) (kind : FailKind) (data : List Byte), exec i s = .next t →
    t.responses = s.responses ++ [⟨.transport kind, data⟩] →
    isController i = true ∧ data = [] ∧
      ∃ before ctrl payload, t.hist = before ++ [.txn s.cfg.devAddr ctrl payload (.fail kind), .rel]

/-- R85, R129: the framebuffer operations always run and always answer `OK`, whatever `ctl`, the lock and the operands
are, and touch neither the bus nor `ctl`, `disp`, `wp`. -/
def Obligations.FramebufferOperationsNeverFail : Prop :=
  ∀ (s : State) (i : Instr), s.Free → (i = .clear ∨ i = .getBuffer ∨ ∃ x y color, i = .setPixel x y color) →
    ∃ t data, exec i s = .next t ∧ t.responses = s.responses ++ [⟨.ok, data⟩] ∧
      t = { s with fb := t.fb, responses := t.responses }

/-- R120: every change of `ctl`. An `INIT` ends in READY with `OK` or in FAILED with a `TransportError`; an `UPDATE` is
accepted in READY only, is UPDATING while it is in progress, and ends in READY with `OK` or in FAILED with a
`TransportError`; nothing else changes `ctl`. -/
def Obligations.ControlStateTransitions : Prop :=
  (∀ s t : State, s.Inv → exec .init s = .next t →
    (t.responses = s.responses ∧ t.ctl = s.ctl) ∨
    (t.responses = s.responses ++ [⟨.ok, []⟩] ∧ t.ctl = .ready) ∨
    ∃ kind, t.responses = s.responses ++ [⟨.transport kind, []⟩] ∧ t.ctl = .failed) ∧
  (∀ s t : State, s.Inv → exec .update s = .next t →
    (t.ctl = s.ctl ∧ s.ctl = .uninitialized ∧ t.responses = s.responses ++ [⟨.notInitialized, []⟩]) ∨
    (t.ctl = s.ctl ∧ s.ctl = .failed ∧ t.responses = s.responses ++ [⟨.alreadyFailed, []⟩]) ∨
    ((s.ctl = .ready ∨ s.ctl = .updating) ∧
      ((t.responses = s.responses ∧ t.ctl = .updating) ∨
       (t.responses = s.responses ++ [⟨.ok, []⟩] ∧ t.ctl = .ready) ∨
       ∃ kind, t.responses = s.responses ++ [⟨.transport kind, []⟩] ∧ t.ctl = .failed))) ∧
  ∀ (i : Instr) (s t : State), i ≠ .init → i ≠ .update → exec i s = .next t → t.ctl = s.ctl

/-- R24: what each operation may write, whatever the environment answers and also when the operation has to wait or goes on
after a wait: `fb` and `disp` with a successful response only, `wp` in `UPDATE` only, `ctl` in `INIT` and `UPDATE` only. -/
def Obligations.OperationsWriteOnlyTheirState : Prop :=
  (∀ s t : State, s.Inv → exec .init s = .next t →
    t.wp = s.wp ∧ (t.responses ≠ s.responses ++ [⟨.ok, []⟩] → t.fb = s.fb ∧ t.disp = s.disp)) ∧
  (∀ s t : State, exec .update s = .next t → t.fb = s.fb ∧ t.disp = s.disp) ∧
  (∀ (s t : State) (flag : Bool), s.Inv → exec (.setInvert flag) s = .next t →
    t.fb = s.fb ∧ t.ctl = s.ctl ∧ t.wp = s.wp ∧ t.disp.powered = s.disp.powered ∧ t.disp.contrast = s.disp.contrast ∧
    (t.responses ≠ s.responses ++ [⟨.ok, []⟩] → t.disp = s.disp)) ∧
  (∀ (s t : State) (level : Int), s.Inv → exec (.setContrast level) s = .next t →
    t.fb = s.fb ∧ t.ctl = s.ctl ∧ t.wp = s.wp ∧ t.disp.powered = s.disp.powered ∧ t.disp.inverted = s.disp.inverted ∧
    (t.responses ≠ s.responses ++ [⟨.ok, []⟩] → t.disp = s.disp)) ∧
  (∀ (i : Instr) (s t : State), exec i s = .next t → t.cfg = s.cfg ∧ t.requests = s.requests ∧
    t.framerCall = s.framerCall)

/-- R134, R104: the only way out of FAILED is an `INIT` that succeeds; then the framebuffer is clear and `disp` is set: powered,
INIT_CONTRAST and the initial `inverted`, a parameter that R104 names and R4 does not list (log 27). -/
def Obligations.OnlyInitLeavesFailed : Prop :=
  ∀ (i : Instr) (s t : State), s.Inv → s.ctl = .failed → exec i s = .next t → t.ctl ≠ .failed →
    i = .init ∧ t.ctl = .ready ∧ t.disp = ⟨true, s.cfg.initContrast, s.cfg.initInverted⟩ ∧
      t.responses = s.responses ++ [⟨.ok, []⟩] ∧ ∀ a, a < s.cfg.size → t.fb.read a = some 0x00#8

/-- R135, R101: in FAILED the seven operations but `INIT` touch neither the bus nor the lock. -/
def Obligations.FailedDisplayLeavesTheBusAlone : Prop :=
  ∀ (i : Instr) (s t : State), s.activity = none → s.ctl = .failed → exec i s = .next t →
    (∃ w, encode s.cfg i = .request w) → i ≠ .init → t.hist = s.hist ∧ t.lock = s.lock ∧ t.env = s.env

/-- R101, R107 (95 section 4, claim 5): outside READY none of the seven operations sends framebuffer data: not when it starts
there, and not in a later step of an operation that waits there. -/
def Obligations.NoDataIsSentOutsideReady : Prop :=
  ∀ (i : Instr) (s t : State), s.Inv ∨ (s.cfg.valid = true ∧ s.activity = none) →
    s.ctl = .uninitialized ∨ s.ctl = .failed →
    (∃ w, encode s.cfg i = .request w) → exec i s = .next t →
    ∃ events, t.hist = s.hist ++ events ∧ ∀ addr ctrl payload r, .txn addr ctrl payload r ∈ events → ctrl = s.cfg.ctrlCmd

/-! ## The framer, the lock and the environment (40_framer.md) -/

/-- R72 to R74: inside a bracket, `WriteCommand` and `WriteData` hand over one transaction, with their own control byte and
the bytes exactly as given, and return its result unchanged. -/
def Obligations.FramesAreOneTransaction : Prop :=
  ∀ (s : State) (payload : List Byte) (r : TxnResult), s.FramerReady payload → s.answerAt 0 = some r →
    (∃ t, exec (.cmdFrame payload) s = .next t ∧
      t = { s with hist := s.hist ++ [.txn s.cfg.devAddr s.cfg.ctrlCmd payload r], framerReturn := some r,
                   env := t.env, panel := t.panel }) ∧
    ∃ t, exec (.dataFrame payload) s = .next t ∧
      t = { s with hist := s.hist ++ [.txn s.cfg.devAddr s.cfg.ctrlData payload r], framerReturn := some r,
                   env := t.env, panel := t.panel }

/-- R75, 93 U3: outside its contract a framer call is refused, each of the two frames and of the nine command groups: an empty
payload, or one longer than `MAX_TXN`, as the three bytes of a window group are when `MAX_TXN` is 2. That it is refused as well
when no lock is held is the model's choice (log 12): R72 gives `lock = 1` as a precondition and says nothing of a call without
it. -/
def Obligations.FramerContractIsChecked : Prop :=
  (∀ (s : State) (payload : List Byte), s.cfg.valid = true → s.activity = none →
    (s.lock = true → payload = [] ∨ s.cfg.maxTxn < payload.length →
      exec (.cmdFrame payload) s = .refused (.payloadLength payload.length) ∧
      exec (.dataFrame payload) s = .refused (.payloadLength payload.length)) ∧
    (s.lock = false → exec (.cmdFrame payload) s = .refused .lockNotHeld ∧
      exec (.dataFrame payload) s = .refused .lockNotHeld)) ∧
  (∀ (s : State) (i : Instr) (bytes : List Byte), encode s.cfg i = .wire (.group bytes) → s.cfg.valid = true →
    s.activity = none →
    (s.lock = true → s.cfg.maxTxn < bytes.length → exec i s = .refused (.payloadLength bytes.length)) ∧
    (s.lock = false → exec i s = .refused .lockNotHeld)) ∧
  ∀ (s : State) (a b : Byte), s.cfg.valid = true → s.activity = none → s.lock = true → s.cfg.maxTxn = 2 →
    exec (.setColumnWindow a b) s = .refused (.payloadLength 3) ∧ exec (.setPageWindow a b) s = .refused (.payloadLength 3)

/-- R54: each of the nine command groups is the payload of one command frame: once the PHY answers, running the group is
running `WriteCommand` of its bytes. -/
def Obligations.GroupsAreCommandFrames : Prop :=
  ∀ (s : State) (i : Instr) (payload : List Byte) (r : TxnResult), encode s.cfg i = .wire (.group payload) →
    s.FramerReady payload → s.answerAt 0 = some r →
    ∃ t, exec i s = .next t ∧ exec (.cmdFrame payload) s = .next t ∧
      t.hist = s.hist ++ [.txn s.cfg.devAddr s.cfg.ctrlCmd payload r] ∧ t.framerReturn = some r

/-- R103, R46: the four groups of the default `INIT_SEQ`, and what an `ok` one does to the panel's registers. -/
def Obligations.InitGroupsReachThePanel : Prop :=
  ∀ (s : State) (v : Byte), s.FramerReady [v, v] → s.answerAt 0 = some .ok →
    (∃ t, exec (.setMemoryMode v) s = .next t ∧ t.panel = { s.panel with regs := { s.panel.regs with mode := v } }) ∧
    (∃ t, exec (.setMuxRatio v) s = .next t ∧
      t.panel = { s.panel with regs := { s.panel.regs with mux := v.toNat + 1 } }) ∧
    (∃ t, exec (.chargePump v) s = .next t ∧ t.panel = { s.panel with regs := { s.panel.regs with pump := v } }) ∧
    ∃ t, exec .displayOn s = .next t ∧ t.panel = { s.panel with regs := { s.panel.regs with on := true } }

/-- R108, R46: the two window groups: each sets its window and puts its pointer at the window's start. -/
def Obligations.WindowGroupsReachThePanel : Prop :=
  ∀ (s : State) (a b : Byte), s.FramerReady [a, a, b] → s.answerAt 0 = some .ok →
    (∃ t, exec (.setColumnWindow a b) s = .next t ∧
      t.panel = { s.panel with regs := { s.panel.regs with cs := a.toNat, ce := b.toNat, pc := a.toNat } }) ∧
    ∃ t, exec (.setPageWindow a b) s = .next t ∧
      t.panel = { s.panel with regs := { s.panel.regs with ps := a.toNat, pe := b.toNat, pp := a.toNat } }

/-- R112, R115, R46: the invert and contrast groups on the panel. -/
def Obligations.ModeGroupsReachThePanel : Prop :=
  ∀ (s : State) (c : Byte), s.FramerReady [c, c] → s.answerAt 0 = some .ok →
    (∃ t, exec .normalDisplay s = .next t ∧
      t.panel = { s.panel with regs := { s.panel.regs with inverted := false } }) ∧
    (∃ t, exec .inverseDisplay s = .next t ∧
      t.panel = { s.panel with regs := { s.panel.regs with inverted := true } }) ∧
    ∃ t, exec (.setContrastCmd c) s = .next t ∧
      t.panel = { s.panel with regs := { s.panel.regs with contrast := c } }

/-- R76, R133: an accepted operation whose lock is not granted emits nothing and sends nothing: it waits, with its own
`ctl` if it is an `UPDATE`. (That a wait is a state that later steps leave is the model's choice, log 9; that the panel is as
before is log 24.) -/
def Obligations.UngrantedLockMakesTheOperationWait : Prop :=
  ∀ (s : State) (i : Instr), s.Idle → isController i = true → stateCheck i s.ctl = none → s.grantAt 0 = false →
    ∃ t, exec i s = .next t ∧
      t = { s with ctl := (if i = .update then .updating else s.ctl), activity := some ⟨i, .lockWait⟩, env := t.env }

/-- R157, 93 U11: with the lock granted and the first transaction not answered, the operation waits with the lock held,
`ACQ` its only event, and with all it sends still to be sent: only the `wp <- 0` that may stand before its first transaction
is done. (Not for an `INIT` with an empty `INIT_SEQ`, which sends nothing. That a wait is a state that later steps leave is the
model's choice, log 9; that the panel is as before is log 29.) -/
def Obligations.SilentPhyMakesTheOperationWait : Prop :=
  ∀ (s : State) (i : Instr), s.Idle → isController i = true → stateCheck i s.ctl = none → s.grantAt 0 = true →
    s.answerAt 0 = none → (i = .init → s.cfg.initSeq ≠ []) →
    ∃ t, exec i s = .next t ∧
      t = { s with
        ctl := s.busyCtl i
        wp := (if (planOf s.cfg i).head? = some .rewind then 0 else s.wp)
        lock := true
        hist := s.hist ++ [.acq]
        activity := some ⟨i, .sending
          (if (planOf s.cfg i).head? = some .rewind then (planOf s.cfg i).tail else planOf s.cfg i)⟩
        env := t.env }

/-- R72, 93 U11: a framer call that the PHY has not answered is in progress with its one transaction left, and has changed
nothing else; going on, it ends with the answer, or is in progress still. (Waits: log 9; the panel until the answer: log 29.) -/
def Obligations.SilentPhyMakesTheFramerCallWait : Prop :=
  ∀ (s : State) (i : Instr) (ctrl : Byte) (payload : List Byte),
    encode s.cfg i = .wire (.frame (ctrl :: payload)) ∨ (ctrl = s.cfg.ctrlCmd ∧ encode s.cfg i = .wire (.group payload)) →
    s.cfg.valid = true → s.lock = true → payloadOk s.cfg payload = true →
    s.activity = none ∨ s.activity = some ⟨i, .sending [.send ctrl payload]⟩ →
    (s.answerAt 0 = none → ∃ t, exec i s = .next t ∧
      t = { s with activity := some ⟨i, .sending [.send ctrl payload]⟩, env := t.env }) ∧
    ∀ r, s.answerAt 0 = some r → ∃ t, exec i s = .next t ∧
      t = { s with hist := s.hist ++ [.txn s.cfg.devAddr ctrl payload r], framerReturn := some r, activity := none,
                   env := t.env, panel := t.panel }

/-- R100, R107, R133: what one step of a display-controller operation does, wherever it stands: new and granted the lock,
granted the lock after a wait, or waiting for the PHY with `items` left. With every transaction of `items` answered `ok` it
sends exactly those and ends in success; with the `k`-th the first that fails it sends the ones before it and that one, and ends
in failure; with the `k`-th the first that is not answered it sends the ones before it and waits with the rest. (The model's
choices: waits, log 9; that the panel has received nothing of the unanswered one, log 29; how much it has received of the failed
one is a free value, log 18.) -/
def Obligations.OperationsGoOnWhereTheyStand : Prop :=
  ∀ (s : State) (i : Instr) (items : List Item) (start : List Event), s.Inv → isController i = true →
    (s.activity = none ∧ stateCheck i s.ctl = none ∧ s.grantAt 0 = true ∧ items = planOf s.cfg i ∧ start = [.acq]) ∨
    (s.activity = some ⟨i, .lockWait⟩ ∧ s.grantAt 0 = true ∧ items = planOf s.cfg i ∧ start = [.acq]) ∨
    (s.activity = some ⟨i, .sending items⟩ ∧ start = []) →
    ((∀ k, k < (itemPayloads s.cfg s.fb s.wp items).length → s.answerAt k = some .ok) →
      ∃ t, exec i s = .next t ∧
        t = { s.succeeded i with
          wp := itemsEnd s.wp items
          lock := false
          activity := none
          hist := s.hist ++ start ++ okEvents s.cfg (itemPayloads s.cfg s.fb s.wp items) ++ [.rel]
          responses := s.responses ++ [⟨.ok, []⟩]
          env := t.env
          panel := panelAfter s.cfg s.env.panelDraws (itemPayloads s.cfg s.fb s.wp items) s.panel }) ∧
    ∀ (k : Nat) (p : Byte × List Byte), (itemPayloads s.cfg s.fb s.wp items)[k]? = some p →
      (∀ j, j < k → s.answerAt j = some .ok) →
      (∀ kind, s.answerAt k = some (.fail kind) →
        ∃ t, exec i s = .next t ∧
          t = { s with
            ctl := s.failedCtl i
            wp := pointerAt s.wp items k
            lock := false
            activity := none
            hist := s.hist ++ start ++ okEvents s.cfg ((itemPayloads s.cfg s.fb s.wp items).take k) ++
              [.txn s.cfg.devAddr p.1 p.2 (.fail kind), .rel]
            responses := s.responses ++ [⟨.transport kind, []⟩]
            env := t.env
            panel := (panelAfter s.cfg s.env.panelDraws ((itemPayloads s.cfg s.fb s.wp items).take k) s.panel).receive s.cfg
              (s.env.panelDraws + k) p.1 p.2 (.fail kind) }) ∧
      (s.answerAt k = none →
        ∃ t, exec i s = .next t ∧
          t = { s with
            ctl := s.busyCtl i
            wp := pointerAt s.wp items k
            lock := true
            activity := some ⟨i, .sending (itemsFrom items k)⟩
            hist := s.hist ++ start ++ okEvents s.cfg ((itemPayloads s.cfg s.fb s.wp items).take k)
            env := t.env
            panel := panelAfter s.cfg s.env.panelDraws ((itemPayloads s.cfg s.fb s.wp items).take k) s.panel })

/-- R100 to R115, R157: an accepted display-controller operation from its request on, however long the lock and the PHY make it
wait: until the next request is taken, it waits for the lock; or it has sent its first `k` transactions, all `ok`, and waits; or
it has sent all of them and succeeded; or it has sent the first `k`, and the next failed, and so it did. The transactions are
those of its own rule (R102, R107 with R109, R112, R115), in that order. (The model's choices: waits, log 9; that the panel has
received nothing of an unanswered transaction, log 29; that nothing else changes the panel, across a wait for the lock and while
the block is idle afterwards as well, log 24; how much the panel has received of the failed one is a free value, log 18.) -/
def Obligations.OperationsRunThroughTheirWaits : Prop :=
  ∀ (s t : State) (w : ReqWord) (rest : List ReqWord) (i : Instr) (steps : Nat), s.Inv → s.activity = none →
    s.requests = w :: rest → decodeRequest w = .ok i → isController i = true → stateCheck i s.ctl = none →
    Host.Core.run Sys2Proof.core steps s = .next t → t.requests = rest →
    (t = { s with requests := rest, ctl := s.busyCtl i, activity := some ⟨i, .lockWait⟩, env := t.env }) ∨
    (∃ k, k < (s.operationTxns i).length ∧
      t = { s with
        requests := rest
        ctl := s.busyCtl i
        wp := s.operationPointer i k
        lock := true
        activity := some ⟨i, .sending (itemsFrom (planOf s.cfg i) k)⟩
        hist := s.hist ++ .acq :: okEvents s.cfg ((s.operationTxns i).take k)
        env := t.env
        panel := panelAfter s.cfg s.env.panelDraws ((s.operationTxns i).take k) s.panel }) ∨
    (t = { s.succeeded i with
      requests := rest
      hist := s.hist ++ .acq :: okEvents s.cfg (s.operationTxns i) ++ [.rel]
      responses := s.responses ++ [⟨.ok, []⟩]
      env := t.env
      panel := panelAfter s.cfg s.env.panelDraws (s.operationTxns i) s.panel }) ∨
    ∃ k p kind, (s.operationTxns i)[k]? = some p ∧
      t = { s with
        requests := rest
        ctl := s.failedCtl i
        wp := s.operationPointer i k
        hist := s.hist ++ .acq :: okEvents s.cfg ((s.operationTxns i).take k) ++
          [.txn s.cfg.devAddr p.1 p.2 (.fail kind), .rel]
        responses := s.responses ++ [⟨.transport kind, []⟩]
        env := t.env
        panel := (panelAfter s.cfg s.env.panelDraws ((s.operationTxns i).take k) s.panel).receive s.cfg
          (s.env.panelDraws + k) p.1 p.2 (.fail kind) }

/-- R157, `LOCK_FAIR` (R4, D23), 93 U11: a display-controller operation responds, once, and leaves the lock free, if the lock is
fair to it and the PHY gets around to as many answers as it has transactions to send, however late: from its request, while it
waits for the lock (it is then granted it, `ACQ`), and while it waits for the PHY. -/
def Obligations.FairEnvironmentEndsTheOperation : Prop :=
  (∀ (s : State) (w : ReqWord) (rest : List ReqWord) (i : Instr), s.Inv → s.activity = none → s.requests = w :: rest →
    decodeRequest w = .ok i → isController i = true → LockFair s → PhyAnswers s (s.operationTxns i).length →
    ∃ n t events r, Host.Core.run Sys2Proof.core n s = .next t ∧ t.requests = rest ∧ t.hist = s.hist ++ events ∧
      t.responses = s.responses ++ [r] ∧ t.activity = none ∧ t.lock = false) ∧
  (∀ (s : State) (op : Instr), s.Inv → s.activity = some ⟨op, .lockWait⟩ → LockFair s →
    PhyAnswers s (s.operationTxns op).length →
    ∃ n t events r, Host.Core.run Sys2Proof.core n s = .next t ∧ t.requests = s.requests ∧
      t.hist = s.hist ++ .acq :: events ∧ t.responses = s.responses ++ [r] ∧ t.activity = none ∧ t.lock = false) ∧
  ∀ (s : State) (op : Instr) (items : List Item), s.Inv → s.activity = some ⟨op, .sending items⟩ →
    PhyAnswers s (itemPayloads s.cfg s.fb s.wp items).length →
    ∃ n t events r, Host.Core.run Sys2Proof.core n s = .next t ∧ t.requests = s.requests ∧ t.hist = s.hist ++ events ∧
      t.responses = s.responses ++ [r] ∧ t.activity = none ∧ t.lock = false

/-- R76, 93 U11: as long as the lock is not granted, for however many steps, the operation does not respond, the bus stays
untouched and no further request is taken: a hang, not an error. (The model's choices: one poll of the lock a step, log 9; that
the panel stays as it is all that time, while another user of the bus may hold the lock, log 24.) -/
def Obligations.UngrantedLockHangs : Prop :=
  ∀ (s : State) (op : Instr) (k : Nat), s.Inv → s.activity = some ⟨op, .lockWait⟩ →
    (∀ j, j < k → s.grantAt j = false) → ∃ t, Host.Core.run Sys2Proof.core k s = .next t ∧ t = { s with env := t.env }

/-- R40 (c), (d): the history only grows. -/
def Obligations.HistoryOnlyGrows : Prop :=
  ∀ (i : Instr) (s t : State), exec i s = .next t → ∃ events, t.hist = s.hist ++ events

/-! ## The receiver (20_memory.md section 6; general knowledge in the spec itself) -/

/-- R26, R32, R43, R46: the panel changes only by a transaction of the block, and its RAM only by a data transaction; in a legal
state only `UPDATE` sends one, and so between updates the panel's RAM stays as it is, for however many steps and whatever else
runs. (The model's choices: that nothing but the block's transactions changes the panel, log 24; that it has received nothing of a
transaction that the PHY has not answered, so that a step which ends in such a wait changes it by its answered ones only,
log 29.) -/
def Obligations.PanelChangesOnlyByTransactions : Prop :=
  (∀ (i : Instr) (s t : State), exec i s = .next t →
    (t.panel ≠ s.panel → ∃ before addr ctrl payload r after, t.hist = s.hist ++ before ++ .txn addr ctrl payload r :: after) ∧
    (t.panel.gd ≠ s.panel.gd →
      ∃ before addr payload r after, t.hist = s.hist ++ before ++ .txn addr s.cfg.ctrlData payload r :: after) ∧
    (s.Inv → t.panel.gd ≠ s.panel.gd → i = .update)) ∧
  ∀ (s t : State) (steps : Nat), s.Inv → (∀ stage, s.activity ≠ some ⟨.update, stage⟩) →
    (∀ w ∈ s.requests, decodeRequest w ≠ .ok .update) → Host.Core.run Sys2Proof.core steps s = .next t →
    t.panel.gd = s.panel.gd

/-- R46, R72: of a transaction that fails some first part of the payload reached the panel, possibly nothing, possibly all of
it; how much is a free value (log 18). -/
def Obligations.FailedTransactionDeliversAFirstPart : Prop :=
  ∀ (s : State) (payload : List Byte) (kind : FailKind), s.FramerReady payload → s.answerAt 0 = some (.fail kind) →
    (∃ t n draw, exec (.cmdFrame payload) s = .next t ∧ n ≤ payload.length ∧
      t.panel = s.panel.commandStream draw (payload.take n)) ∧
    ∃ t n draw, exec (.dataFrame payload) s = .next t ∧ n ≤ payload.length ∧
      t.panel = s.panel.dataStream draw (payload.take n)

/-- R46: one data byte in horizontal mode is stored at the pointers, which then advance inside the window. -/
def Obligations.DataByteIsStoredAtThePointers : Prop :=
  ∀ (s : State) (b : Byte), s.FramerReady [b] → s.answerAt 0 = some .ok → s.panel.regs.mode = 0x00#8 →
    s.panel.gd.wf 1024 = true → s.panel.regs.pp < 8 → s.panel.regs.pc < 128 →
    ∃ t, exec (.dataFrame [b]) s = .next t ∧
      t.panel.ram s.panel.regs.pp s.panel.regs.pc = some b ∧
      (∀ p q, q < 128 → (p, q) ≠ (s.panel.regs.pp, s.panel.regs.pc) → t.panel.ram p q = s.panel.ram p q) ∧
      t.panel.regs = { s.panel.regs with
        pc := (if s.panel.regs.pc = s.panel.regs.ce then s.panel.regs.cs else s.panel.regs.pc + 1)
        pp := (if s.panel.regs.pc = s.panel.regs.ce then
                 if s.panel.regs.pp = s.panel.regs.pe then s.panel.regs.ps else s.panel.regs.pp + 1
               else s.panel.regs.pp) }

/-- R47, R107, R157: with the default `WINDOW_SEQ` and the receiver in horizontal mode, after a successful `UPDATE` the
panel's RAM equals the framebuffer on every page and column of the panel, and the pointers are back at (0, 0): where the lock is
granted and every transaction is answered at once, and as well however long the lock and the PHY make the `UPDATE` wait between
its request and its `OK`, and however long the block is idle afterwards. (That nothing but the block's transactions changes the
panel in all that time is the model's choice, log 24; that a wait is a state that later steps leave is log 9.) -/
def Obligations.PanelShowsTheBuffer : Prop :=
  (∀ s : State, s.Idle → s.ctl = .ready → s.grantAt 0 = true →
    (∀ k, k < s.cfg.windowSeq.length + chunkCount s.cfg → s.answerAt k = some .ok) →
    s.cfg.windowSeq = [[0x21#8, 0x00#8, BitVec.ofNat 8 (s.cfg.width - 1)],
      [0x22#8, 0x00#8, BitVec.ofNat 8 (s.cfg.pages - 1)]] →
    s.cfg.width ≤ 128 → s.cfg.pages ≤ 8 → s.panel.regs.mode = 0x00#8 → s.panel.gd.wf 1024 = true →
    ∃ t, exec .update s = .next t ∧
      (∀ p q, p < s.cfg.pages → q < s.cfg.width → t.panel.ram p q = s.fb.read (p * s.cfg.width + q)) ∧
      t.panel.regs.pc = 0 ∧ t.panel.regs.pp = 0 ∧ t.panel.regs.cs = 0 ∧ t.panel.regs.ce = s.cfg.width - 1 ∧
      t.panel.regs.ps = 0 ∧ t.panel.regs.pe = s.cfg.pages - 1) ∧
  ∀ (s t : State) (w : ReqWord) (rest : List ReqWord) (steps : Nat), s.Inv → s.activity = none → s.ctl = .ready →
    s.requests = w :: rest → decodeRequest w = .ok .update →
    s.cfg.windowSeq = [[0x21#8, 0x00#8, BitVec.ofNat 8 (s.cfg.width - 1)],
      [0x22#8, 0x00#8, BitVec.ofNat 8 (s.cfg.pages - 1)]] →
    s.cfg.width ≤ 128 → s.cfg.pages ≤ 8 → s.panel.regs.mode = 0x00#8 →
    Host.Core.run Sys2Proof.core steps s = .next t → t.requests = rest → t.responses = s.responses ++ [⟨.ok, []⟩] →
    (∀ p q, p < s.cfg.pages → q < s.cfg.width → t.panel.ram p q = s.fb.read (p * s.cfg.width + q)) ∧ t.fb = s.fb ∧
    t.panel.regs.pc = 0 ∧ t.panel.regs.pp = 0 ∧ t.panel.regs.cs = 0 ∧ t.panel.regs.ce = s.cfg.width - 1 ∧
    t.panel.regs.ps = 0 ∧ t.panel.regs.pe = s.cfg.pages - 1
end

