-- ==== Sys2Proof/Laws/State.lean ====
section
/-! SUPPORT. One lemma per field and update, so that no later proof unfolds a record update. -/

namespace Sys2Proof.Machine.State

@[simp] theorem emit_cfg (e : Event) (s : State) : (s.emit e).cfg = s.cfg := rfl
@[simp] theorem emit_ctl (e : Event) (s : State) : (s.emit e).ctl = s.ctl := rfl
@[simp] theorem emit_disp (e : Event) (s : State) : (s.emit e).disp = s.disp := rfl
@[simp] theorem emit_fb (e : Event) (s : State) : (s.emit e).fb = s.fb := rfl
@[simp] theorem emit_wp (e : Event) (s : State) : (s.emit e).wp = s.wp := rfl
@[simp] theorem emit_lock (e : Event) (s : State) : (s.emit e).lock = s.lock := rfl
@[simp] theorem emit_hist (e : Event) (s : State) : (s.emit e).hist = s.hist ++ [e] := rfl
@[simp] theorem emit_activity (e : Event) (s : State) : (s.emit e).activity = s.activity := rfl
@[simp] theorem emit_requests (e : Event) (s : State) : (s.emit e).requests = s.requests := rfl
@[simp] theorem emit_framerCall (e : Event) (s : State) : (s.emit e).framerCall = s.framerCall := rfl
@[simp] theorem emit_responses (e : Event) (s : State) : (s.emit e).responses = s.responses := rfl
@[simp] theorem emit_framerReturn (e : Event) (s : State) : (s.emit e).framerReturn = s.framerReturn := rfl
@[simp] theorem emit_resets (e : Event) (s : State) : (s.emit e).resets = s.resets := rfl
@[simp] theorem emit_env (e : Event) (s : State) : (s.emit e).env = s.env := rfl
@[simp] theorem emit_panel (e : Event) (s : State) : (s.emit e).panel = s.panel := rfl

@[simp] theorem respond_cfg (st : Status) (d : List Byte) (s : State) : (s.respond st d).cfg = s.cfg := rfl
@[simp] theorem respond_ctl (st : Status) (d : List Byte) (s : State) : (s.respond st d).ctl = s.ctl := rfl
@[simp] theorem respond_disp (st : Status) (d : List Byte) (s : State) : (s.respond st d).disp = s.disp := rfl
@[simp] theorem respond_fb (st : Status) (d : List Byte) (s : State) : (s.respond st d).fb = s.fb := rfl
@[simp] theorem respond_wp (st : Status) (d : List Byte) (s : State) : (s.respond st d).wp = s.wp := rfl
@[simp] theorem respond_lock (st : Status) (d : List Byte) (s : State) : (s.respond st d).lock = s.lock := rfl
@[simp] theorem respond_hist (st : Status) (d : List Byte) (s : State) : (s.respond st d).hist = s.hist := rfl
@[simp] theorem respond_activity (st : Status) (d : List Byte) (s : State) : (s.respond st d).activity = none := rfl
@[simp] theorem respond_requests (st : Status) (d : List Byte) (s : State) : (s.respond st d).requests = s.requests := rfl
@[simp] theorem respond_framerCall (st : Status) (d : List Byte) (s : State) : (s.respond st d).framerCall = s.framerCall := rfl
@[simp] theorem respond_responses (st : Status) (d : List Byte) (s : State) : (s.respond st d).responses = s.responses ++ [⟨st, d⟩] := rfl
@[simp] theorem respond_framerReturn (st : Status) (d : List Byte) (s : State) : (s.respond st d).framerReturn = s.framerReturn := rfl
@[simp] theorem respond_resets (st : Status) (d : List Byte) (s : State) : (s.respond st d).resets = s.resets := rfl
@[simp] theorem respond_env (st : Status) (d : List Byte) (s : State) : (s.respond st d).env = s.env := rfl
@[simp] theorem respond_panel (st : Status) (d : List Byte) (s : State) : (s.respond st d).panel = s.panel := rfl

@[simp] theorem raise_cfg (st : Status) (s : State) : (s.raise st).cfg = s.cfg := rfl
@[simp] theorem raise_ctl (st : Status) (s : State) : (s.raise st).ctl = s.ctl := rfl
@[simp] theorem raise_disp (st : Status) (s : State) : (s.raise st).disp = s.disp := rfl
@[simp] theorem raise_fb (st : Status) (s : State) : (s.raise st).fb = s.fb := rfl
@[simp] theorem raise_wp (st : Status) (s : State) : (s.raise st).wp = s.wp := rfl
@[simp] theorem raise_lock (st : Status) (s : State) : (s.raise st).lock = s.lock := rfl
@[simp] theorem raise_hist (st : Status) (s : State) : (s.raise st).hist = s.hist := rfl
@[simp] theorem raise_activity (st : Status) (s : State) : (s.raise st).activity = none := rfl
@[simp] theorem raise_requests (st : Status) (s : State) : (s.raise st).requests = s.requests := rfl
@[simp] theorem raise_framerCall (st : Status) (s : State) : (s.raise st).framerCall = s.framerCall := rfl
@[simp] theorem raise_responses (st : Status) (s : State) : (s.raise st).responses = s.responses ++ [⟨st, []⟩] := rfl
@[simp] theorem raise_framerReturn (st : Status) (s : State) : (s.raise st).framerReturn = s.framerReturn := rfl
@[simp] theorem raise_resets (st : Status) (s : State) : (s.raise st).resets = s.resets := rfl
@[simp] theorem raise_env (st : Status) (s : State) : (s.raise st).env = s.env := rfl
@[simp] theorem raise_panel (st : Status) (s : State) : (s.raise st).panel = s.panel := rfl

@[simp] theorem clearBuffer_cfg (s : State) : (s.clearBuffer).cfg = s.cfg := rfl
@[simp] theorem clearBuffer_ctl (s : State) : (s.clearBuffer).ctl = s.ctl := rfl
@[simp] theorem clearBuffer_disp (s : State) : (s.clearBuffer).disp = s.disp := rfl
@[simp] theorem clearBuffer_fb (s : State) : (s.clearBuffer).fb = Memory.fill s.cfg.size 0x00#8 := rfl
@[simp] theorem clearBuffer_wp (s : State) : (s.clearBuffer).wp = s.wp := rfl
@[simp] theorem clearBuffer_lock (s : State) : (s.clearBuffer).lock = s.lock := rfl
@[simp] theorem clearBuffer_hist (s : State) : (s.clearBuffer).hist = s.hist := rfl
@[simp] theorem clearBuffer_activity (s : State) : (s.clearBuffer).activity = s.activity := rfl
@[simp] theorem clearBuffer_requests (s : State) : (s.clearBuffer).requests = s.requests := rfl
@[simp] theorem clearBuffer_framerCall (s : State) : (s.clearBuffer).framerCall = s.framerCall := rfl
@[simp] theorem clearBuffer_responses (s : State) : (s.clearBuffer).responses = s.responses := rfl
@[simp] theorem clearBuffer_framerReturn (s : State) : (s.clearBuffer).framerReturn = s.framerReturn := rfl
@[simp] theorem clearBuffer_resets (s : State) : (s.clearBuffer).resets = s.resets := rfl
@[simp] theorem clearBuffer_env (s : State) : (s.clearBuffer).env = s.env := rfl
@[simp] theorem clearBuffer_panel (s : State) : (s.clearBuffer).panel = s.panel := rfl

@[simp] theorem enterFailed_cfg (s : State) : (s.enterFailed).cfg = s.cfg := rfl
@[simp] theorem enterFailed_ctl (s : State) : (s.enterFailed).ctl = .failed := rfl
@[simp] theorem enterFailed_disp (s : State) : (s.enterFailed).disp = s.disp := rfl
@[simp] theorem enterFailed_fb (s : State) : (s.enterFailed).fb = s.fb := rfl
@[simp] theorem enterFailed_wp (s : State) : (s.enterFailed).wp = s.wp := rfl
@[simp] theorem enterFailed_lock (s : State) : (s.enterFailed).lock = s.lock := rfl
@[simp] theorem enterFailed_hist (s : State) : (s.enterFailed).hist = s.hist := rfl
@[simp] theorem enterFailed_activity (s : State) : (s.enterFailed).activity = s.activity := rfl
@[simp] theorem enterFailed_requests (s : State) : (s.enterFailed).requests = s.requests := rfl
@[simp] theorem enterFailed_framerCall (s : State) : (s.enterFailed).framerCall = s.framerCall := rfl
@[simp] theorem enterFailed_responses (s : State) : (s.enterFailed).responses = s.responses := rfl
@[simp] theorem enterFailed_framerReturn (s : State) : (s.enterFailed).framerReturn = s.framerReturn := rfl
@[simp] theorem enterFailed_resets (s : State) : (s.enterFailed).resets = s.resets := rfl
@[simp] theorem enterFailed_env (s : State) : (s.enterFailed).env = s.env := rfl
@[simp] theorem enterFailed_panel (s : State) : (s.enterFailed).panel = s.panel := rfl

@[simp] theorem leaveFailed_cfg (s : State) : (s.leaveFailed).cfg = s.cfg := rfl
@[simp] theorem leaveFailed_ctl (s : State) : (s.leaveFailed).ctl = .ready := rfl
@[simp] theorem leaveFailed_disp (s : State) : (s.leaveFailed).disp = ⟨true, s.cfg.initContrast, s.cfg.initInverted⟩ := rfl
@[simp] theorem leaveFailed_fb (s : State) : (s.leaveFailed).fb = Memory.fill s.cfg.size 0x00#8 := rfl
@[simp] theorem leaveFailed_wp (s : State) : (s.leaveFailed).wp = s.wp := rfl
@[simp] theorem leaveFailed_lock (s : State) : (s.leaveFailed).lock = s.lock := rfl
@[simp] theorem leaveFailed_hist (s : State) : (s.leaveFailed).hist = s.hist := rfl
@[simp] theorem leaveFailed_activity (s : State) : (s.leaveFailed).activity = s.activity := rfl
@[simp] theorem leaveFailed_requests (s : State) : (s.leaveFailed).requests = s.requests := rfl
@[simp] theorem leaveFailed_framerCall (s : State) : (s.leaveFailed).framerCall = s.framerCall := rfl
@[simp] theorem leaveFailed_responses (s : State) : (s.leaveFailed).responses = s.responses := rfl
@[simp] theorem leaveFailed_framerReturn (s : State) : (s.leaveFailed).framerReturn = s.framerReturn := rfl
@[simp] theorem leaveFailed_resets (s : State) : (s.leaveFailed).resets = s.resets := rfl
@[simp] theorem leaveFailed_env (s : State) : (s.leaveFailed).env = s.env := rfl
@[simp] theorem leaveFailed_panel (s : State) : (s.leaveFailed).panel = s.panel := rfl

@[simp] theorem acquired_cfg (s : State) : (s.acquired).cfg = s.cfg := rfl
@[simp] theorem acquired_ctl (s : State) : (s.acquired).ctl = s.ctl := rfl
@[simp] theorem acquired_disp (s : State) : (s.acquired).disp = s.disp := rfl
@[simp] theorem acquired_fb (s : State) : (s.acquired).fb = s.fb := rfl
@[simp] theorem acquired_wp (s : State) : (s.acquired).wp = s.wp := rfl
@[simp] theorem acquired_lock (s : State) : (s.acquired).lock = true := rfl
@[simp] theorem acquired_hist (s : State) : (s.acquired).hist = s.hist ++ [.acq] := rfl
@[simp] theorem acquired_activity (s : State) : (s.acquired).activity = s.activity := rfl
@[simp] theorem acquired_requests (s : State) : (s.acquired).requests = s.requests := rfl
@[simp] theorem acquired_framerCall (s : State) : (s.acquired).framerCall = s.framerCall := rfl
@[simp] theorem acquired_responses (s : State) : (s.acquired).responses = s.responses := rfl
@[simp] theorem acquired_framerReturn (s : State) : (s.acquired).framerReturn = s.framerReturn := rfl
@[simp] theorem acquired_resets (s : State) : (s.acquired).resets = s.resets := rfl
@[simp] theorem acquired_env (s : State) : (s.acquired).env = s.env := rfl
@[simp] theorem acquired_panel (s : State) : (s.acquired).panel = s.panel := rfl

@[simp] theorem release_cfg (s : State) : (s.release).cfg = s.cfg := rfl
@[simp] theorem release_ctl (s : State) : (s.release).ctl = s.ctl := rfl
@[simp] theorem release_disp (s : State) : (s.release).disp = s.disp := rfl
@[simp] theorem release_fb (s : State) : (s.release).fb = s.fb := rfl
@[simp] theorem release_wp (s : State) : (s.release).wp = s.wp := rfl
@[simp] theorem release_lock (s : State) : (s.release).lock = false := rfl
@[simp] theorem release_hist (s : State) : (s.release).hist = s.hist ++ [.rel] := rfl
@[simp] theorem release_activity (s : State) : (s.release).activity = s.activity := rfl
@[simp] theorem release_requests (s : State) : (s.release).requests = s.requests := rfl
@[simp] theorem release_framerCall (s : State) : (s.release).framerCall = s.framerCall := rfl
@[simp] theorem release_responses (s : State) : (s.release).responses = s.responses := rfl
@[simp] theorem release_framerReturn (s : State) : (s.release).framerReturn = s.framerReturn := rfl
@[simp] theorem release_resets (s : State) : (s.release).resets = s.resets := rfl
@[simp] theorem release_env (s : State) : (s.release).env = s.env := rfl
@[simp] theorem release_panel (s : State) : (s.release).panel = s.panel := rfl

@[simp] theorem deliver_cfg (c : Byte) (p : List Byte) (r : TxnResult) (s : State) : (s.deliver c p r).cfg = s.cfg := rfl
@[simp] theorem deliver_ctl (c : Byte) (p : List Byte) (r : TxnResult) (s : State) : (s.deliver c p r).ctl = s.ctl := rfl
@[simp] theorem deliver_disp (c : Byte) (p : List Byte) (r : TxnResult) (s : State) : (s.deliver c p r).disp = s.disp := rfl
@[simp] theorem deliver_fb (c : Byte) (p : List Byte) (r : TxnResult) (s : State) : (s.deliver c p r).fb = s.fb := rfl
@[simp] theorem deliver_wp (c : Byte) (p : List Byte) (r : TxnResult) (s : State) : (s.deliver c p r).wp = s.wp := rfl
@[simp] theorem deliver_lock (c : Byte) (p : List Byte) (r : TxnResult) (s : State) : (s.deliver c p r).lock = s.lock := rfl
@[simp] theorem deliver_hist (c : Byte) (p : List Byte) (r : TxnResult) (s : State) : (s.deliver c p r).hist = s.hist := rfl
@[simp] theorem deliver_activity (c : Byte) (p : List Byte) (r : TxnResult) (s : State) : (s.deliver c p r).activity = s.activity := rfl
@[simp] theorem deliver_requests (c : Byte) (p : List Byte) (r : TxnResult) (s : State) : (s.deliver c p r).requests = s.requests := rfl
@[simp] theorem deliver_framerCall (c : Byte) (p : List Byte) (r : TxnResult) (s : State) : (s.deliver c p r).framerCall = s.framerCall := rfl
@[simp] theorem deliver_responses (c : Byte) (p : List Byte) (r : TxnResult) (s : State) : (s.deliver c p r).responses = s.responses := rfl
@[simp] theorem deliver_framerReturn (c : Byte) (p : List Byte) (r : TxnResult) (s : State) : (s.deliver c p r).framerReturn = s.framerReturn := rfl
@[simp] theorem deliver_resets (c : Byte) (p : List Byte) (r : TxnResult) (s : State) : (s.deliver c p r).resets = s.resets := rfl
@[simp] theorem deliver_env (c : Byte) (p : List Byte) (r : TxnResult) (s : State) : (s.deliver c p r).env = { s.env with panelDraws := s.env.panelDraws + 1 } := rfl
@[simp] theorem deliver_panel (c : Byte) (p : List Byte) (r : TxnResult) (s : State) : (s.deliver c p r).panel = s.panel.receive s.cfg s.env.panelDraws c p r := rfl

@[simp] theorem afterLockPoll_cfg (s : State) : s.afterLockPoll.cfg = s.cfg := by unfold afterLockPoll; split <;> rfl
@[simp] theorem afterLockPoll_ctl (s : State) : s.afterLockPoll.ctl = s.ctl := by unfold afterLockPoll; split <;> rfl
@[simp] theorem afterLockPoll_disp (s : State) : s.afterLockPoll.disp = s.disp := by unfold afterLockPoll; split <;> rfl
@[simp] theorem afterLockPoll_fb (s : State) : s.afterLockPoll.fb = s.fb := by unfold afterLockPoll; split <;> rfl
@[simp] theorem afterLockPoll_wp (s : State) : s.afterLockPoll.wp = s.wp := by unfold afterLockPoll; split <;> rfl
@[simp] theorem afterLockPoll_lock (s : State) : s.afterLockPoll.lock = s.lock := by unfold afterLockPoll; split <;> rfl
@[simp] theorem afterLockPoll_hist (s : State) : s.afterLockPoll.hist = s.hist := by unfold afterLockPoll; split <;> rfl
@[simp] theorem afterLockPoll_activity (s : State) : s.afterLockPoll.activity = s.activity := by unfold afterLockPoll; split <;> rfl
@[simp] theorem afterLockPoll_requests (s : State) : s.afterLockPoll.requests = s.requests := by unfold afterLockPoll; split <;> rfl
@[simp] theorem afterLockPoll_framerCall (s : State) : s.afterLockPoll.framerCall = s.framerCall := by unfold afterLockPoll; split <;> rfl
@[simp] theorem afterLockPoll_responses (s : State) : s.afterLockPoll.responses = s.responses := by unfold afterLockPoll; split <;> rfl
@[simp] theorem afterLockPoll_framerReturn (s : State) : s.afterLockPoll.framerReturn = s.framerReturn := by unfold afterLockPoll; split <;> rfl
@[simp] theorem afterLockPoll_resets (s : State) : s.afterLockPoll.resets = s.resets := by unfold afterLockPoll; split <;> rfl
@[simp] theorem afterLockPoll_panel (s : State) : s.afterLockPoll.panel = s.panel := by unfold afterLockPoll; split <;> rfl

@[simp] theorem afterPhyPoll_cfg (s : State) : s.afterPhyPoll.cfg = s.cfg := by unfold afterPhyPoll; split <;> rfl
@[simp] theorem afterPhyPoll_ctl (s : State) : s.afterPhyPoll.ctl = s.ctl := by unfold afterPhyPoll; split <;> rfl
@[simp] theorem afterPhyPoll_disp (s : State) : s.afterPhyPoll.disp = s.disp := by unfold afterPhyPoll; split <;> rfl
@[simp] theorem afterPhyPoll_fb (s : State) : s.afterPhyPoll.fb = s.fb := by unfold afterPhyPoll; split <;> rfl
@[simp] theorem afterPhyPoll_wp (s : State) : s.afterPhyPoll.wp = s.wp := by unfold afterPhyPoll; split <;> rfl
@[simp] theorem afterPhyPoll_lock (s : State) : s.afterPhyPoll.lock = s.lock := by unfold afterPhyPoll; split <;> rfl
@[simp] theorem afterPhyPoll_hist (s : State) : s.afterPhyPoll.hist = s.hist := by unfold afterPhyPoll; split <;> rfl
@[simp] theorem afterPhyPoll_activity (s : State) : s.afterPhyPoll.activity = s.activity := by unfold afterPhyPoll; split <;> rfl
@[simp] theorem afterPhyPoll_requests (s : State) : s.afterPhyPoll.requests = s.requests := by unfold afterPhyPoll; split <;> rfl
@[simp] theorem afterPhyPoll_framerCall (s : State) : s.afterPhyPoll.framerCall = s.framerCall := by unfold afterPhyPoll; split <;> rfl
@[simp] theorem afterPhyPoll_responses (s : State) : s.afterPhyPoll.responses = s.responses := by unfold afterPhyPoll; split <;> rfl
@[simp] theorem afterPhyPoll_framerReturn (s : State) : s.afterPhyPoll.framerReturn = s.framerReturn := by unfold afterPhyPoll; split <;> rfl
@[simp] theorem afterPhyPoll_resets (s : State) : s.afterPhyPoll.resets = s.resets := by unfold afterPhyPoll; split <;> rfl
@[simp] theorem afterPhyPoll_panel (s : State) : s.afterPhyPoll.panel = s.panel := by unfold afterPhyPoll; split <;> rfl

@[simp] theorem afterReset_cfg (s : State) : s.afterReset.cfg = s.cfg := rfl
@[simp] theorem afterReset_ctl (s : State) : s.afterReset.ctl = .uninitialized := rfl
@[simp] theorem afterReset_lock (s : State) : s.afterReset.lock = false := rfl
@[simp] theorem afterReset_hist (s : State) : s.afterReset.hist = [] := rfl
@[simp] theorem afterReset_activity (s : State) : s.afterReset.activity = none := rfl
@[simp] theorem afterReset_requests (s : State) : s.afterReset.requests = s.requests := rfl
@[simp] theorem afterReset_framerCall (s : State) : s.afterReset.framerCall = none := rfl
@[simp] theorem afterReset_responses (s : State) : s.afterReset.responses = s.responses := rfl
@[simp] theorem afterReset_framerReturn (s : State) : s.afterReset.framerReturn = none := rfl
@[simp] theorem afterReset_env (s : State) : s.afterReset.env = s.env := rfl
@[simp] theorem afterReset_panel (s : State) : s.afterReset.panel = s.panel := rfl
@[simp] theorem afterReset_resets (s : State) : s.afterReset.resets = s.resets + 1 := rfl
@[simp] theorem afterReset_fb (s : State) : s.afterReset.fb = Memory.ofFn s.cfg.size (Config.resetFb (s.resets + 1)) := rfl
@[simp] theorem afterReset_wp (s : State) : s.afterReset.wp = Config.resetWp (s.resets + 1) % (s.cfg.size + 1) := rfl

end Sys2Proof.Machine.State
end

