-- ==== Sys2Proof/Laws/Memory.lean ====
section
/-! SUPPORT. The laws of the framebuffer and of the panel's RAM: reads, writes and the canonical form (20_memory.md R33,
R34). -/

namespace Sys2Proof.Machine

namespace Memory

theorem wf_iff {n : Nat} {m : Memory} : m.wf n = true ↔ m.map (·.1) = List.range' 0 n := by
  simp [wf]

theorem wf_length {n : Nat} {m : Memory} (h : m.wf n = true) : m.length = n := by
  simpa using congrArg List.length (wf_iff.mp h)

/-- In canonical form the cell at place `a` is the one with address `a`. -/
theorem wf_address {n : Nat} {m : Memory} (h : m.wf n = true) {a : Nat} (ha : a < m.length) : (m[a]).1 = a := by
  have := wf_iff.mp h
  have h1 : (m.map (·.1))[a]? = (List.range' 0 n)[a]? := by rw [this]
  have hn := wf_length h
  rw [List.getElem?_map, List.getElem?_eq_getElem ha, List.getElem?_range' (by omega)] at h1
  simpa using h1

theorem read_eq_place {n : Nat} {m : Memory} (h : m.wf n = true) (a : Nat) : m.read a = (m.map (·.2))[a]? := by
  have hw := wf_iff.mp h
  clear h
  suffices H : ∀ (m : Memory) (k n : Nat), m.map (·.1) = List.range' k n →
      ∀ a, k ≤ a → m.read a = (m.map (·.2))[a - k]? by simpa using H m 0 n hw a (Nat.zero_le a)
  intro m
  induction m with
  | nil => intro k n _ a _; simp [read]
  | cons c m ih =>
    intro k n hk a ha
    obtain _ | n := n
    · simp at hk
    rw [List.map_cons, List.range'_succ, List.cons.injEq] at hk
    obtain ⟨hc, hm⟩ := hk
    by_cases hca : c.1 = a
    · have : a - k = 0 := by omega
      simp [read, hca, this]
    · have h1 : read (c :: m) a = read m a := by simp [read, hca]
      have h2 : a - k = a - (k + 1) + 1 := by omega
      rw [h1, ih (k + 1) n hm a (by omega), h2]
      simp

theorem write_addresses (m : Memory) (a : Nat) (b : Byte) : (m.write a b).map (·.1) = m.map (·.1) := by
  simp only [write, List.map_map]
  apply List.map_congr_left
  intro c _
  by_cases h : c.1 = a <;> simp [h]

/-- A write keeps the canonical form. -/
theorem write_wf {n : Nat} {m : Memory} (h : m.wf n = true) (a : Nat) (b : Byte) : (m.write a b).wf n = true := by
  rw [wf_iff, write_addresses]; exact wf_iff.mp h

theorem writeAll_wf {n : Nat} (v : List Byte) : ∀ {m : Memory} (_ : m.wf n = true) (a : Nat),
    (m.writeAll a v).wf n = true := by
  induction v with
  | nil => intro m h a; exact h
  | cons b v ih => intro m h a; exact ih (write_wf h a b) (a + 1)

@[simp] theorem ofFn_wf (n : Nat) (f : Nat → Byte) : (ofFn n f).wf n = true := by
  rw [wf_iff]; simp [ofFn, Function.comp_def]

@[simp] theorem fill_wf (n : Nat) (b : Byte) : (fill n b).wf n = true := ofFn_wf n _

theorem read_ofFn {n : Nat} (f : Nat → Byte) {a : Nat} (h : a < n) : (ofFn n f).read a = some (f a) := by
  rw [read_eq_place (ofFn_wf n f)]
  simp [ofFn, h]

theorem read_fill {n : Nat} (b : Byte) {a : Nat} (h : a < n) : (fill n b).read a = some b := read_ofFn _ h

theorem read_some_iff {n : Nat} {m : Memory} (h : m.wf n = true) (a : Nat) : (m.read a).isSome ↔ a < n := by
  rw [read_eq_place h]
  simp [← wf_length h]

/-- A read after a write to the same place gives the value written. -/
theorem read_write_same {n : Nat} {m : Memory} (h : m.wf n = true) {a : Nat} (ha : a < n) (b : Byte) :
    (m.write a b).read a = some b := by
  rw [read_eq_place (write_wf h a b)]
  have hl : a < m.length := by rw [wf_length h]; exact ha
  have h1 := wf_address h hl
  simp [write, List.getElem?_eq_getElem hl, h1]

theorem read_cons (c : Host.Cell) (m : Memory) (a : Nat) :
    read (c :: m) a = if c.1 = a then some c.2 else read m a := by
  by_cases h : c.1 = a <;> simp [read, h]

theorem write_cons (c : Host.Cell) (m : Memory) (a : Nat) (b : Byte) :
    write (c :: m) a b = (if c.1 = a then (a, b) else c) :: write m a b := rfl

/-- A write leaves every other place alone. -/
theorem read_write_other (m : Memory) {a a' : Nat} (h : a' ≠ a) (b : Byte) : (m.write a b).read a' = m.read a' := by
  induction m with
  | nil => rfl
  | cons c m ih =>
    rw [write_cons, read_cons, read_cons, ih]
    by_cases hc : c.1 = a
    · rw [if_pos hc, if_neg (fun e => h e.symm), if_neg (fun e => h (e.symm.trans hc))]
    · rw [if_neg hc]

theorem slice_addresses {n : Nat} {m : Memory} (h : m.wf n = true) {a k : Nat} (hk : a + k ≤ n) :
    (m.slice a k).map (·.1) = List.range' a k := by
  simp only [slice, List.map_take, List.map_drop, wf_iff.mp h]
  apply List.ext_getElem
  · simp; omega
  · intro i h1 h2
    simp

theorem bytes_eq (m : Memory) (a k : Nat) : m.bytes a k = ((m.map (·.2)).drop a).take k := by
  simp [bytes, slice, List.map_take, List.map_drop]

theorem bytes_length {n : Nat} {m : Memory} (h : m.wf n = true) {a k : Nat} (hk : a + k ≤ n) :
    (m.bytes a k).length = k := by
  have := wf_length h
  simp [bytes_eq]; omega

end Memory

/-- In a state whose framebuffer is whole, `MemRead` inside it answers its bytes (R33). -/
theorem State.memRead_eq {s : State} (h : s.fb.wf s.cfg.size = true) {a k : Nat} (h1 : 1 ≤ k)
    (hk : a + k ≤ s.cfg.size) : s.memRead a k = some (s.fb.bytes a k) := by
  simp [memRead, h1, hk, Memory.slice_addresses h hk]

theorem State.memRead_one {s : State} (h : s.fb.wf s.cfg.size = true) {a : Nat} (ha : a < s.cfg.size) :
    ∃ b, s.memRead a 1 = some [b] ∧ s.fb.read a = some b := by
  have hl : a < s.fb.length := by rw [Memory.wf_length h]; exact ha
  refine ⟨(s.fb[a]).2, ?_, ?_⟩
  · rw [memRead_eq h (le_refl 1) (by omega), Memory.bytes_eq, List.take_one_drop_eq_of_lt_length (by simpa using hl)]
    simp
  · rw [Memory.read_eq_place h]; simp [hl]

end Sys2Proof.Machine
end

