-- ==== Sys2Proof/Laws/Bus.lean ====
section
/-! SUPPORT. What the polls, one transaction and a run of transactions can do (40_framer.md R72 to R79). -/

namespace Sys2Proof.Machine

namespace State

@[simp] theorem grantAt_zero (s : State) : s.grantAt 0 = s.lockGranted := by
  unfold grantAt lockGranted
  cases s.env.lockScript <;> simp

theorem grantAt_afterLockPoll (s : State) (k : Nat) : s.afterLockPoll.grantAt k = s.grantAt (k + 1) := by
  unfold grantAt afterLockPoll
  cases h : s.env.lockScript with
  | nil => simp [h, Nat.add_comm k 1, Nat.add_assoc]
  | cons g rest => simp

@[simp] theorem answerAt_zero (s : State) : s.answerAt 0 = s.phyAnswer := by
  unfold answerAt phyAnswer
  cases s.env.phyScript <;> simp

theorem answerAt_afterPhyPoll (s : State) (k : Nat) : s.afterPhyPoll.answerAt k = s.answerAt (k + 1) := by
  unfold answerAt afterPhyPoll
  cases h : s.env.phyScript with
  | nil => simp [h, Nat.add_comm k 1, Nat.add_assoc]
  | cons g rest => simp

/-- The answers still to come depend on the environment's script and poll count only. -/
theorem answerAt_congr {s t : State} (h : t.env.phyScript = s.env.phyScript) (h' : t.env.phyPolls = s.env.phyPolls)
    (k : Nat) : t.answerAt k = s.answerAt k := by
  simp [answerAt, h, h']

@[simp] theorem answerAt_afterLockPoll (s : State) (k : Nat) : s.afterLockPoll.answerAt k = s.answerAt k := by
  apply answerAt_congr <;> (unfold afterLockPoll; split <;> rfl)

@[simp] theorem answerAt_acquired (s : State) (k : Nat) : s.acquired.answerAt k = s.answerAt k := rfl

/-- `s` after a transaction that the PHY answered with `r` (R72). -/
def answered (ctrl : Byte) (payload : List Byte) (r : TxnResult) (s : State) : State :=
  (s.afterPhyPoll.deliver ctrl payload r).emit (.txn s.cfg.devAddr ctrl payload r)

theorem transact_none {s : State} (h : s.phyAnswer = none) (ctrl : Byte) (payload : List Byte) :
    s.transact ctrl payload = (s.afterPhyPoll, none) := by
  simp [transact, h]

theorem transact_some {s : State} {r : TxnResult} (h : s.phyAnswer = some r) (ctrl : Byte) (payload : List Byte) :
    s.transact ctrl payload = (s.answered ctrl payload r, some r) := by
  simp [transact, h, answered]

section answered
variable (ctrl : Byte) (payload : List Byte) (r : TxnResult) (s : State)
@[simp] theorem answered_cfg : (s.answered ctrl payload r).cfg = s.cfg := by simp [answered]
@[simp] theorem answered_ctl : (s.answered ctrl payload r).ctl = s.ctl := by simp [answered]
@[simp] theorem answered_disp : (s.answered ctrl payload r).disp = s.disp := by simp [answered]
@[simp] theorem answered_fb : (s.answered ctrl payload r).fb = s.fb := by simp [answered]
@[simp] theorem answered_wp : (s.answered ctrl payload r).wp = s.wp := by simp [answered]
@[simp] theorem answered_lock : (s.answered ctrl payload r).lock = s.lock := by simp [answered]
@[simp] theorem answered_activity : (s.answered ctrl payload r).activity = s.activity := by simp [answered]
@[simp] theorem answered_requests : (s.answered ctrl payload r).requests = s.requests := by simp [answered]
@[simp] theorem answered_framerCall : (s.answered ctrl payload r).framerCall = s.framerCall := by simp [answered]
@[simp] theorem answered_responses : (s.answered ctrl payload r).responses = s.responses := by simp [answered]
@[simp] theorem answered_framerReturn : (s.answered ctrl payload r).framerReturn = s.framerReturn := by
  simp [answered]
@[simp] theorem answered_resets : (s.answered ctrl payload r).resets = s.resets := by simp [answered]
@[simp] theorem answered_hist :
    (s.answered ctrl payload r).hist = s.hist ++ [.txn s.cfg.devAddr ctrl payload r] := by simp [answered]
@[simp] theorem answered_panel :
    (s.answered ctrl payload r).panel = s.panel.receive s.cfg s.env.panelDraws ctrl payload r := by
  simp only [answered, emit_panel, deliver_panel, afterPhyPoll_panel, afterPhyPoll_cfg]
  unfold afterPhyPoll; split <;> rfl
theorem answered_answerAt (k : Nat) : (s.answered ctrl payload r).answerAt k = s.answerAt (k + 1) := by
  rw [← answerAt_afterPhyPoll]; rfl
end answered

/-- What a run of items never touches, whatever the environment answers. -/
structure SameButBus (s t : State) : Prop where
  cfg          : t.cfg = s.cfg
  ctl          : t.ctl = s.ctl
  disp         : t.disp = s.disp
  fb           : t.fb = s.fb
  lock         : t.lock = s.lock
  activity     : t.activity = s.activity
  requests     : t.requests = s.requests
  framerCall   : t.framerCall = s.framerCall
  responses    : t.responses = s.responses
  framerReturn : t.framerReturn = s.framerReturn
  resets       : t.resets = s.resets

theorem SameButBus.refl (s : State) : SameButBus s s := ⟨rfl, rfl, rfl, rfl, rfl, rfl, rfl, rfl, rfl, rfl, rfl⟩

theorem SameButBus.trans {s t u : State} (h : SameButBus s t) (k : SameButBus t u) : SameButBus s u :=
  ⟨k.cfg.trans h.cfg, k.ctl.trans h.ctl, k.disp.trans h.disp, k.fb.trans h.fb, k.lock.trans h.lock,
    k.activity.trans h.activity, k.requests.trans h.requests, k.framerCall.trans h.framerCall,
    k.responses.trans h.responses, k.framerReturn.trans h.framerReturn,
    k.resets.trans h.resets⟩

theorem SameButBus.answered (ctrl : Byte) (payload : List Byte) (r : TxnResult) (s : State) :
    SameButBus s (s.answered ctrl payload r) := by constructor <;> simp

theorem SameButBus.afterPhyPoll (s : State) : SameButBus s s.afterPhyPoll := by constructor <;> simp

theorem SameButBus.wp (s : State) (n : Nat) : SameButBus s { s with wp := n } := by constructor <;> rfl

/-- The cases of a run of items, one item at a time: an induction principle for properties of `sendAll` that holds for
every environment. -/
theorem sendAll_induct {P : List Item → State → State × Sent → Prop}
    (nil : ∀ s, P [] s (s, .done))
    (rewind : ∀ rest s r, P rest { s with wp := 0 } r → P (.rewind :: rest) s r)
    (sendOk : ∀ ctrl payload rest s r, s.phyAnswer = some .ok → P rest (s.answered ctrl payload .ok) r →
      P (.send ctrl payload :: rest) s r)
    (sendFail : ∀ ctrl payload rest s kind, s.phyAnswer = some (.fail kind) →
      P (.send ctrl payload :: rest) s (s.answered ctrl payload (.fail kind), .failed kind))
    (sendWait : ∀ ctrl payload rest s, s.phyAnswer = none →
      P (.send ctrl payload :: rest) s (s.afterPhyPoll, .waiting (.send ctrl payload :: rest)))
    (chunkOk : ∀ n rest s r, s.phyAnswer = some .ok →
      P rest { s.answered s.cfg.ctrlData (s.fb.bytes s.wp n) .ok with wp := s.wp + n } r → P (.chunk n :: rest) s r)
    (chunkFail : ∀ n rest s kind, s.phyAnswer = some (.fail kind) →
      P (.chunk n :: rest) s (s.answered s.cfg.ctrlData (s.fb.bytes s.wp n) (.fail kind), .failed kind))
    (chunkWait : ∀ n rest s, s.phyAnswer = none →
      P (.chunk n :: rest) s (s.afterPhyPoll, .waiting (.chunk n :: rest))) :
    ∀ items s, P items s (sendAll items s) := by
  intro items
  induction items with
  | nil => intro s; exact nil s
  | cons item rest ih =>
    intro s
    cases item with
    | rewind => exact rewind rest s _ (ih _)
    | send ctrl payload =>
      simp only [sendAll]
      rcases h : s.phyAnswer with _ | _ | kind
      · rw [transact_none h]; exact sendWait ctrl payload rest s h
      · rw [transact_some h]; exact sendOk ctrl payload rest s _ h (ih _)
      · rw [transact_some h]; exact sendFail ctrl payload rest s kind h
    | chunk n =>
      simp only [sendAll, writeData]
      rcases h : s.phyAnswer with _ | _ | kind
      · rw [transact_none h]; exact chunkWait n rest s h
      · rw [transact_some h]
        have := chunkOk n rest s _ h (ih _)
        simpa using this
      · rw [transact_some h]; exact chunkFail n rest s kind h

/-- A run of items changes `wp`, `hist`, the environment and the panel, and nothing else. -/
theorem sendAll_same (items : List Item) (s : State) : SameButBus s (sendAll items s).1 := by
  refine sendAll_induct (P := fun _ s r => SameButBus s r.1) ?_ ?_ ?_ ?_ ?_ ?_ ?_ ?_ items s
  · exact SameButBus.refl
  · intro rest s r h; exact (SameButBus.wp s 0).trans h
  · intro ctrl payload rest s r _ h; exact (SameButBus.answered ctrl payload .ok s).trans h
  · intro ctrl payload rest s kind _; exact SameButBus.answered ctrl payload _ s
  · intro ctrl payload rest s _; exact SameButBus.afterPhyPoll s
  · intro n rest s r _ h
    exact ((SameButBus.answered _ _ .ok s).trans (SameButBus.wp _ (s.wp + n))).trans h
  · intro n rest s kind _; exact SameButBus.answered _ _ _ s
  · intro n rest s _; exact SameButBus.afterPhyPoll s

/-- Runs of items compose. -/
theorem sendAll_append (a b : List Item) (s : State) : sendAll (a ++ b) s =
    match sendAll a s with
    | (t, .done) => sendAll b t
    | (t, .failed kind) => (t, .failed kind)
    | (t, .waiting rest) => (t, .waiting (rest ++ b)) := by
  refine sendAll_induct (P := fun a s r => sendAll (a ++ b) s = match r with
    | (t, .done) => sendAll b t
    | (t, .failed kind) => (t, .failed kind)
    | (t, .waiting rest) => (t, .waiting (rest ++ b))) ?_ ?_ ?_ ?_ ?_ ?_ ?_ ?_ a s
  · intro s; rfl
  · intro rest s r h; exact h
  · intro ctrl payload rest s r h ih; simp only [List.cons_append, sendAll, transact_some h]; exact ih
  · intro ctrl payload rest s kind h; simp [sendAll, transact_some h]
  · intro ctrl payload rest s h; simp [sendAll, transact_none h]
  · intro n rest s r h ih; simp only [List.cons_append, sendAll, writeData, transact_some h, answered_wp]; exact ih
  · intro n rest s kind h; simp [sendAll, writeData, transact_some h]
  · intro n rest s h; simp [sendAll, writeData, transact_none h]

end State

namespace State

/-- A run of items whose transactions are all answered `ok`: every event, and where `wp` ends. -/
theorem sendAll_ok (items : List Item) : ∀ (s : State),
    (∀ k < (itemPayloads s.cfg s.fb s.wp items).length, s.answerAt k = some .ok) →
    ∃ t, sendAll items s = (t, .done) ∧ t.wp = itemsEnd s.wp items ∧
      t.hist = s.hist ++ (itemPayloads s.cfg s.fb s.wp items).map
        (fun p => .txn s.cfg.devAddr p.1 p.2 .ok) ∧
      t.panel = panelAfter s.cfg s.env.panelDraws (itemPayloads s.cfg s.fb s.wp items) s.panel ∧
      (∀ k, t.answerAt k = s.answerAt (k + (itemPayloads s.cfg s.fb s.wp items).length)) := by
  induction items with
  | nil => intro s _; exact ⟨s, rfl, rfl, by simp [itemPayloads], rfl, fun k => rfl⟩
  | cons item rest ih =>
    intro s h
    cases item with
    | rewind => exact ih { s with wp := 0 } h
    | send ctrl payload =>
      have h0 : s.phyAnswer = some .ok := by
        rw [← answerAt_zero]; exact h 0 (by simp [itemPayloads])
      obtain ⟨t, h1, h2, h3, h4, h5⟩ := ih (s.answered ctrl payload .ok) (by
        intro k hk
        rw [answered_answerAt]
        exact h (k + 1) (by simpa [itemPayloads] using hk))
      refine ⟨t, ?_, by simpa [itemsEnd] using h2, ?_, ?_, ?_⟩
      · simp only [sendAll, transact_some h0]; exact h1
      · simpa [itemPayloads] using h3
      · rw [h4]
        have : (s.answered ctrl payload .ok).env.panelDraws = s.env.panelDraws + 1 := by
          simp only [answered, emit_env, deliver_env]
          unfold afterPhyPoll; split <;> rfl
        simp [itemPayloads, panelAfter, this]
      · intro k
        rw [h5 k, answered_answerAt]
        simp [itemPayloads, Nat.add_assoc]
    | chunk n =>
      have h0 : s.phyAnswer = some .ok := by
        rw [← answerAt_zero]; exact h 0 (by simp [itemPayloads])
      obtain ⟨t, h1, h2, h3, h4, h5⟩ := ih
        { s.answered s.cfg.ctrlData (s.fb.bytes s.wp n) .ok with wp := s.wp + n } (by
        intro k hk
        have : ({ s.answered s.cfg.ctrlData (s.fb.bytes s.wp n) .ok with wp := s.wp + n } : State).answerAt k =
          (s.answered s.cfg.ctrlData (s.fb.bytes s.wp n) .ok).answerAt k := rfl
        rw [this, answered_answerAt]
        exact h (k + 1) (by simpa [itemPayloads] using hk))
      refine ⟨t, ?_, by simpa [itemsEnd] using h2, ?_, ?_, ?_⟩
      · simp only [sendAll, writeData, transact_some h0, answered_wp]; exact h1
      · simpa [itemPayloads] using h3
      · rw [h4]
        have : (s.answered s.cfg.ctrlData (s.fb.bytes s.wp n) .ok).env.panelDraws = s.env.panelDraws + 1 := by
          simp only [answered, emit_env, deliver_env]
          unfold afterPhyPoll; split <;> rfl
        simp [itemPayloads, panelAfter, this]
      · intro k
        have h6 := h5 k
        have : ∀ j, ({ s.answered s.cfg.ctrlData (s.fb.bytes s.wp n) .ok with wp := s.wp + n } : State).answerAt j =
          (s.answered s.cfg.ctrlData (s.fb.bytes s.wp n) .ok).answerAt j := fun _ => rfl
        rw [h6, this, answered_answerAt]
        simp [itemPayloads, Nat.add_assoc]

end State

end Sys2Proof.Machine
end

