-- ==== Sys2Proof/Laws/Encoding.lean ====
section
/-! SUPPORT. The request-word table as arithmetic on words (30_encoding.md R56 to R58), for the proofs about decoder and
encoder. -/

namespace Sys2Proof

/-- A mask of all bits from `k` up keeps the quotient by `2^k`. -/
theorem highMask (w : ReqWord) (k : Nat) : w &&& (BitVec.allOnes 32 <<< k) = (w >>> k) <<< k := by
  ext i hi
  by_cases h : i < k
  · simp [h]
  · have h' : i - k < 32 := by omega
    have h'' : k + (i - k) = i := by omega
    rw [BitVec.getElem_and, BitVec.getElem_shiftLeft, BitVec.getElem_shiftLeft, BitVec.getElem_allOnes,
      BitVec.getElem_ushiftRight, h'', BitVec.getLsbD_eq_getElem hi]
    simp [h]

/-- What a row of R57 selects, as arithmetic on the word. -/
theorem selects_iff_div {r : RequestRow} (k : Nat) (hm : r.mask = BitVec.allOnes 32 <<< k)
    (hp : r.pattern.toNat % 2 ^ k = 0) (w : ReqWord) :
    r.selects w = true ↔ w.toNat / 2 ^ k = r.pattern.toNat / 2 ^ k := by
  simp only [RequestRow.selects, beq_iff_eq, hm, highMask]
  rw [← BitVec.toNat_inj]
  have hw := w.isLt
  have h1 : ((w >>> k) <<< k).toNat = w.toNat / 2 ^ k * 2 ^ k := by
    rw [BitVec.toNat_shiftLeft, BitVec.toNat_ushiftRight, Nat.shiftRight_eq_div_pow, Nat.shiftLeft_eq]
    exact Nat.mod_eq_of_lt (lt_of_le_of_lt (Nat.div_mul_le_self _ _) hw)
  rw [h1]
  constructor
  · intro h; rw [← h, Nat.mul_div_cancel _ (by positivity)]
  · intro h; rw [h]; have := Nat.div_add_mod r.pattern.toNat (2 ^ k); rw [hp, Nat.mul_comm] at this; simpa using this

theorem selects_init (w : ReqWord) : rowInit.selects w = true ↔ w.toNat = 0x10000000 := by
  rw [selects_iff_div 0 (by decide) (by decide)]; simp [rowInit]
theorem selects_update (w : ReqWord) : rowUpdate.selects w = true ↔ w.toNat = 0x20000000 := by
  rw [selects_iff_div 0 (by decide) (by decide)]; simp [rowUpdate]
theorem selects_setInvert (w : ReqWord) : rowSetInvert.selects w = true ↔ w.toNat / 2 = 0x30000000 / 2 := by
  rw [selects_iff_div 1 (by decide) (by decide)]; simp [rowSetInvert]
theorem selects_setContrast (w : ReqWord) : rowSetContrast.selects w = true ↔ w.toNat / 65536 = 0x4000 := by
  rw [selects_iff_div 16 (by decide) (by decide)]; simp [rowSetContrast]
theorem selects_clear (w : ReqWord) : rowClear.selects w = true ↔ w.toNat = 0x50000000 := by
  rw [selects_iff_div 0 (by decide) (by decide)]; simp [rowClear]
theorem selects_setPixel (w : ReqWord) : rowSetPixel.selects w = true ↔ w.toNat / 33554432 = 0x30 := by
  rw [selects_iff_div 25 (by decide) (by decide)]; simp [rowSetPixel]
theorem selects_getBuffer (w : ReqWord) : rowGetBuffer.selects w = true ↔ w.toNat = 0x70000000 := by
  rw [selects_iff_div 0 (by decide) (by decide)]; simp [rowGetBuffer]

theorem toNat_append_eq {m n : Nat} (x : BitVec m) (y : BitVec n) : (x ++ y).toNat = x.toNat * 2 ^ n + y.toNat := by
  rw [BitVec.toNat_append, ← Nat.shiftLeft_add_eq_or_of_lt y.isLt, Nat.shiftLeft_eq]

theorem fieldLevel_eq (w : ReqWord) : fieldLevel w =
    if w.toNat % 65536 < 32768 then ((w.toNat % 65536 : Nat) : Int) else ((w.toNat % 65536 : Nat) : Int) - 65536 := by
  unfold fieldLevel
  rw [BitVec.toInt_eq_toNat_cond, BitVec.extractLsb'_toNat]
  norm_num
  split_ifs <;> omega
theorem fieldX_eq (w : ReqWord) : fieldX w =
    if w.toNat / 4096 % 4096 < 2048 then ((w.toNat / 4096 % 4096 : Nat) : Int) else ((w.toNat / 4096 % 4096 : Nat) : Int) - 4096 := by
  unfold fieldX
  rw [BitVec.toInt_eq_toNat_cond, BitVec.extractLsb'_toNat]
  norm_num [Nat.shiftRight_eq_div_pow]
  split_ifs <;> omega
theorem fieldY_eq (w : ReqWord) : fieldY w =
    if w.toNat % 4096 < 2048 then ((w.toNat % 4096 : Nat) : Int) else ((w.toNat % 4096 : Nat) : Int) - 4096 := by
  unfold fieldY
  rw [BitVec.toInt_eq_toNat_cond, BitVec.extractLsb'_toNat]
  norm_num
  split_ifs <;> omega
theorem fieldColor_eq (w : ReqWord) : fieldColor w = if w.toNat / 16777216 % 2 = 1 then .set else .clear := by
  unfold fieldColor
  rw [BitVec.getLsbD, Nat.testBit_eq_decide_div_mod_eq]; simp
theorem fieldFlag_eq (w : ReqWord) : fieldFlag w = decide (w.toNat % 2 = 1) := by
  unfold fieldFlag
  rw [BitVec.getLsbD, Nat.testBit_eq_decide_div_mod_eq]; simp

theorem toNat_encodeLevel (l : Int) : (encodeLevel l).toNat = 0x40000000 + (l % 65536).toNat := by
  unfold encodeLevel
  rw [toNat_append_eq, toNat_append_eq, BitVec.toNat_ofInt]; norm_num
theorem toNat_encodePixel (x y : Int) (col : Color) : (encodePixel x y col).toNat =
    0x60000000 + (colorBit col).toNat * 16777216 + (x % 4096).toNat * 4096 + (y % 4096).toNat := by
  unfold encodePixel
  rw [toNat_append_eq, toNat_append_eq, toNat_append_eq, toNat_append_eq, BitVec.toNat_ofInt, BitVec.toNat_ofInt]
  norm_num; omega
theorem toNat_encodeInvert (f : Bool) : (0x3#4 ++ 0#27 ++ BitVec.ofBool f).toNat = 0x30000000 + f.toNat := by
  rw [toNat_append_eq, toNat_append_eq]; cases f <;> rfl

theorem eq_false_of_iff {b : Bool} {p : Prop} (h : b = true ↔ p) (hp : ¬ p) : b = false := by
  cases b <;> simp_all

theorem valid_controlBytes {c : Config} (h : c.valid = true) : c.ctrlData ≠ c.ctrlCmd := by
  intro e
  simp only [Config.valid, Bool.and_eq_true, Config.controlBytesOk] at h
  have := h.1.1.2
  rw [e] at this
  split at this <;> simp at this

theorem eq_ofNat_of_toNat {w : ReqWord} {n : Nat} (h : w.toNat = n) : w = BitVec.ofNat 32 n := by
  apply BitVec.eq_of_toNat_eq
  rw [h, BitVec.toNat_ofNat, ← h]
  exact (Nat.mod_eq_of_lt w.isLt).symm

end Sys2Proof
end

