-- ==== Sys2Proof/Laws/Exec.lean ====
section
/-! SUPPORT. What the shared shapes of the meanings can do: the gate, the common shape of the display-controller operations
(42 R100), a framer call (40 R72). Later proofs take these cases instead of unfolding the operations. -/

namespace Sys2Proof.Machine

namespace State

/-- What runs, runs with a legal configuration. -/
theorem configured_next {s t : State} {k : Result} (h : s.configured k = .next t) : s.cfg.valid = true ∧ k = .next t := by
  unfold configured at h
  split_ifs at h with h1
  exact ⟨by simpa using h1, h⟩

@[simp] theorem configured_valid {s : State} (hv : s.cfg.valid = true) (k : Result) : s.configured k = k := by
  simp [configured, hv]

@[simp] theorem configured_illegal {s : State} (hv : s.cfg.valid = false) (k : Result) :
    s.configured k = .refused .invalidConfiguration := by simp [configured, hv]

theorem gate_next {s t : State} {i : Instr} {k : Result} (h : s.gate i k = .next t) :
    s.cfg.valid = true ∧ s.overlaps i = false ∧ k = .next t := by
  obtain ⟨hv, h⟩ := configured_next h
  split_ifs at h with h1
  exact ⟨hv, by simpa using h1, h⟩

theorem gate_open {s : State} {i : Instr} (hv : s.cfg.valid = true) (ho : s.overlaps i = false) (k : Result) :
    s.gate i k = k := by
  simp [gate, configured_valid hv, ho]

theorem overlaps_none {s : State} (h : s.activity = none) (i : Instr) : s.overlaps i = false := by
  simp [overlaps, h]

theorem overlaps_some {s : State} {a : Activity} (h : s.activity = some a) (i : Instr) :
    s.overlaps i = false ↔ a.op = i := by
  simp [overlaps, h]

/-- The end of a run: responded with success, responded with a failure, or still in progress. -/
theorem finish_cases (op : Instr) (onOk onFail : State → State) (r : State × Sent) :
    (r.2 = .done ∧ finish op onOk onFail r = (onOk r.1).release.respond .ok []) ∨
    (∃ kind, r.2 = .failed kind ∧ finish op onOk onFail r = (onFail r.1).release.raise (.transport kind)) ∨
    (∃ rest, r.2 = .waiting rest ∧ finish op onOk onFail r = { r.1 with activity := some ⟨op, .sending rest⟩ }) := by
  rcases r with ⟨t, _ | kind | rest⟩
  · exact .inl ⟨rfl, rfl⟩
  · exact .inr (.inl ⟨kind, rfl, rfl⟩)
  · exact .inr (.inr ⟨rest, rfl, rfl⟩)

/-- Everything a display-controller operation can do when it answers a next state (R100): it is rejected; it waits for the
lock; it runs its bracket from the start; or it goes on with what was left. -/
theorem controller_next {s t : State} {op : Instr} {plan : List Item} {accept onOk onFail : State → State}
    (h : s.controller op plan accept onOk onFail = .next t) :
    (∃ e, s.activity = none ∧ stateCheck op s.ctl = some e ∧ t = s.raise e) ∨
    (∃ b, ((s.activity = none ∧ stateCheck op s.ctl = none ∧ b = accept s) ∨
        (∃ o, s.activity = some ⟨o, .lockWait⟩) ∧ b = s) ∧ s.lock = false ∧
      ((b.lockGranted = false ∧ t = { b.afterLockPoll with activity := some ⟨op, .lockWait⟩ }) ∨
       (b.lockGranted = true ∧ t = finish op onOk onFail (sendAll plan b.afterLockPoll.acquired)))) ∨
    (∃ o rest, s.activity = some ⟨o, .sending rest⟩ ∧ s.lock = true ∧
      t = finish op onOk onFail (sendAll rest s)) := by
  have enter : ∀ b, enterBracket op plan onOk onFail b = t →
      ((b.lockGranted = false ∧ t = { b.afterLockPoll with activity := some ⟨op, .lockWait⟩ }) ∨
       (b.lockGranted = true ∧ t = finish op onOk onFail (sendAll plan b.afterLockPoll.acquired))) := by
    intro b hb
    unfold enterBracket at hb
    split_ifs at hb with hg
    · exact .inr ⟨hg, hb.symm⟩
    · exact .inl ⟨by simpa using hg, hb.symm⟩
  unfold controller at h
  split at h
  · rename_i ha
    split at h
    · rename_i e he
      injection h with h
      exact .inl ⟨e, ha, he, h.symm⟩
    · rename_i hc
      split_ifs at h with hl
      injection h with h
      exact .inr (.inl ⟨_, .inl ⟨ha, hc, rfl⟩, by simpa using hl, enter _ h⟩)
  · rename_i o ha
    split_ifs at h with hl
    injection h with h
    exact .inr (.inl ⟨s, .inr ⟨⟨o, ha⟩, rfl⟩, by simpa using hl, enter _ h⟩)
  · rename_i o rest ha
    split_ifs at h with hl
    injection h with h
    exact .inr (.inr ⟨o, rest, ha, hl, h.symm⟩)

/-- An accepted operation that finds the lock granted runs its bracket. -/
theorem controller_granted {s : State} {op : Instr} {plan : List Item} {accept onOk onFail : State → State}
    (ha : s.activity = none) (hc : stateCheck op s.ctl = none) (hl : s.lock = false)
    (hg : (accept s).lockGranted = true) :
    s.controller op plan accept onOk onFail =
      .next (finish op onOk onFail (sendAll plan (accept s).afterLockPoll.acquired)) := by
  simp [controller, enterBracket, ha, hc, hl, hg]

theorem controller_rejected {s : State} {op : Instr} {plan : List Item} {accept onOk onFail : State → State}
    {e : Status} (ha : s.activity = none) (hc : stateCheck op s.ctl = some e) :
    s.controller op plan accept onOk onFail = .next (s.raise e) := by
  simp [controller, ha, hc]

/-- Everything a framer call can do when it answers a next state (R72). -/
theorem framer_next {s t : State} {op : Instr} {ctrl : Byte} {payload : List Byte}
    (h : s.framer op ctrl payload = .next t) :
    s.lock = true ∧ payloadOk s.cfg payload = true ∧
      ((∃ r, s.phyAnswer = some r ∧
          t = { s.answered ctrl payload r with framerReturn := some r, activity := none }) ∨
       (s.phyAnswer = none ∧ t = { s.afterPhyPoll with activity := some ⟨op, .sending [.send ctrl payload]⟩ })) := by
  unfold framer at h
  split_ifs at h with h1 h2
  injection h with h
  refine ⟨by simpa using h1, by simpa using h2, ?_⟩
  rcases ha : s.phyAnswer with _ | r
  · rw [transact_none ha] at h; exact .inr ⟨rfl, h.symm⟩
  · rw [transact_some ha] at h; exact .inl ⟨r, rfl, h.symm⟩

theorem framer_answered {s : State} {op : Instr} {ctrl : Byte} {payload : List Byte} {r : TxnResult}
    (hl : s.lock = true) (hp : payloadOk s.cfg payload = true) (ha : s.phyAnswer = some r) :
    s.framer op ctrl payload =
      .next { s.answered ctrl payload r with framerReturn := some r, activity := none } := by
  simp [framer, hl, hp, transact_some ha]

end State

/-- The two kinds of instruction that never write `fb`, `ctl`, `disp`, `wp`: one lemma for the eleven wire rows. -/
theorem exec_wire {s : State} {i : Instr} {c : WireCode} (h : encode s.cfg i = .wire c) :
    ∃ ctrl payload, (ctrl = s.cfg.ctrlCmd ∨ ctrl = s.cfg.ctrlData) ∧
      exec i s = s.gate i (s.framer i ctrl payload) := by
  cases i <;> first | exact ⟨_, _, .inl rfl, rfl⟩ | exact ⟨_, _, .inr rfl, rfl⟩ | exact absurd h (by simp [encode])

/-- The four display-controller operations have the common shape: accepting writes `ctl` only, success writes `ctl`, `disp`
and (`INIT` only) clears `fb`, failure writes `ctl` only. -/
theorem exec_controller {s t : State} {i : Instr} (hi : isController i = true) (h : exec i s = .next t) :
    s.cfg.valid = true ∧ s.overlaps i = false ∧ ∃ accept onOk onFail,
      (∀ u : State, ∃ c, accept u = { u with ctl := c }) ∧
      (∀ u : State, ∃ c d f, onOk u = { u with ctl := c, disp := d, fb := f } ∧
        (f = u.fb ∨ (i = .init ∧ f = Memory.fill u.cfg.size 0x00#8))) ∧
      (∀ u : State, ∃ c, onFail u = { u with ctl := c }) ∧
      s.controller i (planOf s.cfg i) accept onOk onFail = .next t := by
  cases i <;> simp only [isController, Bool.false_eq_true] at hi
  case init =>
    obtain ⟨hv, ho, hk⟩ := State.gate_next h
    exact ⟨hv, ho, _, _, _, fun u => ⟨u.ctl, rfl⟩, fun u => ⟨_, _, _, rfl, .inr ⟨rfl, rfl⟩⟩, fun u => ⟨_, rfl⟩, hk⟩
  case update =>
    obtain ⟨hv, ho, hk⟩ := State.gate_next h
    split_ifs at hk
    exact ⟨hv, ho, _, _, _, fun u => ⟨_, rfl⟩, fun u => ⟨_, _, _, rfl, .inl rfl⟩, fun u => ⟨_, rfl⟩, hk⟩
  case setInvert flag =>
    obtain ⟨hv, ho, hk⟩ := State.gate_next h
    exact ⟨hv, ho, _, _, _, fun u => ⟨u.ctl, rfl⟩, fun u => ⟨_, _, _, rfl, .inl rfl⟩, fun u => ⟨u.ctl, rfl⟩, hk⟩
  case setContrast level =>
    obtain ⟨hv, ho, hk⟩ := State.gate_next h
    exact ⟨hv, ho, _, _, _, fun u => ⟨u.ctl, rfl⟩, fun u => ⟨_, _, _, rfl, .inl rfl⟩, fun u => ⟨u.ctl, rfl⟩, hk⟩

theorem execClear_next {s t : State} (h : exec .clear s = .next t) :
    s.cfg.valid = true ∧ s.overlaps .clear = false ∧ t = s.clearBuffer.respond .ok [] := by
  obtain ⟨hv, ho, hk⟩ := State.gate_next h
  injection hk with hk
  exact ⟨hv, ho, hk.symm⟩

theorem execGetBuffer_next {s t : State} (h : exec .getBuffer s = .next t) :
    s.cfg.valid = true ∧ s.overlaps .getBuffer = false ∧
      ∃ bytes, s.memRead 0 s.cfg.size = some bytes ∧ t = s.respond .ok bytes := by
  obtain ⟨hv, ho, hk⟩ := State.gate_next h
  split at hk
  · rename_i bytes hb
    injection hk with hk
    exact ⟨hv, ho, bytes, hb, hk.symm⟩
  · simp at hk

/-- `SET_PIXEL` is clipped, or writes one byte (R87). -/
theorem execSetPixel_next {s t : State} {x y : Int} {color : Color} (h : exec (.setPixel x y color) s = .next t) :
    s.cfg.valid = true ∧ s.overlaps (.setPixel x y color) = false ∧
      ((inBounds s.cfg x y = false ∧ t = s.respond .ok []) ∨
       (inBounds s.cfg x y = true ∧ ∃ old, s.memRead (byteIndex s.cfg x.toNat y.toNat) 1 = some [old] ∧
          t = State.respond .ok [] { s with
            fb := s.fb.write (byteIndex s.cfg x.toNat y.toNat) (pixelByte color (bitInPage y.toNat) old) })) := by
  obtain ⟨hv, ho, hk⟩ := State.gate_next h
  refine ⟨hv, ho, ?_⟩
  split_ifs at hk with hb
  · refine .inr ⟨hb, ?_⟩
    split at hk
    · rename_i old hold
      simp only [State.memWrite, Memory.writeAll] at hk
      split_ifs at hk
      injection hk with hk
      exact ⟨old, hold, hk.symm⟩
    · simp at hk
  · injection hk with hk
    exact .inl ⟨by simpa using hb, hk.symm⟩

/-- The three framebuffer operations answer `OK` and write `fb` only (R85). -/
theorem exec_framebuffer {s t : State} {i : Instr} (hi : i = .clear ∨ i = .getBuffer ∨ ∃ x y color, i = .setPixel x y color)
    (h : exec i s = .next t) : s.cfg.valid = true ∧ s.overlaps i = false ∧
      ∃ f data, t = { s with fb := f, responses := s.responses ++ [⟨.ok, data⟩], activity := none } ∧
        ∀ n, s.fb.wf n = true → n = s.cfg.size → f.wf n = true := by
  rcases hi with rfl | rfl | ⟨x, y, color, rfl⟩
  · obtain ⟨hv, ho, rfl⟩ := execClear_next h
    exact ⟨hv, ho, _, _, rfl, fun n _ hn => hn ▸ Memory.fill_wf _ _⟩
  · obtain ⟨hv, ho, bytes, _, rfl⟩ := execGetBuffer_next h
    exact ⟨hv, ho, _, _, rfl, fun n hw _ => hw⟩
  · obtain ⟨hv, ho, ⟨_, rfl⟩ | ⟨_, old, _, rfl⟩⟩ := execSetPixel_next h
    · exact ⟨hv, ho, _, _, rfl, fun n hw _ => hw⟩
    · exact ⟨hv, ho, _, _, rfl, fun n hw _ => Memory.write_wf hw _ _⟩

/-- Every instruction is a framebuffer operation, a display-controller operation or a wire row. -/
theorem instr_kinds (c : Config) (i : Instr) :
    (i = .clear ∨ i = .getBuffer ∨ ∃ x y color, i = .setPixel x y color) ∨ isController i = true ∨
      ∃ w, encode c i = .wire w := by
  cases i <;> simp [isController, encode]

end Sys2Proof.Machine
end

