-- ==== Sys2Proof/Laws/Frame.lean ====
section
/-! SUPPORT. Frames: what an instruction leaves unchanged whatever the environment answers (10_state.md R24, 41 R92). -/

namespace Sys2Proof.Machine
open State

/-- A run of items only appends events (R40 (c), (d)). -/
theorem sendAll_hist (items : List Item) (s : State) : ∃ es, (sendAll items s).1.hist = s.hist ++ es := by
  refine sendAll_induct (P := fun _ s r => ∃ es, r.1.hist = s.hist ++ es) ?_ ?_ ?_ ?_ ?_ ?_ ?_ ?_ items s
  · intro s; exact ⟨[], by simp⟩
  · intro rest s r h; exact h
  · rintro ctrl payload rest s r _ ⟨es, h⟩; exact ⟨.txn s.cfg.devAddr ctrl payload .ok :: es, by rw [h]; simp⟩
  · intro ctrl payload rest s kind _; exact ⟨_, by simp; rfl⟩
  · intro ctrl payload rest s _; exact ⟨[], by simp⟩
  · rintro n rest s r _ ⟨es, h⟩; exact ⟨.txn s.cfg.devAddr s.cfg.ctrlData (s.fb.bytes s.wp n) .ok :: es, by rw [h]; simp⟩
  · intro n rest s kind _; exact ⟨_, by simp; rfl⟩
  · intro n rest s _; exact ⟨[], by simp⟩

/-- What the end of a display-controller operation leaves alone, and the three ways it may change `responses` and `fb`. -/
structure FinishFrame (s t : State) : Prop where
  cfg : t.cfg = s.cfg
  req : t.requests = s.requests
  call : t.framerCall = s.framerCall
  ret : t.framerReturn = s.framerReturn
  hist : ∃ es, t.hist = s.hist ++ es
  resp : t.responses = s.responses ∨ ∃ r, t.responses = s.responses ++ [r]
  fb : t.fb = s.fb ∨ t.fb = Memory.fill s.cfg.size 0x00#8

theorem finish_frame {op : Instr} {onOk onFail : State → State} {s : State} (items : List Item)
    (h1 : ∀ u : State, ∃ c d f, onOk u = { u with ctl := c, disp := d, fb := f } ∧
        (f = u.fb ∨ (op = .init ∧ f = Memory.fill u.cfg.size 0x00#8)))
    (h2 : ∀ u : State, ∃ c, onFail u = { u with ctl := c }) :
    FinishFrame s (finish op onOk onFail (sendAll items s)) := by
  have hs := sendAll_same items s
  obtain ⟨es, he⟩ := sendAll_hist items s
  rcases finish_cases op onOk onFail (sendAll items s) with ⟨_, h⟩ | ⟨k, _, h⟩ | ⟨rest, _, h⟩ <;> rw [h]
  · obtain ⟨c, d, f, ho, hf⟩ := h1 (sendAll items s).1
    rw [ho]
    refine ⟨hs.cfg, hs.requests, hs.framerCall, hs.framerReturn, ⟨es ++ [.rel], ?_⟩, .inr ⟨⟨.ok, []⟩, ?_⟩, ?_⟩
    · simp [he]
    · simp [hs.responses]
    · rcases hf with hf | ⟨_, hf⟩
      · left; simp [hf, hs.fb]
      · right; simp [hf, hs.cfg]
  · obtain ⟨c, ho⟩ := h2 (sendAll items s).1
    rw [ho]
    refine ⟨hs.cfg, hs.requests, hs.framerCall, hs.framerReturn, ⟨es ++ [.rel], ?_⟩, .inr ⟨⟨.transport k, []⟩, ?_⟩, ?_⟩
    · simp [he]
    · simp [hs.responses]
    · left; simp [hs.fb]
  · exact ⟨hs.cfg, hs.requests, hs.framerCall, hs.framerReturn, ⟨es, he⟩, .inl hs.responses, .inl hs.fb⟩

theorem FinishFrame.of {s u t : State} (h : FinishFrame u t) (h1 : u.cfg = s.cfg) (h2 : u.requests = s.requests)
  (h3 : u.framerCall = s.framerCall) (h4 : u.framerReturn = s.framerReturn) (h5 : ∃ es, u.hist = s.hist ++ es)
  (h6 : u.responses = s.responses) (h7 : u.fb = s.fb) : FinishFrame s t := by
  obtain ⟨es, h5⟩ := h5
  obtain ⟨es', h8⟩ := h.hist
  exact ⟨h.cfg.trans h1, h.req.trans h2, h.call.trans h3, h.ret.trans h4, ⟨es ++ es', by rw [h8, h5]; simp⟩, by rw [← h6]; exact h.resp,
    by rw [← h7, ← h1]; exact h.fb⟩

/-- The frame of the four display-controller operations, also when they have to wait. -/
theorem controller_frame {s t : State} {i : Instr} (hi : isController i = true) (h : exec i s = .next t) :
    FinishFrame s t := by
  obtain ⟨hv, ho, accept, onOk, onFail, h0, h1, h2, hk⟩ := exec_controller hi h
  rcases controller_next hk with ⟨e, ha, he, rfl⟩ | ⟨b, hb, hl, hw⟩ | ⟨o, rest, ha, hl, rfl⟩
  · exact ⟨rfl, rfl, rfl, rfl, ⟨[], by simp⟩, .inr ⟨_, by simp; rfl⟩, .inl rfl⟩
  · have hb' : ∃ c, b = {s with ctl := c} := by
      rcases hb with ⟨_, _, rfl⟩ | ⟨_, rfl⟩
      · exact h0 s
      · exact ⟨b.ctl, rfl⟩
    obtain ⟨c, rfl⟩ := hb'
    rcases hw with ⟨hg, rfl⟩ | ⟨hg, rfl⟩
    · exact ⟨by simp, by simp, by simp, by simp, ⟨[], by simp⟩, .inl (by simp), .inl (by simp)⟩
    · refine FinishFrame.of (finish_frame _ h1 h2) ?_ ?_ ?_ ?_ ⟨[.acq], ?_⟩ ?_ ?_ <;> simp
  · exact finish_frame _ h1 h2

/-- What no instruction changes, and how `hist`, `responses` and `fb` may change. -/
structure AnyFrame (s t : State) : Prop where
  cfg : t.cfg = s.cfg
  req : t.requests = s.requests
  call : t.framerCall = s.framerCall
  hist : ∃ es, t.hist = s.hist ++ es
  resp : t.responses = s.responses ∨ ∃ r, t.responses = s.responses ++ [r]
  fb : s.fb.wf s.cfg.size = true → t.fb.wf s.cfg.size = true

/-- The frame of every instruction. -/
theorem exec_frame {s t : State} {i : Instr} (h : exec i s = .next t) : AnyFrame s t := by
  rcases instr_kinds s.cfg i with hi | hi | ⟨w, hi⟩
  · obtain ⟨_, _, f, d, rfl, hf⟩ := exec_framebuffer hi h
    exact ⟨rfl, rfl, rfl, ⟨[], by simp⟩, .inr ⟨_, rfl⟩, fun hw => hf _ hw rfl⟩
  · have := controller_frame hi h
    exact ⟨this.cfg, this.req, this.call, this.hist, this.resp, fun hw => by
      rcases this.fb with h | h <;> rw [h]
      · exact hw
      · simp⟩
  · obtain ⟨ctrl, payload, _, he⟩ := exec_wire hi
    rw [he] at h
    obtain ⟨_, _, hk⟩ := gate_next h
    obtain ⟨_, _, ⟨r, _, rfl⟩ | ⟨_, rfl⟩⟩ := framer_next hk
    · exact ⟨by simp, by simp, by simp, ⟨[_], by simp; rfl⟩, .inl (by simp), by simp⟩
    · exact ⟨by simp, by simp, by simp, ⟨[], by simp⟩, .inl (by simp), by simp⟩

theorem finish_fb {op : Instr} {onOk onFail : State → State} {s : State} (items : List Item)
    (h1 : ∀ u : State, ∃ c d f, onOk u = { u with ctl := c, disp := d, fb := f } ∧
        (f = u.fb ∨ (op = .init ∧ f = Memory.fill u.cfg.size 0x00#8)))
    (h2 : ∀ u : State, ∃ c, onFail u = { u with ctl := c })
    (hne : (finish op onOk onFail (sendAll items s)).fb ≠ s.fb) :
    op = .init ∧ (finish op onOk onFail (sendAll items s)).responses = s.responses ++ [⟨.ok, []⟩] := by
  have hs := sendAll_same items s
  rcases finish_cases op onOk onFail (sendAll items s) with ⟨_, h⟩ | ⟨k, _, h⟩ | ⟨rest, _, h⟩ <;> rw [h] at hne ⊢
  · obtain ⟨c, d, f, ho, hf⟩ := h1 (sendAll items s).1
    rw [ho] at hne ⊢
    rcases hf with hf | ⟨hi, hf⟩
    · exact absurd (hf.trans hs.fb) hne
    · exact ⟨hi, by simp [hs.responses]⟩
  · obtain ⟨c, ho⟩ := h2 (sendAll items s).1
    rw [ho] at hne
    exact absurd hs.fb hne
  · exact absurd hs.fb hne

/-- Of the display-controller operations only a successful `INIT` writes `fb` (R92). -/
theorem controller_fb {s t : State} {i : Instr} (hi : isController i = true) (h : exec i s = .next t) (hne : t.fb ≠ s.fb) :
    i = .init ∧ t.responses = s.responses ++ [⟨.ok, []⟩] := by
  obtain ⟨hv, ho, accept, onOk, onFail, h0, h1, h2, hk⟩ := exec_controller hi h
  rcases controller_next hk with ⟨e, ha, he, rfl⟩ | ⟨b, hb, hl, hw⟩ | ⟨o, rest, ha, hl, rfl⟩
  · exact absurd rfl hne
  · have hb' : ∃ c, b = {s with ctl := c} := by
      rcases hb with ⟨_, _, rfl⟩ | ⟨_, rfl⟩
      · exact h0 s
      · exact ⟨b.ctl, rfl⟩
    obtain ⟨c, rfl⟩ := hb'
    rcases hw with ⟨hg, rfl⟩ | ⟨hg, rfl⟩
    · exact absurd (by simp) hne
    · have := finish_fb (s := State.acquired (afterLockPoll {s with ctl := c})) _ h1 h2 (by simpa using hne)
      simpa using this
  · exact finish_fb _ h1 h2 hne

theorem execSetInvert_fb {s t : State} {flag : Bool} (h : exec (.setInvert flag) s = .next t) : t.fb = s.fb := by
  by_contra hne
  have := (controller_fb rfl h hne).1
  simp at this

end Sys2Proof.Machine
end

