-- ==== Sys2Proof/Laws/InitSeq.lean ====
section
/-! SUPPORT. What an `INIT_SEQ` leaves, by its commands and not by its groups (42_controller_ops.md R104). -/

namespace Sys2Proof

/-- What a list of commands leaves, one after another. -/
def Config.commandsLeave (c : Config) (cmds : List (List Byte)) (v : InitValues) : InitValues :=
  cmds.foldl (fun v x => c.commandLeaves (x.headD 0#8) x.tail v) v

@[simp] theorem Config.commandsLeave_nil (c : Config) (v : InitValues) : c.commandsLeave [] v = v := rfl
@[simp] theorem Config.commandsLeave_append (c : Config) (xs ys : List (List Byte)) (v : InitValues) :
    c.commandsLeave (xs ++ ys) v = c.commandsLeave ys (c.commandsLeave xs v) := List.foldl_append ..

/-- A command has a byte of its own, and the arguments that `argsOf` counts. -/
theorem Config.isCommand_cases {c : Config} {x : List Byte} (h : c.isCommand x = true) :
    ∃ cmd args, x = cmd :: args ∧ c.argsOf cmd = some args.length := by
  cases x with
  | nil => cases h
  | cons cmd args => exact ⟨cmd, args, rfl, eq_of_beq h⟩

/-- Bytes that no command of R104 is among leave the values as they are. -/
theorem Config.unreadLeaves_of_not_mem {c : Config} {rest : List Byte} (h1 : c.cmdContrast ∉ rest) (h2 : c.cmdNormal ∉ rest)
    (h3 : c.cmdInverse ∉ rest) (v : InitValues) : c.unreadLeaves rest v = v := by
  simp [unreadLeaves, h1, h2, h3]

/-- A whole command is read off the front of a group. -/
theorem Config.groupLeaves_command {c : Config} {cmd : Byte} {args : List Byte} (h : c.argsOf cmd = some args.length) (fuel : Nat)
    (rest : List Byte) (v : InitValues) :
    c.groupLeaves (fuel + 1) (cmd :: (args ++ rest)) v = c.groupLeaves fuel rest (c.commandLeaves cmd args v) := by
  simp [groupLeaves, h]

/-- A group leaves what its commands leave. -/
theorem Config.groupLeaves_eq {c : Config} {cmds : List (List Byte)} : ∀ {g : List Byte} {fuel : Nat}, c.GroupReads g cmds →
    g.length ≤ fuel → ∀ v, c.groupLeaves fuel g v = c.commandsLeave cmds v := by
  induction cmds with
  | nil =>
    rintro g fuel ⟨-, tail, rfl, rfl | ⟨cmd, rest, rfl, ha, h1, h2, h3⟩⟩ hf v
    · cases fuel <;> rfl
    · obtain ⟨fuel, rfl⟩ : ∃ n, fuel = n + 1 := ⟨fuel - 1, by simp at hf; omega⟩
      simp [groupLeaves, ha, unreadLeaves_of_not_mem h1 h2 h3]
  | cons x cmds ih =>
    rintro g fuel ⟨hc, tail, rfl, ht⟩ hf v
    obtain ⟨cmd, args, rfl, ha⟩ := isCommand_cases (hc x (by simp))
    obtain ⟨fuel, rfl⟩ : ∃ n, fuel = n + 1 := ⟨fuel - 1, by simp at hf; omega⟩
    have hl : (cmds.flatten ++ tail).length ≤ fuel := by simp at hf ⊢; omega
    have := ih ⟨fun y hy => hc y (by simp [hy]), tail, rfl, ht⟩ hl (c.commandLeaves cmd args v)
    simpa [groupLeaves_command ha, commandsLeave] using this

/-- So does a list of groups, however the commands are grouped. -/
theorem Config.groupsLeave_eq {c : Config} : ∀ {seq cmds : List (List Byte)}, c.GroupsRead seq cmds →
    ∀ v, seq.foldl (fun v g => c.groupLeaves g.length g v) v = c.commandsLeave cmds v
  | [], _, h, v => by cases h; rfl
  | g :: rest, _, ⟨first, others, rfl, hg, hr⟩, v => by
    rw [List.foldl_cons, groupLeaves_eq hg (Nat.le_refl _), groupsLeave_eq hr, commandsLeave_append]

theorem Config.initLeaves_eq {c : Config} {cmds : List (List Byte)} (h : c.InitReads cmds) :
    c.initLeaves = c.commandsLeave cmds ⟨none, some false⟩ := groupsLeave_eq h _

/-- Every command of a sequence that is read is a whole one. -/
theorem Config.GroupsRead.isCommand {c : Config} : ∀ {seq cmds : List (List Byte)}, c.GroupsRead seq cmds →
    ∀ x ∈ cmds, c.isCommand x = true
  | [], _, h, x, hx => by cases h; simp at hx
  | _ :: _, _, ⟨first, others, rfl, hg, hr⟩, x, hx =>
    (List.mem_append.mp hx).elim (hg.1 x) (GroupsRead.isCommand hr x)

/-- Each command's effect on the display mode: a mode command sets it, no other touches it. -/
theorem Config.commandLeaves_inverted {c : Config} {x : List Byte} (hc : c.isCommand x = true) (v : InitValues) :
    (c.commandLeaves (x.headD 0#8) x.tail v).inverted =
      if x = [c.cmdNormal] then some false else if x = [c.cmdInverse] then some true else v.inverted := by
  obtain ⟨cmd, args, rfl, ha⟩ := isCommand_cases hc
  simp only [List.headD_cons, List.tail_cons, commandLeaves, argsOf] at ha ⊢
  split at ha
  · have : args ≠ [] := by rintro rfl; simp at ha
    simp [*]
  · split at ha
    · obtain rfl : args = [] := List.length_eq_zero_iff.mp (Option.some.inj ha).symm
      simp [*]; split <;> simp_all
    · simp_all

/-- Each command's effect on the contrast. -/
theorem Config.commandLeaves_contrast {c : Config} {x : List Byte} (v : InitValues) :
    (c.commandLeaves (x.headD 0#8) x.tail v).contrast =
      if x.headD 0#8 = c.cmdContrast then x.tail.head? else v.contrast := by
  unfold commandLeaves; split
  · rfl
  · split <;> [skip; split] <;> rfl

/-- The last display-mode command decides. -/
theorem Config.commandsLeave_inverted {c : Config} {cmds : List (List Byte)} (hc : ∀ x ∈ cmds, c.isCommand x = true) :
    ∀ v : InitValues, (c.commandsLeave cmds v).inverted =
      ((cmds.reverse.find? fun x => x == [c.cmdNormal] || x == [c.cmdInverse]).map (· != [c.cmdNormal])).or v.inverted := by
  induction cmds with
  | nil => intro v; rfl
  | cons x cmds ih =>
    intro v
    have hx := commandLeaves_inverted (hc x (by simp)) v
    rw [commandsLeave, List.foldl_cons, ← commandsLeave, ih (fun y hy => hc y (by simp [hy])), hx, List.reverse_cons,
      List.find?_append]
    cases cmds.reverse.find? fun x => x == [c.cmdNormal] || x == [c.cmdInverse] with
    | some y => simp
    | none =>
      by_cases h1 : x = [c.cmdNormal]
      · simp [h1]
      · by_cases h2 : x = [c.cmdInverse]
        · have h3 : c.cmdInverse ≠ c.cmdNormal := fun h => h1 (by rw [h2, h])
          simp [h2, h3]
        · simp [h1, h2]

/-- The last contrast command decides. -/
theorem Config.commandsLeave_contrast {c : Config} {cmds : List (List Byte)} (hc : ∀ x ∈ cmds, c.isCommand x = true) :
    ∀ v : InitValues, (c.commandsLeave cmds v).contrast =
      ((cmds.reverse.find? fun x => x.head? == some c.cmdContrast).bind (·.tail.head?)).or v.contrast := by
  induction cmds with
  | nil => intro v; rfl
  | cons x cmds ih =>
    intro v
    rw [commandsLeave, List.foldl_cons, ← commandsLeave, ih (fun y hy => hc y (by simp [hy])), commandLeaves_contrast,
      List.reverse_cons, List.find?_append]
    cases hl : cmds.reverse.find? fun x => x.head? == some c.cmdContrast with
    | some y =>
      obtain ⟨cmd, args, rfl, ha⟩ := isCommand_cases (hc y (by simp [List.mem_reverse.mp (List.mem_of_find?_eq_some hl)]))
      obtain rfl : cmd = c.cmdContrast := by simpa using List.find?_some hl
      obtain ⟨w, rfl⟩ : ∃ w, args = [w] := List.length_eq_one_iff.mp (by simpa [argsOf, eq_comm] using ha)
      simp
    | none =>
      obtain ⟨cmd, args, rfl, ha⟩ := isCommand_cases (hc x (by simp))
      by_cases h : cmd = c.cmdContrast
      · obtain ⟨u, rfl⟩ : ∃ u, args = [u] := List.length_eq_one_iff.mp (by simpa [argsOf, h, eq_comm] using ha)
        simp [h]
      · simp [h]

end Sys2Proof
end

