-- ==== Sys2Proof/Laws/Pixel.lean ====
section
/-! SUPPORT. The bit-packer: indices, pixels and `SET_PIXEL` (20_memory.md R30, R31, R34, 41 R87). -/

namespace Sys2Proof.Machine
open State

/-- The constraints of R5 as facts. -/
theorem valid_facts {c : Config} (h : c.valid = true) : 1 ≤ c.width ∧ 8 ≤ c.height ∧ c.height % 8 = 0 ∧ 2 ≤ c.maxTxn ∧
   (∀ g ∈ c.initSeq, payloadOk c g = true) ∧ (∀ g ∈ c.windowSeq, payloadOk c g = true) ∧ c.width ≤ 256 ∧ c.pages ≤ 256 ∧
   0 ≤ c.contrastMin ∧ c.contrastMin ≤ c.contrastMax ∧ c.contrastMax ≤ 255 := by
  simp only [Config.valid, Config.geometryOk, Config.fieldsOk, Config.groupsOk, Config.contrastOk, Bool.and_eq_true, decide_eq_true_eq,
    List.all_eq_true] at h
  obtain ⟨⟨⟨⟨⟨⟨⟨a, b⟩, c'⟩, ⟨⟨⟨d, d'⟩, _⟩, _⟩⟩, ⟨⟨e, f⟩, g⟩⟩, _⟩, ⟨⟨i, j⟩, k⟩⟩, _⟩ := h
  exact ⟨a, b, c', e, f, g, d, d', i, j, k⟩

/-- `byteIndex` is inside the framebuffer for a pixel in bounds (R30). -/
theorem byteIndex_lt {c : Config} (h : c.valid = true) {x y : Nat} (hx : x < c.width) (hy : y < c.height) :
    y / 8 * c.width + x < c.size := by
  obtain ⟨_, h8, hm, _⟩ := valid_facts h
  unfold Config.size Config.pages
  have : y / 8 + 1 ≤ c.height / 8 := by omega
  calc y / 8 * c.width + x < y / 8 * c.width + c.width := by omega
    _ = (y / 8 + 1) * c.width := by ring
    _ ≤ c.height / 8 * c.width := Nat.mul_le_mul_right _ this
    _ = c.width * (c.height / 8) := Nat.mul_comm _ _

/-- Reads after a write of several bytes (R34). -/
theorem Memory.read_writeAll {n : Nat} (v : List Byte) : ∀ {m : Memory} (_ : m.wf n = true) (a : Nat), a + v.length ≤ n →
    (∀ j, j < v.length → (m.writeAll a v).read (a + j) = v[j]?) ∧
    (∀ b, b < a ∨ a + v.length ≤ b → (m.writeAll a v).read b = m.read b) := by
  induction v with
  | nil => intro m h a _; simp [Memory.writeAll]
  | cons x v ih =>
    intro m h a ha
    simp only [List.length_cons] at ha
    obtain ⟨i1, i2⟩ := ih (Memory.write_wf h a x) (a + 1) (by omega)
    refine ⟨?_, ?_⟩
    · intro j hj
      cases j with
      | zero =>
        simp only [Memory.writeAll, Nat.add_zero]
        rw [i2 a (by omega), Memory.read_write_same h (by omega)]; simp
      | succ j =>
        have := i1 j (by simpa using hj)
        simp only [Memory.writeAll]
        rw [show a + (j + 1) = a + 1 + j by omega, this]; simp
    · intro b hb
      simp only [List.length_cons] at hb
      simp only [Memory.writeAll]
      rw [i2 b (by omega), Memory.read_write_other _ (by omega)]

/-- Two memories in canonical form with the same reads are the same data. -/
theorem Memory.ext_read {n : Nat} {m m' : Memory} (h : m.wf n = true) (h' : m'.wf n = true) (he : ∀ a, a < n → m.read a = m'.read a) : m = m' := by
  have hl := Memory.wf_length h
  have hl' := Memory.wf_length h'
  apply List.ext_getElem (by rw [hl, hl'])
  intro i h1 h2
  have e := he i (by omega)
  rw [Memory.read_eq_place h, Memory.read_eq_place h'] at e
  simp [h1, h2] at e
  exact Prod.ext (by rw [Memory.wf_address h h1, Memory.wf_address h' h2]) e

theorem inBounds_nat {c : Config} {x y : Nat} (hx : x < c.width) (hy : y < c.height) : inBounds c x y = true := by
  simp [inBounds]; omega

/-- Writing one pixel bit of a byte (R87). -/
theorem pixelByte_getLsbD (color : Color) (k j : Nat) (hk : k < 8) (old : Byte) :
   (pixelByte color k old).getLsbD j = if j = k then (color == .set) else old.getLsbD j := by
  by_cases hj : j < 8
  · have h1 : (1#8 <<< k).getLsbD j = decide (j = k) := by
      have : ∀ k < 8, ∀ j < 8, (1#8 <<< k).getLsbD j = decide (j = k) := by decide
      exact this k hk j hj
    cases color
    · by_cases h : j = k
      · simp [pixelByte, hk, h]
      · simp only [pixelByte, BitVec.getLsbD_or, h1, h]; simp
    · by_cases h : j = k
      · simp only [pixelByte, BitVec.getLsbD_and, BitVec.getLsbD_not, h]; simp
      · simp only [pixelByte, BitVec.getLsbD_and, BitVec.getLsbD_not, h1, h]; simp [hj]
  · have : j ≠ k := by omega
    rw [if_neg this, BitVec.getLsbD_of_ge _ _ (by omega), BitVec.getLsbD_of_ge _ _ (by omega)]

/-- `SET_PIXEL` in bounds writes the byte of its pixel (R87). -/
theorem execSetPixel_inBounds {s t : State} {x y : Nat} {color : Color} (hw : s.fb.wf s.cfg.size = true) (hx : x < s.cfg.width) (hy : y < s.cfg.height)
   (h : exec (.setPixel x y color) s = .next t) : s.cfg.valid = true ∧ ∃ old, s.fb.read (y / 8 * s.cfg.width + x) = some old ∧
     t = State.respond .ok [] { s with fb := s.fb.write (y / 8 * s.cfg.width + x) (pixelByte color (y % 8) old) } := by
  obtain ⟨hv, ho, ⟨hb, _⟩ | ⟨_, old, h1, h2⟩⟩ := execSetPixel_next h
  · rw [inBounds_nat hx hy] at hb; simp at hb
  · obtain ⟨b, h3, h4⟩ := memRead_one hw (byteIndex_lt hv hx hy)
    simp only [Int.toNat_natCast, byteIndex, bitInPage] at h1 h2
    rw [h3] at h1; simp at h1; subst h1
    exact ⟨hv, b, h4, h2⟩

/-- Every pixel after a `SET_PIXEL` in bounds. -/
theorem execSetPixel_pixel {s t : State} {x y : Nat} {color : Color} (hw : s.fb.wf s.cfg.size = true) (hx : x < s.cfg.width) (hy : y < s.cfg.height)
   (h : exec (.setPixel x y color) s = .next t) (x' y' : Nat) :
   t.pixel x' y' = if x' = x ∧ y' = y then some (color == .set) else s.pixel x' y' := by
  obtain ⟨hv, old, h1, rfl⟩ := execSetPixel_inBounds hw hx hy h
  have hk : y % 8 < 8 := Nat.mod_lt _ (by decide)
  by_cases hb : x' < s.cfg.width ∧ y' < s.cfg.height
  · simp only [pixel, respond_cfg, respond_fb, hb, and_self, if_true, byteIndex, bitInPage]
    by_cases he : y' / 8 * s.cfg.width + x' = y / 8 * s.cfg.width + x
    · rw [he, Memory.read_write_same hw (byteIndex_lt hv hx hy), h1]
      have hpos : 0 < s.cfg.width := by omega
      have e1 := congrArg (· % s.cfg.width) he
      have e2 := congrArg (· / s.cfg.width) he
      simp only [Nat.mul_comm _ s.cfg.width, Nat.mul_add_mod, Nat.mod_eq_of_lt hb.1, Nat.mod_eq_of_lt hx, Nat.mul_add_div hpos, Nat.div_eq_of_lt hb.1, Nat.div_eq_of_lt hx] at e1 e2
      simp only [Option.map_some, pixelByte_getLsbD _ _ _ hk]
      subst e1
      by_cases hy' : y' = y
      · simp [hy']
      · have : y' % 8 ≠ y % 8 := by omega
        simp [hy', this]
    · rw [Memory.read_write_other _ he, if_neg]
      rintro ⟨rfl, rfl⟩; exact he rfl
  · have : ¬ (x' = x ∧ y' = y) := by rintro ⟨rfl, rfl⟩; exact hb ⟨hx, hy⟩
    rw [if_neg this]
    simp only [pixel, respond_cfg, hb, if_false]

end Sys2Proof.Machine
end

