-- ==== Sys2Proof/Laws/Sequence.lean ====
section
/-! SUPPORT. What the display-controller operations send, transaction by transaction (42_controller_ops.md R102, R107, R109,
R110), and the states in which they have sent it. -/

namespace Sys2Proof.Machine
open State

/-- A run of items writes four fields only. -/
theorem State.SameButBus.eq {s t : State} (h : SameButBus s t) :
    t = { s with wp := t.wp, hist := t.hist, env := t.env, panel := t.panel } := by
  obtain ⟨h1, h2, h3, h4, h5, h6, h7, h8, h9, h10, h11⟩ := h
  cases s; cases t; simp_all

theorem itemPayloads_append (c : Config) (fb : Memory) (a b : List Item) : ∀ wp,
    itemPayloads c fb wp (a ++ b) = itemPayloads c fb wp a ++ itemPayloads c fb (itemsEnd wp a) b := by
  induction a with
  | nil => intro wp; rfl
  | cons x a ih => intro wp; cases x <;> simp [itemPayloads, itemsEnd, ih]

theorem itemsEnd_append (a b : List Item) : ∀ wp, itemsEnd wp (a ++ b) = itemsEnd (itemsEnd wp a) b := by
  induction a with
  | nil => intro wp; rfl
  | cons x a ih => intro wp; cases x <;> simp [itemsEnd, ih]

@[simp] theorem itemsEnd_commandItems (c : Config) (groups : List (List Byte)) (wp : Nat) :
    itemsEnd wp (commandItems c groups) = wp := by
  induction groups with
  | nil => rfl
  | cons g groups ih => exact ih

@[simp] theorem itemPayloads_commandItems (c : Config) (fb : Memory) (groups : List (List Byte)) (wp : Nat) :
    itemPayloads c fb wp (commandItems c groups) = groups.map fun g => (c.ctrlCmd, g) := by
  induction groups with
  | nil => rfl
  | cons g groups ih => simpa [commandItems, itemPayloads] using ih

/-- R109: the greedy cut, by chunk number. -/
theorem chunkSizes_eq {m : Nat} (hm : 1 ≤ m) : ∀ (fuel n : Nat), n ≤ fuel →
    chunkSizes m fuel n = (List.range ((n + m - 1) / m)).map fun j => min m (n - j * m) := by
  intro fuel
  induction fuel with
  | zero =>
    intro n hn
    have : (n + m - 1) / m = 0 := Nat.div_eq_of_lt (by omega)
    simp [chunkSizes, this]
  | succ fuel ih =>
    intro n hn
    by_cases h0 : n = 0
    · have : (n + m - 1) / m = 0 := Nat.div_eq_of_lt (by omega)
      simp [chunkSizes, h0]; omega
    · rw [chunkSizes, if_neg h0, ih _ (by omega)]
      by_cases hle : n ≤ m
      · have h1 : n - min m n = 0 := by omega
        have h2 : (n + m - 1) / m = 1 := by
          rw [show n + m - 1 = m + (n - 1) by omega, Nat.add_div_left _ (by omega), Nat.div_eq_of_lt (by omega)]
        simp [h1, h2, List.range_succ]; omega
      · have h1 : min m n = m := by omega
        have h2 : (n + m - 1) / m = (n - m + m - 1) / m + 1 := by
          rw [show n + m - 1 = (n - m + m - 1) + m by omega, Nat.add_div_right _ (by omega)]
        rw [h1, h2, List.range_succ_eq_map, List.map_cons, List.map_map]
        congr 1
        · simp; omega
        · apply List.map_congr_left
          intro j _
          simp only [Function.comp, Nat.succ_mul, Nat.succ_eq_add_one]
          congr 1
          omega

/-- `k < ceil(N / MAX_TXN)` (R109). -/
theorem lt_chunkCount {c : Config} (hm : 1 ≤ c.maxTxn) {k : Nat} : k < chunkCount c ↔ k * c.maxTxn < c.size := by
  unfold chunkCount
  rw [← Nat.succ_le_iff, Nat.le_div_iff_mul_le (by omega), Nat.succ_mul]
  omega

/-- The `k` first chunks of the data phase. -/
def chunkItems (c : Config) (k : Nat) : List Item := (List.range k).map fun j => .chunk (min c.maxTxn (c.size - j * c.maxTxn))

/-- What `UPDATE` sends, by chunk number. -/
theorem updatePlan_eq {c : Config} (hm : 1 ≤ c.maxTxn) :
    updatePlan c = commandItems c c.windowSeq ++ .rewind :: chunkItems c (chunkCount c) := by
  rw [updatePlan, chunkSizes_eq hm _ _ (le_refl _), List.map_map]; rfl

theorem chunkItems_split (c : Config) {k : Nat} (hk : k < chunkCount c) : ∃ rest,
    chunkItems c (chunkCount c) = chunkItems c k ++ .chunk (min c.maxTxn (c.size - k * c.maxTxn)) :: rest := by
  refine ⟨((List.range (chunkCount c)).drop (k + 1)).map fun j => .chunk (min c.maxTxn (c.size - j * c.maxTxn)), ?_⟩
  unfold chunkItems
  have : List.range (chunkCount c) = List.range k ++ k :: (List.range (chunkCount c)).drop (k + 1) := by
    have h1 := (List.take_append_drop k (List.range (chunkCount c))).symm
    rw [List.drop_eq_getElem_cons (by simpa using hk)] at h1
    simpa [List.take_range, Nat.min_eq_left hk.le] using h1
  conv_lhs => rw [this]
  simp

/-- `wp` after `k` chunks (R110). -/
theorem itemsEnd_chunkItems {c : Config} (hm : 1 ≤ c.maxTxn) : ∀ k, k ≤ chunkCount c →
    itemsEnd 0 (chunkItems c k) = min (k * c.maxTxn) c.size := by
  intro k
  induction k with
  | zero => intro _; simp [chunkItems, itemsEnd]
  | succ k ih =>
    intro hk
    have h2 := (lt_chunkCount hm).mp (show k < chunkCount c by omega)
    have h3 : chunkItems c (k + 1) = chunkItems c k ++ [.chunk (min c.maxTxn (c.size - k * c.maxTxn))] := by
      simp [chunkItems, List.range_succ]
    rw [h3, itemsEnd_append, ih (by omega), Nat.succ_mul]
    simp only [itemsEnd]
    omega

theorem chunkCount_mul {c : Config} (hm : 1 ≤ c.maxTxn) : c.size ≤ chunkCount c * c.maxTxn := by
  by_contra h
  have := (lt_chunkCount hm).mpr (Nat.lt_of_not_le h)
  omega

theorem chunkAt_eq {s : State} (hw : s.fb.wf s.cfg.size = true) (j : Nat) :
    s.fb.bytes (j * s.cfg.maxTxn) (min s.cfg.maxTxn (s.cfg.size - j * s.cfg.maxTxn)) = s.chunkAt j := by
  have hl := Memory.wf_length hw
  rw [Memory.bytes_eq, State.chunkAt, State.buffer]
  rw [List.take_eq_take_iff]
  simp [hl]

/-- What `k` chunks carry (R109). -/
theorem itemPayloads_chunkItems {s : State} (hm : 1 ≤ s.cfg.maxTxn) (hw : s.fb.wf s.cfg.size = true) : ∀ k, k ≤ chunkCount s.cfg →
    itemPayloads s.cfg s.fb 0 (chunkItems s.cfg k) = (List.range k).map fun j => (s.cfg.ctrlData, s.chunkAt j) := by
  intro k
  induction k with
  | zero => intro _; rfl
  | succ k ih =>
    intro hk
    have h2 := (lt_chunkCount hm).mp (show k < chunkCount s.cfg by omega)
    have h3 : chunkItems s.cfg (k + 1) = chunkItems s.cfg k ++ [.chunk (min s.cfg.maxTxn (s.cfg.size - k * s.cfg.maxTxn))] := by
      simp [chunkItems, List.range_succ]
    rw [h3, itemPayloads_append, ih (by omega), itemsEnd_chunkItems hm k (by omega), List.range_succ, List.map_append]
    have : min (k * s.cfg.maxTxn) s.cfg.size = k * s.cfg.maxTxn := by omega
    simp [itemPayloads, this, chunkAt_eq hw]

theorem valid_maxTxn {c : Config} (h : c.valid = true) : 1 ≤ c.maxTxn := by
  have := valid_facts h; omega

theorem size_pos {c : Config} (h : c.valid = true) : 1 ≤ c.size := by
  have hf := valid_facts h
  have := byteIndex_lt h (x := 0) (y := 0) (by omega) (by omega)
  omega

theorem updateReads_true {s : State} (hs : s.Idle) : updateReads s = true := by
  simp [updateReads, memRead_eq hs.buffer (a := 0) (size_pos hs.config) (by omega)]

/-- An accepted `UPDATE` that finds the lock granted. -/
theorem execUpdate_granted {s : State} (hs : s.Idle) (hc : s.ctl = .ready) (hg : s.grantAt 0 = true) :
    exec .update s = .next (finish .update (fun s => { s with ctl := .ready }) State.enterFailed
      (sendAll (updatePlan s.cfg) (({ s with ctl := .updating } : State).afterLockPoll.acquired))) := by
  refine (gate_open hs.config (overlaps_none hs.none _) _).trans ?_
  rw [if_pos (updateReads_true hs)]
  exact controller_granted hs.none (by simp [stateCheck, updateCheck, hc]) hs.lock (by rw [← grantAt_zero]; exact hg)

theorem modeCheck_failed {c : Ctl} : c ≠ .failed → modeCheck c = none := by cases c <;> simp [modeCheck]

/-- One command frame: the bracket of SET_INVERT and SET_CONTRAST. -/
theorem sendAll_one {s : State} {ctrl : Byte} {p : List Byte} {r : TxnResult} (ha : s.answerAt 0 = some r) :
    sendAll [.send ctrl p] s = (s.answered ctrl p r, match r with | .ok => .done | .fail kind => .failed kind) := by
  rw [answerAt_zero] at ha
  cases r <;> simp only [sendAll, transact_some ha]

/-- The clamped level is a byte (R116). -/
theorem contrastByte_toNat {c : Config} (h : c.valid = true) (level : Int) :
    ((contrastByte c level).toNat : Int) = max c.contrastMin (min level c.contrastMax) := by
  have := valid_facts h
  simp only [contrastByte, clamp, BitVec.toNat_ofInt]
  omega

end Sys2Proof.Machine
end

