-- ==== Sys2Proof/Laws/Transitions.lean ====
section
/-! SUPPORT. Responses, control states and command frames: what can come of each instruction (42_controller_ops.md R100 to
R120, 60_exceptions.md R125 to R134). -/

namespace Sys2Proof.Machine
open State

/-- The last event of a run that failed is its failed transaction (R79). -/
theorem sendAll_failed_last (items : List Item) (s : State) : ∀ kind, (sendAll items s).2 = .failed kind →
    ∃ before ctrl payload, (sendAll items s).1.hist = before ++ [.txn s.cfg.devAddr ctrl payload (.fail kind)] := by
  refine sendAll_induct (P := fun _ s r => ∀ kind, r.2 = .failed kind →
    ∃ before ctrl payload, r.1.hist = before ++ [.txn s.cfg.devAddr ctrl payload (.fail kind)]) ?_ ?_ ?_ ?_ ?_ ?_ ?_ ?_ items s
  · simp
  · intro rest s r h; exact h
  · intro ctrl payload rest s r _ h kind hk; have := h kind hk; rwa [answered_cfg] at this
  · intro ctrl payload rest s kind _ k hk
    simp only [Sent.failed.injEq] at hk; subst hk
    exact ⟨_, _, _, answered_hist ..⟩
  · simp
  · intro n rest s r _ h kind hk; have := h kind hk; simpa using this
  · intro n rest s kind _ k hk
    simp only [Sent.failed.injEq] at hk; subst hk
    exact ⟨_, _, _, answered_hist ..⟩
  · simp

/-- Items that are all command frames. -/
def allCommands (c : Config) (items : List Item) : Prop := ∀ i ∈ items, ∃ p, i = .send c.ctrlCmd p

theorem allCommands_commandItems (c : Config) (groups : List (List Byte)) : allCommands c (commandItems c groups) := by
  intro i hi
  simp only [commandItems, List.mem_map] at hi
  obtain ⟨g, _, rfl⟩ := hi
  exact ⟨g, rfl⟩

/-- A run of command frames leaves `wp` alone and sends command bytes only. -/
theorem sendAll_commands {items : List Item} : ∀ {s : State}, allCommands s.cfg items →
    (sendAll items s).1.wp = s.wp ∧ ∃ es, (sendAll items s).1.hist = s.hist ++ es ∧
      ∀ addr ctrl payload r, .txn addr ctrl payload r ∈ es → ctrl = s.cfg.ctrlCmd := by
  induction items with
  | nil => intro s _; exact ⟨rfl, [], by simp [sendAll], by simp⟩
  | cons i rest ih =>
    intro s h
    obtain ⟨p, rfl⟩ := h i (by simp)
    have hr : allCommands s.cfg rest := fun j hj => h j (by simp [hj])
    simp only [sendAll]
    rcases ha : s.phyAnswer with _ | _ | kind
    · rw [transact_none ha]; exact ⟨by simp, [], by simp, by simp⟩
    · rw [transact_some ha]
      obtain ⟨h1, es, h2, h3⟩ := ih (s := s.answered s.cfg.ctrlCmd p .ok) (by simpa using hr)
      refine ⟨by simpa using h1, .txn s.cfg.devAddr s.cfg.ctrlCmd p .ok :: es, ?_, ?_⟩
      · simpa using h2
      · intro addr ctrl payload r hm
        rcases List.mem_cons.mp hm with he | he
        · injection he
        · simpa using h3 addr ctrl payload r he
    · rw [transact_some ha]
      refine ⟨by simp, [.txn s.cfg.devAddr s.cfg.ctrlCmd p (.fail kind)], by simp, ?_⟩
      intro addr ctrl payload r hm
      simp only [List.mem_singleton] at hm
      injection hm

/-- The end of a run, as far as the response goes. -/
theorem finish_response {op : Instr} {onOk onFail : State → State} {s : State} (items : List Item)
    (h1 : ∀ u : State, ∃ c d f, onOk u = { u with ctl := c, disp := d, fb := f } ∧
        (f = u.fb ∨ (op = .init ∧ f = Memory.fill u.cfg.size 0x00#8)))
    (h2 : ∀ u : State, ∃ c, onFail u = { u with ctl := c }) :
    let t := finish op onOk onFail (sendAll items s)
    t.responses = s.responses ∨ t.responses = s.responses ++ [⟨.ok, []⟩] ∨
      ∃ kind, t.responses = s.responses ++ [⟨.transport kind, []⟩] ∧
        ∃ before ctrl payload, t.hist = before ++ [.txn s.cfg.devAddr ctrl payload (.fail kind), .rel] := by
  have hs := sendAll_same items s
  rcases finish_cases op onOk onFail (sendAll items s) with ⟨_, h⟩ | ⟨k, hk, h⟩ | ⟨rest, _, h⟩ <;> simp only [h]
  · obtain ⟨c, d, f, ho, hf⟩ := h1 (sendAll items s).1
    rw [ho]; right; left; simp [hs.responses]
  · obtain ⟨c, ho⟩ := h2 (sendAll items s).1
    obtain ⟨b, ctrl, p, hl⟩ := sendAll_failed_last items s k hk
    rw [ho]; right; right
    exact ⟨k, by simp [hs.responses], b, ctrl, p, by simp [hl]⟩
  · left; exact hs.responses

/-- Every response an instruction can give, and where it comes from (R60, R125, R132). -/
theorem exec_response {s t : State} {i : Instr} (h : exec i s = .next t) :
    t.responses = s.responses ∨ (∃ data, t.responses = s.responses ++ [⟨.ok, data⟩]) ∨
    (∃ e, stateCheck i s.ctl = some e ∧ s.activity = none ∧ t = s.raise e) ∨
      (isController i = true ∧ ∃ kind, t.responses = s.responses ++ [⟨.transport kind, []⟩] ∧
        ∃ before ctrl payload, t.hist = before ++ [.txn s.cfg.devAddr ctrl payload (.fail kind), .rel]) := by
  rcases instr_kinds s.cfg i with hi | hi | ⟨w, hi⟩
  · obtain ⟨_, _, f, d, rfl, _⟩ := exec_framebuffer hi h
    exact .inr (.inl ⟨d, rfl⟩)
  · obtain ⟨hv, ho, accept, onOk, onFail, h0, h1, h2, hk⟩ := exec_controller hi h
    rcases controller_next hk with ⟨e, ha, he, rfl⟩ | ⟨b, hb, hl, hw⟩ | ⟨o, rest, ha, hl, rfl⟩
    · exact .inr (.inr (.inl ⟨e, he, ha, rfl⟩))
    · have hb' : ∃ c, b = {s with ctl := c} := by
        rcases hb with ⟨_, _, rfl⟩ | ⟨_, rfl⟩
        · exact h0 s
        · exact ⟨b.ctl, rfl⟩
      obtain ⟨c, rfl⟩ := hb'
      rcases hw with ⟨hg, rfl⟩ | ⟨hg, rfl⟩
      · exact .inl (by simp)
      · rcases finish_response (s := State.acquired (afterLockPoll {s with ctl := c})) (planOf s.cfg i) h1 h2 with
          h | h | ⟨kind, h, b, ctrl, p, hh⟩
        · exact .inl (by simpa using h)
        · exact .inr (.inl ⟨[], by simpa using h⟩)
        · exact .inr (.inr (.inr ⟨hi, kind, by simpa using h, b, ctrl, p, by simpa using hh⟩))
    · rcases finish_response (s := s) rest h1 h2 with h | h | ⟨kind, h, b, ctrl, p, hh⟩
      · exact .inl h
      · exact .inr (.inl ⟨[], h⟩)
      · exact .inr (.inr (.inr ⟨hi, kind, h, b, ctrl, p, hh⟩))
  · obtain ⟨ctrl, payload, _, he⟩ := exec_wire hi
    rw [he] at h
    obtain ⟨_, _, hk⟩ := gate_next h
    obtain ⟨_, _, ⟨r, _, rfl⟩ | ⟨_, rfl⟩⟩ := framer_next hk
    · exact .inl (by simp)
    · exact .inl (by simp)

theorem stateCheck_error {i : Instr} {c : Ctl} {e : Status} (h : stateCheck i c = some e) :
    (e = .notInitialized ∧ i = .update ∧ c = .uninitialized) ∨
    (e = .alreadyFailed ∧ c = .failed ∧ (i = .update ∨ (∃ flag, i = .setInvert flag) ∨ ∃ level, i = .setContrast level)) := by
  cases i <;> cases c <;> simp [stateCheck, updateCheck, modeCheck] at h <;> simp [← h]

/-- `SET_INVERT` and `SET_CONTRAST` write one field of `disp`, on success only, and neither `ctl` nor `fb` (R112, R115). -/
theorem mode_frame {s t : State} {op : Instr} {plan : List Item} {d : Config → Disp → Disp}
    (h : s.controller op plan id (fun s => { s with disp := d s.cfg s.disp }) id = .next t) :
    t.ctl = s.ctl ∧ t.fb = s.fb ∧ (t.disp = s.disp ∨ t.disp = d s.cfg s.disp) := by
  have fin : ∀ items u, u.ctl = s.ctl → u.fb = s.fb → u.cfg = s.cfg → u.disp = s.disp →
      finish op (fun s => { s with disp := d s.cfg s.disp }) id (sendAll items u) = t →
      t.ctl = s.ctl ∧ t.fb = s.fb ∧ (t.disp = s.disp ∨ t.disp = d s.cfg s.disp) := by
    rintro items u h1 h2 h3 h4 rfl
    have hu := sendAll_same items u
    rcases finish_cases op (fun s => { s with disp := d s.cfg s.disp }) id (sendAll items u) with
      ⟨_, h⟩ | ⟨k, _, h⟩ | ⟨rest, _, h⟩ <;> rw [h]
    · exact ⟨hu.ctl.trans h1, hu.fb.trans h2, .inr (by simp [hu.cfg, hu.disp, h3, h4])⟩
    · exact ⟨hu.ctl.trans h1, hu.fb.trans h2, .inl (hu.disp.trans h4)⟩
    · exact ⟨hu.ctl.trans h1, hu.fb.trans h2, .inl (hu.disp.trans h4)⟩
  rcases controller_next h with ⟨e, ha, he, rfl⟩ | ⟨b, hb, hl, hw⟩ | ⟨o, rest, ha, hl, rfl⟩
  · exact ⟨rfl, rfl, .inl rfl⟩
  · have : b = s := by rcases hb with ⟨_, _, h⟩ | ⟨_, h⟩ <;> exact h
    subst this
    rcases hw with ⟨_, rfl⟩ | ⟨_, rfl⟩
    · exact ⟨by simp, by simp, .inl (by simp)⟩
    · exact fin _ _ (by simp) (by simp) (by simp) (by simp) rfl
  · exact fin _ _ rfl rfl rfl rfl rfl

theorem execSetInvert_frame {s t : State} {flag : Bool} (h : exec (.setInvert flag) s = .next t) :
    t.ctl = s.ctl ∧ t.fb = s.fb ∧ (t.disp = s.disp ∨ t.disp = { s.disp with inverted := flag }) :=
  mode_frame (d := fun _ d => { d with inverted := flag }) (gate_next h).2.2

theorem execSetContrast_frame {s t : State} {level : Int} (h : exec (.setContrast level) s = .next t) :
    t.ctl = s.ctl ∧ t.fb = s.fb ∧ (t.disp = s.disp ∨ t.disp = { s.disp with contrast := contrastByte s.cfg level }) :=
  mode_frame (d := fun c d => { d with contrast := contrastByte c level }) (gate_next h).2.2

/-- The framer's own calls write the bus side only (R72). -/
theorem exec_wire_next {s t : State} {i : Instr} {w : WireCode} (hi : encode s.cfg i = .wire w) (h : exec i s = .next t) :
    t.ctl = s.ctl ∧ t.disp = s.disp ∧ t.fb = s.fb ∧ t.wp = s.wp ∧ t.responses = s.responses := by
  obtain ⟨ctrl, payload, _, he⟩ := exec_wire hi
  rw [he] at h
  obtain ⟨_, _, hk⟩ := gate_next h
  obtain ⟨_, _, ⟨r, _, rfl⟩ | ⟨_, rfl⟩⟩ := framer_next hk <;> simp

theorem suffix_commands {c : Config} {a b : List Item} (h : a <:+ b) (hb : allCommands c b) : allCommands c a :=
  fun i hi => hb i (h.subset hi)

/-- What the invariant says of an operation that waits for the PHY (R25). -/
theorem Inv_sending {s : State} (hs : s.Inv) {o : Instr} {rest : List Item} (h : s.activity = some ⟨o, .sending rest⟩) :
    isController o = true ∧ s.lock = true ∧ (s.ctl = .updating ↔ o = .update) ∧
      startsWithTxn rest = true ∧ rest <:+ planOf s.cfg o ∧ itemsOk s.cfg s.wp rest = true := by
  have := hs.activity
  unfold activityOk at this
  rw [h] at this
  exact this

/-- The four display-controller operations are the common shape of R100, with these properties of what each does to `ctl`
when it is accepted, when it succeeds and when it fails (R120). -/
theorem exec_shape {i : Instr} (hi : isController i = true) : ∃ accept onOk onFail : State → State,
    (∀ u : State, ∃ c, accept u = { u with ctl := c }) ∧
    (∀ u : State, ∃ c d f, onOk u = { u with ctl := c, disp := d, fb := f } ∧
      (f = u.fb ∨ (i = .init ∧ f = Memory.fill u.cfg.size 0x00#8))) ∧
    (∀ u : State, ∃ c, onFail u = { u with ctl := c }) ∧
    (∀ u : State, u.ctl ≠ .updating → ((accept u).ctl = .updating ↔ i = .update)) ∧
    (∀ u : State, (u.ctl = .updating ↔ i = .update) → (onOk u).ctl ≠ .updating) ∧
    (∀ u : State, (u.ctl = .updating ↔ i = .update) → (onFail u).ctl ≠ .updating) ∧
    ∀ s : State, s.cfg.valid = true → s.overlaps i = false → s.fb.wf s.cfg.size = true →
      exec i s = s.controller i (planOf s.cfg i) accept onOk onFail := by
  cases i <;> simp only [isController, Bool.false_eq_true] at hi
  case init =>
    exact ⟨_, _, _, fun u => ⟨u.ctl, rfl⟩, fun u => ⟨_, _, _, rfl, .inr ⟨rfl, rfl⟩⟩, fun u => ⟨_, rfl⟩,
      by simp, by simp, by simp, fun s hv ho _ => gate_open hv ho _⟩
  case update =>
    refine ⟨_, _, _, fun u => ⟨_, rfl⟩, fun u => ⟨_, _, _, rfl, .inl rfl⟩, fun u => ⟨_, rfl⟩,
      by simp, by simp, by simp, fun s hv ho hw => (gate_open hv ho _).trans (if_pos ?_)⟩
    simp [updateReads, memRead_eq hw (a := 0) (size_pos hv) (by omega)]
  case setInvert flag =>
    exact ⟨_, _, _, fun u => ⟨u.ctl, rfl⟩, fun u => ⟨_, _, _, rfl, .inl rfl⟩, fun u => ⟨u.ctl, rfl⟩,
      by simp, by simp, by simp, fun s hv ho _ => gate_open hv ho _⟩
  case setContrast level =>
    exact ⟨_, _, _, fun u => ⟨u.ctl, rfl⟩, fun u => ⟨_, _, _, rfl, .inl rfl⟩, fun u => ⟨u.ctl, rfl⟩,
      by simp, by simp, by simp, fun s hv ho _ => gate_open hv ho _⟩

end Sys2Proof.Machine
end

