-- ==== Sys2Proof/Laws/Waiting.lean ====
section
/-! SUPPORT. Framer calls, waits for the lock and the PHY, and what changes the panel (40_framer.md R72 to R77,
70_reset_and_hazards.md R157). -/

namespace Sys2Proof.Machine
open State

theorem FramerReady_exec {s : State} {payload : List Byte} {r : TxnResult} (hs : s.FramerReady payload) (ha : s.answerAt 0 = some r)
    (op : Instr) (ctrl : Byte) :
    s.gate op (s.framer op ctrl payload) = .next { s.answered ctrl payload r with framerReturn := some r, activity := none } := by
  rw [gate_open hs.config (overlaps_none hs.none _)]
  exact framer_answered hs.lock hs.length (by rw [← answerAt_zero]; exact ha)

theorem answered_eq (s : State) (ctrl : Byte) (payload : List Byte) (r : TxnResult) :
    s.answered ctrl payload r = { s with
      hist := s.hist ++ [.txn s.cfg.devAddr ctrl payload r]
      env := (s.answered ctrl payload r).env
      panel := s.panel.receive s.cfg s.env.panelDraws ctrl payload r } := by
  have := (SameButBus.answered ctrl payload r s).eq
  rw [answered_hist, answered_panel, answered_wp] at this
  exact this

theorem receive_command (c : Config) (draw : Nat) (payload : List Byte) (p : Panel) :
    p.receive c draw c.ctrlCmd payload .ok = p.commandStream draw payload := by simp [Panel.receive, delivered]

/-- A poll of the lock changes the environment only. -/
theorem afterLockPoll_eq (s : State) : s.afterLockPoll = { s with env := s.afterLockPoll.env } := by
  unfold afterLockPoll; split <;> rfl

/-- A poll of the PHY changes the environment only. -/
theorem afterPhyPoll_eq (s : State) : s.afterPhyPoll = { s with env := s.afterPhyPoll.env } := by
  unfold afterPhyPoll; split <;> rfl

/-- An accepted operation that finds the lock not granted waits (R76). -/
theorem controller_ungranted {s : State} {op : Instr} {plan : List Item} {accept onOk onFail : State → State}
    (ha : s.activity = none) (hc : stateCheck op s.ctl = none) (hl : s.lock = false)
    (hg : (accept s).lockGranted = false) :
    s.controller op plan accept onOk onFail =
      .next { (accept s).afterLockPoll with activity := some ⟨op, .lockWait⟩ } := by
  simp [controller, enterBracket, ha, hc, hl, hg]

theorem ready_of_le {s : State} {p q : List Byte} (h : s.FramerReady p) (h1 : 1 ≤ q.length) (h2 : q.length ≤ p.length) : s.FramerReady q :=
  ⟨h.config, h.none, h.lock, by have := h.length; simp [payloadOk] at this ⊢; omega⟩

/-- A waiting operation polls the lock once per step, and runs its bracket when it is granted (R76). -/
theorem step_lockWait {s : State} {op : Instr} (hs : s.Inv) (ha : s.activity = some ⟨op, .lockWait⟩) :
    (s.grantAt 0 = false → step s = .next s.afterLockPoll) ∧
    (s.grantAt 0 = true → ∃ onOk onFail : State → State,
      (∀ u : State, ∃ c d f, onOk u = { u with ctl := c, disp := d, fb := f } ∧
        (f = u.fb ∨ (op = .init ∧ f = Memory.fill u.cfg.size 0x00#8))) ∧
      (∀ u : State, ∃ c, onFail u = { u with ctl := c }) ∧
      step s = .next (finish op onOk onFail (sendAll (planOf s.cfg op) s.afterLockPoll.acquired))) := by
  have h1 := hs.activity
  unfold activityOk at h1; rw [ha] at h1
  obtain ⟨hi, hl, hc⟩ := h1
  have hstep : step s = exec op s := by simp [step, fetch, ha, configured_valid hs.config]
  obtain ⟨accept, onOk, onFail, _, h1, h2, _, _, _, hx⟩ := exec_shape hi
  rw [hstep, hx s hs.config ((overlaps_some ha _).mpr rfl) hs.buffer, grantAt_zero]
  constructor
  · intro hg
    have : ({ s.afterLockPoll with activity := some ⟨op, .lockWait⟩ } : State) = s.afterLockPoll := by
      have := afterLockPoll_activity s; rw [ha] at this; rw [← this]
    simp only [controller, ha, enterBracket]
    rw [if_neg (by simp [hl]), if_neg (by simp [hg])]
    exact congrArg _ this
  · intro hg
    exact ⟨onOk, onFail, h1, h2, by simp [controller, ha, hl, enterBracket, hg]⟩

/-- With an answer to every transaction a run of items does not wait. -/
theorem sendAll_answered (items : List Item) : ∀ {s : State}, (∀ k, k < items.length → s.answerAt k ≠ none) →
    ∀ rest, (sendAll items s).2 ≠ .waiting rest := by
  induction items with
  | nil => intro s _ rest; simp [sendAll]
  | cons item items ih =>
    intro s h
    have h0 : s.phyAnswer ≠ none := by rw [← answerAt_zero]; exact h 0 (by simp)
    cases item with
    | rewind =>
      have h' : ∀ k, k < items.length → ({ s with wp := 0 } : State).answerAt k ≠ none := fun k hk => h k (by simp; omega)
      exact ih h'
    | send ctrl payload =>
      rcases ha : s.phyAnswer with _ | _ | kind
      · exact absurd ha h0
      · simp only [sendAll, transact_some ha]
        exact ih fun k hk => by rw [answered_answerAt]; exact h (k + 1) (by simpa using hk)
      · simp [sendAll, transact_some ha]
    | chunk n =>
      rcases ha : s.phyAnswer with _ | _ | kind
      · exact absurd ha h0
      · simp only [sendAll, writeData, transact_some ha]
        exact ih fun k hk => by
          have : ∀ w, ({ s.answered s.cfg.ctrlData (s.fb.bytes s.wp n) .ok with wp := w } : State).answerAt k =
            (s.answered s.cfg.ctrlData (s.fb.bytes s.wp n) .ok).answerAt k := fun _ => rfl
          rw [this, answered_answerAt]; exact h (k + 1) (by simpa using hk)
      · simp [sendAll, writeData, transact_some ha]

theorem Inv_afterLockPoll {s : State} (hs : s.Inv) : s.afterLockPoll.Inv := by
  rw [afterLockPoll_eq]
  exact ⟨hs.config, hs.buffer, hs.pointer, hs.ram, hs.noCall, hs.activity, hs.bus⟩

/-- A command does not reach the RAM (R32). -/
@[simp] theorem command_gd (draw : Nat) (p : Panel) (c : PanelCommand) : (Panel.command draw p c).gd = p.gd := by
  cases c <;> rfl

@[simp] theorem commandStream_gd (draw : Nat) (payload : List Byte) (p : Panel) : (p.commandStream draw payload).gd = p.gd := by
  unfold Panel.commandStream
  generalize parseCommands payload.length payload = cs
  induction cs generalizing p with
  | nil => rfl
  | cons x cs ih => rw [List.foldl_cons, ih, command_gd]

/-- Only a data transaction reaches the RAM (R32). -/
theorem receive_gd {c : Config} {draw : Nat} {ctrl : Byte} {payload : List Byte} {r : TxnResult} {p : Panel}
    (h : (p.receive c draw ctrl payload r).gd ≠ p.gd) : ctrl = c.ctrlData := by
  unfold Panel.receive at h
  split_ifs at h with h1 h2
  · simp at h
  · exact h2
  · simp at h

/-- What events show of a change of the panel: a transaction, and for a change of its RAM a data transaction. -/
def panelEvents (s t : State) (es : List Event) : Prop :=
  (t.panel ≠ s.panel → ∃ addr ctrl payload r, .txn addr ctrl payload r ∈ es) ∧
  (t.panel.gd ≠ s.panel.gd → ∃ addr payload r, .txn addr s.cfg.ctrlData payload r ∈ es)

theorem panelEvents_same {s t : State} (h : t.panel = s.panel) (es : List Event) : panelEvents s t es := by
  simp [panelEvents, h]

theorem panelEvents_mono {s t : State} {es es' : List Event} (h : panelEvents s t es) (hs : es ⊆ es') : panelEvents s t es' :=
  ⟨fun hp => by obtain ⟨a, b, c, d, hm⟩ := h.1 hp; exact ⟨a, b, c, d, hs hm⟩,
    fun hp => by obtain ⟨a, b, c, hm⟩ := h.2 hp; exact ⟨a, b, c, hs hm⟩⟩

/-- One transaction, and then whatever changes the panel afterwards. -/
theorem panelEvents_answered {s u t : State} {ctrl : Byte} {payload : List Byte} {r : TxnResult} {es : List Event}
    (hu : u.panel = (s.answered ctrl payload r).panel) (hc : u.cfg = s.cfg) (h : panelEvents u t es) :
    panelEvents s t (.txn s.cfg.devAddr ctrl payload r :: es) := by
  refine ⟨fun _ => ⟨_, _, _, _, List.mem_cons_self⟩, fun hg => ?_⟩
  by_cases he : u.panel.gd = s.panel.gd
  · obtain ⟨a, b, c, hm⟩ := h.2 (by rw [he]; exact hg)
    exact ⟨a, b, c, List.mem_cons_of_mem _ (hc ▸ hm)⟩
  · rw [hu, answered_panel] at he
    exact ⟨_, _, _, by rw [← receive_gd he]; exact List.mem_cons_self⟩

/-- A run of items changes the panel by its transactions only. -/
theorem sendAll_panel (items : List Item) (s : State) : ∃ es, (sendAll items s).1.hist = s.hist ++ es ∧
    panelEvents s (sendAll items s).1 es := by
  refine sendAll_induct (P := fun _ s r => ∃ es, r.1.hist = s.hist ++ es ∧ panelEvents s r.1 es) ?_ ?_ ?_ ?_ ?_ ?_ ?_ ?_ items s
  · intro s; exact ⟨[], by simp, panelEvents_same rfl _⟩
  · intro rest s r h; exact h
  · rintro ctrl payload rest s r _ ⟨es, h, hp⟩
    exact ⟨_ :: es, by rw [h]; simp, panelEvents_answered rfl (by simp) hp⟩
  · intro ctrl payload rest s kind _
    exact ⟨[_], by simp, panelEvents_answered rfl (by simp) (panelEvents_same rfl [])⟩
  · intro ctrl payload rest s _; exact ⟨[], by simp, panelEvents_same (by simp) _⟩
  · rintro n rest s r _ ⟨es, h, hp⟩
    exact ⟨_ :: es, by rw [h]; simp, panelEvents_answered rfl (by simp) hp⟩
  · intro n rest s kind _
    exact ⟨[_], by simp, panelEvents_answered rfl (by simp) (panelEvents_same rfl [])⟩
  · intro n rest s _; exact ⟨[], by simp, panelEvents_same (by simp) _⟩

/-- So does the end of an operation, whatever it writes. -/
theorem finish_panel {op : Instr} {onOk onFail : State → State} {s : State} (items : List Item)
    (h1 : ∀ u : State, ∃ c d f, onOk u = { u with ctl := c, disp := d, fb := f } ∧
        (f = u.fb ∨ (op = .init ∧ f = Memory.fill u.cfg.size 0x00#8)))
    (h2 : ∀ u : State, ∃ c, onFail u = { u with ctl := c }) :
    ∃ es, (finish op onOk onFail (sendAll items s)).hist = s.hist ++ es ∧
      panelEvents s (finish op onOk onFail (sendAll items s)) es := by
  obtain ⟨es, he, hp⟩ := sendAll_panel items s
  rcases finish_cases op onOk onFail (sendAll items s) with ⟨_, h⟩ | ⟨k, _, h⟩ | ⟨rest, _, h⟩ <;> rw [h]
  · obtain ⟨c, d, f, ho, hf⟩ := h1 (sendAll items s).1
    rw [ho]
    exact ⟨es ++ [.rel], by simp [he], panelEvents_mono hp (List.subset_append_left _ _)⟩
  · obtain ⟨c, ho⟩ := h2 (sendAll items s).1
    rw [ho]
    exact ⟨es ++ [.rel], by simp [he], panelEvents_mono hp (List.subset_append_left _ _)⟩
  · exact ⟨es, he, hp⟩

end Sys2Proof.Machine
end

