-- ==== Sys2Proof/Laws/Legality.lean ====
section
/-! SUPPORT. Legal states: brackets, runs inside the contract of the framer, and instructions that leave a legal state
(40_framer.md R75, R78, R79, 42_controller_ops.md R110, R120). -/

namespace Sys2Proof.Machine
open State

/-- The panel's RAM stays whole, whatever it is sent (R45). -/
theorem Panel.store_wf {n : Nat} {p : Panel} (h : p.gd.wf n = true) (b : Byte) : (p.store b).gd.wf n = true :=
  Memory.write_wf h _ _

theorem Panel.storeAll_wf {n : Nat} (bytes : List Byte) : ∀ {p : Panel} (_ : p.gd.wf n = true),
    (Panel.storeAll bytes p).1.gd.wf n = true := by
  induction bytes with
  | nil => intro p h; exact h
  | cons b bytes ih => intro p h; exact ih (Panel.store_wf h b)

theorem Panel.free_wf (draw : Nat) : (Panel.free draw).gd.wf (Panel.pageCount * Panel.columns) = true := Memory.ofFn_wf _ _

theorem Panel.command_wf {p : Panel} (h : p.gd.wf (Panel.pageCount * Panel.columns) = true) (draw : Nat) (c : PanelCommand) :
    (Panel.command draw p c).gd.wf (Panel.pageCount * Panel.columns) = true := by
  cases c <;> exact h

theorem Panel.receive_wf {p : Panel} (h : p.gd.wf (Panel.pageCount * Panel.columns) = true) (c : Config) (draw : Nat)
    (ctrl : Byte) (payload : List Byte) (r : TxnResult) :
    (p.receive c draw ctrl payload r).gd.wf (Panel.pageCount * Panel.columns) = true := by
  unfold Panel.receive
  split_ifs
  · generalize delivered draw payload r = d
    unfold Panel.commandStream
    generalize parseCommands d.length d = cs
    induction cs generalizing p with
    | nil => exact h
    | cons x cs ih => exact ih (Panel.command_wf h draw x)
  · unfold Panel.dataStream
    split_ifs
    · exact h
    · exact Panel.storeAll_wf _ h
    · exact Panel.free_wf draw
    · exact Panel.free_wf draw
  · exact h

theorem busAfter_append (c : Config) (e : Event) (es : List Event) : ∀ b,
    busAfter c b (es ++ [e]) = (busAfter c b es).bind fun b' => busNext c b' e := by
  induction es with
  | nil => intro b; simp only [List.nil_append, busAfter]; cases h : busNext c b e <;> simp [h]
  | cons x es ih =>
    intro b
    simp only [List.cons_append, busAfter]
    cases busNext c b x
    · rfl
    · exact ih _

/-- Inside a bracket, between two transactions. -/
def bracketOpen (s : State) : Prop :=
  busAfter s.cfg .free s.hist = some .opened ∨ busAfter s.cfg .free s.hist = some .held

theorem bracketOpen_ok {s : State} {ctrl : Byte} {payload : List Byte} (h : bracketOpen s)
    (hc : ctrl = s.cfg.ctrlCmd ∨ ctrl = s.cfg.ctrlData) (hp : payloadOk s.cfg payload = true) :
    busAfter s.cfg .free (s.answered ctrl payload .ok).hist = some .held := by
  have : txnOk s.cfg s.cfg.devAddr ctrl payload = true := by simp [txnOk, hc, hp]
  rw [answered_hist, busAfter_append]
  rcases h with h | h <;> simp [h, busNext, this]

theorem bracketOpen_fail {s : State} {ctrl : Byte} {payload : List Byte} {kind : FailKind} (h : bracketOpen s)
    (hc : ctrl = s.cfg.ctrlCmd ∨ ctrl = s.cfg.ctrlData) (hp : payloadOk s.cfg payload = true) :
    busAfter s.cfg .free (s.answered ctrl payload (.fail kind)).hist = some .broken := by
  have : txnOk s.cfg s.cfg.devAddr ctrl payload = true := by simp [txnOk, hc, hp]
  rw [answered_hist, busAfter_append]
  rcases h with h | h <;> simp [h, busNext, this]

/-- What a run of items inside the framer's contract leaves (R75, R78, R79, R110). -/
structure RunOk (items : List Item) (s : State) (r : State × Sent) : Prop where
  pointer : r.1.wp ≤ s.cfg.size
  ram     : r.1.panel.gd.wf (Panel.pageCount * Panel.columns) = true
  sent    : match r.2 with
    | .done => busAfter s.cfg .free r.1.hist = some .held ∨
        (r.1.hist = s.hist ∧ itemPayloads s.cfg s.fb s.wp items = [])
    | .failed _ => busAfter s.cfg .free r.1.hist = some .broken
    | .waiting rest => bracketOpen r.1 ∧ startsWithTxn rest = true ∧ rest <:+ items ∧ itemsOk s.cfg r.1.wp rest = true

theorem sendAll_runOk (items : List Item) (s : State) : s.fb.wf s.cfg.size = true → s.wp ≤ s.cfg.size →
    s.panel.gd.wf (Panel.pageCount * Panel.columns) = true → bracketOpen s → itemsOk s.cfg s.wp items = true →
    RunOk items s (sendAll items s) := by
  refine sendAll_induct (P := fun items s r => s.fb.wf s.cfg.size = true → s.wp ≤ s.cfg.size →
    s.panel.gd.wf (Panel.pageCount * Panel.columns) = true → bracketOpen s → itemsOk s.cfg s.wp items = true →
    RunOk items s r) ?_ ?_ ?_ ?_ ?_ ?_ ?_ ?_ items s
  · intro s hw hp hr hb hi; exact ⟨hp, hr, .inr ⟨rfl, rfl⟩⟩
  · intro rest s r ih hw hp hr hb hi
    obtain ⟨h1, h2, h3⟩ := ih hw (Nat.zero_le _) hr hb hi
    refine ⟨h1, h2, ?_⟩
    revert h3
    cases r.2 with
    | done => exact id
    | failed => exact id
    | waiting rest' => intro ⟨a, b, c, d⟩; exact ⟨a, b, c.trans (List.suffix_cons _ _), d⟩
  · intro ctrl payload rest s r ha ih hw hp hr hb hi
    simp only [itemsOk, Bool.and_eq_true, beq_iff_eq] at hi
    obtain ⟨⟨hc, hpl⟩, hi⟩ := hi
    have hheld := bracketOpen_ok hb (.inl hc) hpl
    obtain ⟨h1, h2, h3⟩ := ih (by simpa using hw) (by simpa using hp) (by rw [answered_panel]; exact Panel.receive_wf hr _ _ _ _ _)
      (.inr (by rw [answered_cfg]; exact hheld)) (by simpa using hi)
    refine ⟨by simpa using h1, h2, ?_⟩
    revert h3
    cases r.2 with
    | done =>
      rintro (h3 | ⟨h3, _⟩)
      · exact .inl (by simpa using h3)
      · exact .inl (by rw [h3]; exact hheld)
    | failed => intro h3; simpa using h3
    | waiting rest' => intro ⟨a, b, c, d⟩; exact ⟨a, b, c.trans (List.suffix_cons _ _), by simpa using d⟩
  · intro ctrl payload rest s kind ha hw hp hr hb hi
    simp only [itemsOk, Bool.and_eq_true, beq_iff_eq] at hi
    obtain ⟨⟨hc, hpl⟩, hi⟩ := hi
    exact ⟨by simpa using hp, by rw [answered_panel]; exact Panel.receive_wf hr _ _ _ _ _, bracketOpen_fail hb (.inl hc) hpl⟩
  · intro ctrl payload rest s ha hw hp hr hb hi
    exact ⟨by simpa using hp, by simpa using hr, by simpa [bracketOpen] using hb, rfl, List.suffix_refl _, by simpa using hi⟩
  · intro n rest s r ha ih hw hp hr hb hi
    simp only [itemsOk, Bool.and_eq_true, decide_eq_true_eq] at hi
    obtain ⟨⟨⟨hc, hpl⟩, hn⟩, hi⟩ := hi
    have hlen := Memory.bytes_length hw hn
    have hheld := bracketOpen_ok (ctrl := s.cfg.ctrlData) (payload := s.fb.bytes s.wp n) hb (.inr rfl) (by simp [payloadOk, hlen]; omega)
    obtain ⟨h1, h2, h3⟩ := ih (by simpa using hw) (by simpa using hn) (by simp only [answered_panel]; exact Panel.receive_wf hr _ _ _ _ _)
      (.inr (by simpa using hheld)) (by simpa using hi)
    refine ⟨by simpa using h1, h2, ?_⟩
    revert h3
    cases r.2 with
    | done =>
      rintro (h3 | ⟨h3, _⟩)
      · exact .inl (by simpa using h3)
      · exact .inl (by rw [h3]; exact hheld)
    | failed => intro h3; simpa using h3
    | waiting rest' => intro ⟨a, b, c, d⟩; exact ⟨a, b, c.trans (List.suffix_cons _ _), by simpa using d⟩
  · intro n rest s kind ha hw hp hr hb hi
    simp only [itemsOk, Bool.and_eq_true, decide_eq_true_eq] at hi
    obtain ⟨⟨⟨hc, hpl⟩, hn⟩, hi⟩ := hi
    have hlen := Memory.bytes_length hw hn
    exact ⟨by simpa using hp, by rw [answered_panel]; exact Panel.receive_wf hr _ _ _ _ _,
      bracketOpen_fail hb (.inr rfl) (by simp [payloadOk, hlen]; omega)⟩
  · intro n rest s ha hw hp hr hb hi
    exact ⟨by simpa using hp, by simpa using hr, by simpa [bracketOpen] using hb, rfl, List.suffix_refl _, by simpa using hi⟩

theorem itemsOk_commandItems {c : Config} {groups : List (List Byte)} (h : ∀ g ∈ groups, payloadOk c g = true) (rest : List Item) : ∀ wp,
    itemsOk c wp (commandItems c groups ++ rest) = itemsOk c wp rest := by
  induction groups with
  | nil => intro wp; rfl
  | cons g groups ih =>
    intro wp
    have h1 := h g (by simp)
    have h2 := ih (fun g hg => h g (by simp [hg])) wp
    simp only [commandItems, List.map_cons, List.cons_append, itemsOk, beq_self_eq_true, h1, Bool.true_and]
    exact h2

theorem itemsOk_chunks {c : Config} (hm : 1 ≤ c.maxTxn) : ∀ (fuel n wp : Nat), wp + n ≤ c.size →
    itemsOk c wp ((chunkSizes c.maxTxn fuel n).map .chunk) = true := by
  intro fuel
  induction fuel with
  | zero => intro n wp _; rfl
  | succ fuel ih =>
    intro n wp h
    by_cases h0 : n = 0
    · simp [chunkSizes, h0, itemsOk]
    · simp only [chunkSizes, if_neg h0, List.map_cons, itemsOk, Bool.and_eq_true, decide_eq_true_eq]
      exact ⟨⟨⟨by omega, by omega⟩, by omega⟩, ih _ _ (by omega)⟩

/-- Everything an operation sends is inside the framer's contract (R5, R75, R110). -/
theorem itemsOk_plan {c : Config} (h : c.valid = true) {i : Instr} (hi : isController i = true) {wp : Nat} :
    itemsOk c wp (planOf c i) = true := by
  have hf := valid_facts h
  cases i <;> simp only [isController, Bool.false_eq_true] at hi
  · have := itemsOk_commandItems hf.2.2.2.2.1 [] wp
    rw [List.append_nil] at this
    exact this
  · rw [planOf, updatePlan, itemsOk_commandItems hf.2.2.2.2.2.1]
    exact itemsOk_chunks (by omega) _ _ _ (by omega)
  · simp [planOf, invertPlan, commandItems, itemsOk, payloadOk]; omega
  · simp [planOf, contrastPlan, commandItems, itemsOk, payloadOk]; omega

/-- An operation with nothing to send is an `INIT` with an empty `INIT_SEQ` (R102 (a)). -/
theorem plan_empty {s : State} (h : s.cfg.valid = true) (hw : s.fb.wf s.cfg.size = true) {i : Instr} (hi : isController i = true) {wp : Nat}
    (he : itemPayloads s.cfg s.fb wp (planOf s.cfg i) = []) : i = .init ∧ s.cfg.initSeq = [] := by
  cases i <;> simp only [isController, Bool.false_eq_true] at hi
  · exact ⟨rfl, by rw [planOf, initPlan, itemPayloads_commandItems] at he; simpa using he⟩
  · exfalso
    have hm := valid_maxTxn h
    have h1 : 0 < chunkCount s.cfg := (lt_chunkCount hm).mpr (by have := size_pos h; omega)
    rw [planOf, updatePlan_eq hm, itemPayloads_append] at he
    simp only [itemPayloads, itemPayloads_chunkItems hm hw _ (le_refl _)] at he
    simp at he; omega
  · simp [planOf, invertPlan] at he
  · simp [planOf, contrastPlan] at he

/-- How an instruction that was run leaves the machine: legal, and either responded or still in progress. -/
structure RanLegally (s t : State) : Prop where
  inv  : t.Inv
  resp : (t.responses ≠ s.responses ∧ t.activity = none) ∨ (t.responses = s.responses ∧ t.activity.isSome = true)

/-- A bracket in progress in a legal state, with `items` left to send. -/
structure InBracket (op : Instr) (items : List Item) (u : State) : Prop where
  config  : u.cfg.valid = true
  buffer  : u.fb.wf u.cfg.size = true
  pointer : u.wp ≤ u.cfg.size
  ram     : u.panel.gd.wf (Panel.pageCount * Panel.columns) = true
  noCall  : u.framerCall = none
  lock    : u.lock = true
  open_   : bracketOpen u
  ctl     : u.ctl = .updating ↔ op = .update
  kind    : isController op = true
  suffix  : items <:+ planOf u.cfg op
  ok      : itemsOk u.cfg u.wp items = true
  first   : items = planOf u.cfg op ∨ startsWithTxn items = true

theorem startsWithTxn_payloads {items : List Item} (h : startsWithTxn items = true) (c : Config) (fb : Memory) (wp : Nat) :
    itemPayloads c fb wp items ≠ [] := by
  rcases items with _ | ⟨_ | _ | _, _⟩ <;> simp [startsWithTxn] at h <;> simp [itemPayloads]

/-- The end of a bracket, or its next wait, is legal. -/
theorem finish_legal {op : Instr} {items : List Item} {u : State} {onOk onFail : State → State} (hu : InBracket op items u)
    (h1 : ∀ u : State, ∃ c d f, onOk u = { u with ctl := c, disp := d, fb := f } ∧
      (f = u.fb ∨ (op = .init ∧ f = Memory.fill u.cfg.size 0x00#8)))
    (h2 : ∀ u : State, ∃ c, onFail u = { u with ctl := c })
    (h3 : ∀ u : State, (u.ctl = .updating ↔ op = .update) → (onOk u).ctl ≠ .updating)
    (h4 : ∀ u : State, (u.ctl = .updating ↔ op = .update) → (onFail u).ctl ≠ .updating) :
    RanLegally u (finish op onOk onFail (sendAll items u)) := by
  have hs := sendAll_same items u
  obtain ⟨hp, hr, hsent⟩ := sendAll_runOk items u hu.buffer hu.pointer hu.ram hu.open_ hu.ok
  rcases finish_cases op onOk onFail (sendAll items u) with ⟨hd, h⟩ | ⟨k, hd, h⟩ | ⟨rest, hd, h⟩ <;> rw [h] <;> rw [hd] at hsent
  · have hc := h3 _ (by rw [hs.ctl]; exact hu.ctl)
    obtain ⟨c, d, f, ho, hf⟩ := h1 (sendAll items u).1
    rw [ho] at hc ⊢
    have hbus : (busAfter u.cfg .free (sendAll items u).1.hist).bind (fun b => busNext u.cfg b .rel) = some .free := by
      rcases hsent with hb | ⟨hb, he⟩
      · rw [hb]; rfl
      · rw [hb]
        rcases hu.open_ with ho | ho
        · rw [ho]
          have : items = planOf u.cfg op := by
            rcases hu.first with h | h
            · exact h
            · exact absurd he (startsWithTxn_payloads h _ _ _)
          rw [this] at he
          simp [busNext, (plan_empty hu.config hu.buffer hu.kind he).2]
        · rw [ho]; rfl
    refine ⟨⟨by simpa [hs.cfg] using hu.config, ?_, by simpa [hs.cfg] using hp, by simpa using hr, by simpa [hs.framerCall] using hu.noCall, ⟨rfl, hc⟩, ?_⟩, .inl ⟨by simp [hs.responses], rfl⟩⟩
    · rcases hf with rfl | ⟨_, rfl⟩
      · simpa [hs.cfg, hs.fb] using hu.buffer
      · simp
    · simp only [busOk, respond_lock, release_lock, respond_cfg, release_cfg, respond_hist, release_hist, hs.cfg, busAfter_append]
      simpa using hbus
  · have hc := h4 _ (by rw [hs.ctl]; exact hu.ctl)
    obtain ⟨c, ho⟩ := h2 (sendAll items u).1
    rw [ho] at hc ⊢
    refine ⟨⟨by simpa [hs.cfg] using hu.config, by simpa [hs.cfg, hs.fb] using hu.buffer, by simpa [hs.cfg] using hp, by simpa using hr, by simpa [hs.framerCall] using hu.noCall, ⟨rfl, hc⟩, ?_⟩, .inl ⟨by simp [hs.responses], rfl⟩⟩
    simp only [busOk, raise_lock, release_lock, raise_cfg, release_cfg, raise_hist, release_hist, hs.cfg, busAfter_append, hsent]
    simp [busNext]
  · obtain ⟨hb, hst, hsuf, hok⟩ := hsent
    refine ⟨⟨by simpa [hs.cfg] using hu.config, by simpa [hs.cfg, hs.fb] using hu.buffer, by simpa [hs.cfg] using hp, hr, by simpa [hs.framerCall] using hu.noCall, ?_, ?_⟩, .inr ⟨hs.responses, rfl⟩⟩
    · exact ⟨hu.kind, by simpa [hs.lock] using hu.lock, by simpa [hs.ctl] using hu.ctl, hst, by simpa [hs.cfg] using hsuf.trans hu.suffix, by simpa [hs.cfg] using hok⟩
    · simp only [busOk, hs.lock, hu.lock, if_true]
      exact hb

/-- A display-controller operation that runs in a legal state goes on, and leaves a legal state. -/
theorem exec_controller_legal {s : State} {i : Instr} (hs : s.Inv) (hi : isController i = true) (ho : s.overlaps i = false) :
    ∃ t, exec i s = .next t ∧ RanLegally s t := by
  obtain ⟨accept, onOk, onFail, h0, h1, h2, h5, h3, h4, hx⟩ := exec_shape hi
  rw [hx s hs.config ho hs.buffer]
  have enter : ∀ b : State, (∃ c, b = { s with ctl := c }) → (b.ctl = .updating ↔ i = .update) → s.lock = false →
      RanLegally s (enterBracket i (planOf s.cfg i) onOk onFail b) := by
    rintro b ⟨c, rfl⟩ hc hl
    have hbus := hs.bus
    simp only [busOk, hl, Bool.false_eq_true, if_false] at hbus
    unfold enterBracket
    split_ifs with hg
    · have hin : InBracket i (planOf s.cfg i) (State.acquired (afterLockPoll { s with ctl := c })) := by
        refine ⟨by simpa using hs.config, by simpa using hs.buffer, by simpa using hs.pointer, by simpa using hs.ram, by simpa using hs.noCall, rfl, ?_, by simpa using hc, hi, by simp, by simpa using itemsOk_plan hs.config hi, .inl (by simp)⟩
        left
        simp [busAfter_append, hbus, busNext]
      have := finish_legal hin h1 h2 h3 h4
      exact ⟨this.inv, by simpa using this.resp⟩
    · refine ⟨⟨by simpa using hs.config, by simpa using hs.buffer, by simpa using hs.pointer, by simpa using hs.ram, by simpa using hs.noCall, ⟨hi, by simpa using hl, by simpa using hc⟩, ?_⟩, .inr ⟨by simp, rfl⟩⟩
      simp [busOk, hl, hbus]
  rcases ha : s.activity with _ | ⟨o, _ | rest⟩
  · have hact := hs.activity
    unfold activityOk at hact
    rw [ha] at hact
    obtain ⟨hl, hu⟩ := hact
    rcases hc : stateCheck i s.ctl with _ | e
    · refine ⟨_, by simp only [controller, ha, hc, hl]; rfl, enter _ (h0 s) (h5 s hu) hl⟩
    · refine ⟨_, controller_rejected ha hc, ⟨hs.config, hs.buffer, hs.pointer, hs.ram, hs.noCall, ⟨hl, hu⟩, hs.bus⟩, .inl ⟨by simp, rfl⟩⟩
  · have ho' := (overlaps_some ha _).mp ho
    simp only at ho'; subst ho'
    have hact := hs.activity
    unfold activityOk at hact
    rw [ha] at hact
    obtain ⟨_, hl, hc⟩ := hact
    exact ⟨_, by simp only [controller, ha, hl]; rfl, enter s ⟨s.ctl, rfl⟩ hc hl⟩
  · have ho' := (overlaps_some ha _).mp ho
    simp only at ho'; subst ho'
    obtain ⟨_, hl, hc, hst, hsuf, hok⟩ := Inv_sending hs ha
    have hbus := hs.bus
    simp only [busOk, hl, if_true] at hbus
    exact ⟨_, by simp only [controller, ha, hl]; rfl, finish_legal ⟨hs.config, hs.buffer, hs.pointer, hs.ram, hs.noCall, hl, hbus, hc, hi, hsuf, hok, .inr hst⟩ h1 h2 h3 h4⟩

/-- A framebuffer operation that runs in a legal state goes on, and leaves a legal state. -/
theorem exec_framebuffer_legal {s : State} {i : Instr} (hs : s.Inv)
    (hi : i = .clear ∨ i = .getBuffer ∨ ∃ x y color, i = .setPixel x y color) (ho : s.overlaps i = false) :
    ∃ t, exec i s = .next t ∧ RanLegally s t := by
  have hne : s.activity = none := by
    rcases ha : s.activity with _ | ⟨o, st⟩
    · rfl
    · have h := (overlaps_some ha _).mp ho
      simp only at h; subst h
      have hact := hs.activity
      unfold activityOk at hact
      rw [ha] at hact
      exfalso
      have : isController o = true := by cases st <;> exact hact.1
      rcases hi with rfl | rfl | ⟨x, y, color, rfl⟩ <;> simp [isController] at this
  have hact := hs.activity
  unfold activityOk at hact
  rw [hne] at hact
  suffices H : ∃ t, exec i s = .next t by
    obtain ⟨t, ht⟩ := H
    refine ⟨t, ht, ?_⟩
    obtain ⟨_, _, f, d, rfl, hf⟩ := exec_framebuffer hi ht
    exact ⟨⟨hs.config, hf _ hs.buffer rfl, hs.pointer, hs.ram, hs.noCall, hact, hs.bus⟩, .inl ⟨by simp, rfl⟩⟩
  rcases hi with rfl | rfl | ⟨x, y, color, rfl⟩
  · exact ⟨_, gate_open hs.config ho _⟩
  · exact ⟨_, (gate_open hs.config ho _).trans (by rw [memRead_eq hs.buffer (a := 0) (size_pos hs.config) (by omega)])⟩
  · by_cases hb : inBounds s.cfg x y = true
    · have hxy : x.toNat < s.cfg.width ∧ y.toNat < s.cfg.height := by simp [inBounds] at hb; omega
      have hlt := byteIndex_lt hs.config hxy.1 hxy.2
      obtain ⟨b, h1, _⟩ := memRead_one hs.buffer hlt
      have h3 : ∀ b, s.memWrite (y.toNat / 8 * s.cfg.width + x.toNat) [b] =
          some { s with fb := s.fb.write (y.toNat / 8 * s.cfg.width + x.toNat) b } := by
        intro b; simp only [memWrite, List.length_singleton, Memory.writeAll]; rw [if_pos ⟨le_refl _, hlt⟩]
      exact ⟨_, (gate_open hs.config ho _).trans (by simp only [hb, if_true, byteIndex, h1, h3]; rfl)⟩
    · exact ⟨_, (gate_open hs.config ho _).trans (by rw [if_neg hb])⟩

/-- What a request word decodes to is an operation of the requester. -/
theorem decodeRequest_kind {w : ReqWord} {i : Instr} (h : decodeRequest w = .ok i) :
    (i = .clear ∨ i = .getBuffer ∨ ∃ x y color, i = .setPixel x y color) ∨ isController i = true := by
  unfold decodeRequest at h
  split_ifs at h <;> injection h with h <;> subst h <;> simp [isController]

theorem decodeRequest_error {w : ReqWord} {e : DecodeError} (h : decodeRequest w = .error e) : e = .reservedWord w := by
  unfold decodeRequest at h
  split_ifs at h; injection h with h; exact h.symm

end Sys2Proof.Machine
end

