-- ==== Sys2Proof/Laws/PerInstr.lean ====
section
/-! SUPPORT. Statements about every instruction as syntax, one lemma per constructor: the space and the size of its code
(30_encoding.md R50, R53, R54, R55). -/

namespace Sys2Proof.Laws.CodeSize

/-- A code has the size its space gives it: a request word is one 32-bit word; a frame is its control byte and a payload
of `1 .. MAX_TXN` bytes; a command group is one command byte and at most two argument bytes. -/
def fits (c : Config) : Code → Prop
  | .request _ => True
  | .wire (.frame bytes) => 2 ≤ bytes.length ∧ bytes.length ≤ 1 + c.maxTxn
  | .wire (.group bytes) => 1 ≤ bytes.length ∧ bytes.length ≤ 3

/-- The code of a well-formed instruction has the size of its space. -/
def Statement (i : Instr) : Prop := ∀ c : Config, i.wellFormed c = true → fits c (encode c i)

theorem fits_frame {c : Config} {ctrl : Byte} {payload : List Byte} (h : payloadOk c payload = true) :
    fits c (.wire (.frame (ctrl :: payload))) := by
  simp only [payloadOk, Bool.and_eq_true, decide_eq_true_eq] at h
  simp only [fits, List.length_cons]
  omega

theorem init : Statement .init := fun _ _ => trivial
theorem update : Statement .update := fun _ _ => trivial
theorem setInvert (flag : Bool) : Statement (.setInvert flag) := fun _ _ => trivial
theorem setContrast (level : Int) : Statement (.setContrast level) := fun _ _ => trivial
theorem clear : Statement .clear := fun _ _ => trivial
theorem setPixel (x y : Int) (color : Color) : Statement (.setPixel x y color) := fun _ _ => trivial
theorem getBuffer : Statement .getBuffer := fun _ _ => trivial
theorem cmdFrame (payload : List Byte) : Statement (.cmdFrame payload) := fun _ h => fits_frame h
theorem dataFrame (payload : List Byte) : Statement (.dataFrame payload) := fun _ h => fits_frame h
theorem setMemoryMode (m : Byte) : Statement (.setMemoryMode m) := fun _ _ => by simp [fits, encode]
theorem setMuxRatio (v : Byte) : Statement (.setMuxRatio v) := fun _ _ => by simp [fits, encode]
theorem chargePump (v : Byte) : Statement (.chargePump v) := fun _ _ => by simp [fits, encode]
theorem displayOn : Statement .displayOn := fun _ _ => by simp [fits, encode]
theorem setColumnWindow (a b : Byte) : Statement (.setColumnWindow a b) := fun _ _ => by simp [fits, encode]
theorem setPageWindow (a b : Byte) : Statement (.setPageWindow a b) := fun _ _ => by simp [fits, encode]
theorem normalDisplay : Statement .normalDisplay := fun _ _ => by simp [fits, encode]
theorem inverseDisplay : Statement .inverseDisplay := fun _ _ => by simp [fits, encode]
theorem setContrastCmd (c : Byte) : Statement (.setContrastCmd c) := fun _ _ => by simp [fits, encode]

end Sys2Proof.Laws.CodeSize
end

