-- ==== Sys2Proof/Laws/Progress.lean ====
section
/-! SUPPORT. Display-controller operations that go on after a wait: a run of items at its k-th transaction, how a step begins
wherever the operation stands, what is left of a plan, and runs of several steps (42_controller_ops.md R100, R107,
70_reset_and_hazards.md R157). -/

namespace Sys2Proof.Machine
open State

namespace State

theorem afterPhyPoll_panelDraws (s : State) : s.afterPhyPoll.env.panelDraws = s.env.panelDraws := by
  unfold afterPhyPoll; split <;> rfl
theorem afterLockPoll_panelDraws (s : State) : s.afterLockPoll.env.panelDraws = s.env.panelDraws := by
  unfold afterLockPoll; split <;> rfl
theorem answered_panelDraws (ctrl : Byte) (payload : List Byte) (r : TxnResult) (s : State) :
    (s.answered ctrl payload r).env.panelDraws = s.env.panelDraws + 1 := by
  simp only [answered, emit_env, deliver_env, afterPhyPoll_panelDraws]

end State

/-- `u` is `s` in the middle of a run of items, at the `k`-th transaction, with every one before it answered `ok`. -/
structure Reached (items : List Item) (s : State) (k : Nat) (u : State) : Prop where
  same   : u = { s with wp := u.wp, hist := u.hist, env := u.env, panel := u.panel }
  wp     : u.wp = pointerAt s.wp items k
  hist   : u.hist = s.hist ++ okEvents s.cfg ((itemPayloads s.cfg s.fb s.wp items).take k)
  panel  : u.panel = panelAfter s.cfg s.env.panelDraws ((itemPayloads s.cfg s.fb s.wp items).take k) s.panel
  draws  : u.env.panelDraws = s.env.panelDraws + k
  answer : ∀ j, u.answerAt j = s.answerAt (j + k)
  rest   : sendAll items s = sendAll (itemsFrom items k) u
  left   : itemPayloads s.cfg s.fb u.wp (itemsFrom items k) = (itemPayloads s.cfg s.fb s.wp items).drop k

/-- A run of items answered `ok` up to its `k`-th transaction gets there. -/
theorem sendAll_reach (items : List Item) : ∀ (s : State) (k : Nat), k < (itemPayloads s.cfg s.fb s.wp items).length →
    (∀ j, j < k → s.answerAt j = some .ok) → ∃ u, Reached items s k u := by
  induction items with
  | nil => intro s k h; simp [itemPayloads] at h
  | cons x items ih =>
    intro s k hk ha
    cases x with
    | rewind =>
      obtain ⟨u, h⟩ := ih { s with wp := 0 } k hk ha
      exact ⟨u, h.same, h.wp, h.hist, h.panel, h.draws, h.answer, h.rest, h.left⟩
    | send ctrl payload =>
      cases k with
      | zero => exact ⟨s, rfl, rfl, by simp [okEvents], rfl, rfl, fun _ => rfl, rfl, rfl⟩
      | succ k =>
        have h0 : s.phyAnswer = some .ok := by rw [← answerAt_zero]; exact ha 0 (by omega)
        obtain ⟨u, h⟩ := ih (s.answered ctrl payload .ok) k (by simpa [itemPayloads] using hk)
          (fun j hj => by rw [answered_answerAt]; exact ha (j + 1) (by omega))
        have e := (SameButBus.answered ctrl payload .ok s).eq
        refine ⟨u, ?_, by simpa [pointerAt] using h.wp, ?_, ?_, ?_, ?_, ?_, ?_⟩
        · rw [h.same, e]
        · rw [h.hist]; simp [itemPayloads, okEvents]
        · rw [h.panel, answered_panelDraws]; simp [itemPayloads, panelAfter]
        · rw [h.draws, answered_panelDraws]; omega
        · intro j; rw [h.answer, answered_answerAt, Nat.add_assoc]
        · simp only [sendAll, transact_some h0]; exact h.rest
        · simpa [itemPayloads, itemsFrom] using h.left
    | chunk n =>
      cases k with
      | zero => exact ⟨s, rfl, rfl, by simp [okEvents], rfl, rfl, fun _ => rfl, rfl, rfl⟩
      | succ k =>
        have h0 : s.phyAnswer = some .ok := by rw [← answerAt_zero]; exact ha 0 (by omega)
        have ea : ∀ w j, ({ s.answered s.cfg.ctrlData (s.fb.bytes s.wp n) .ok with wp := w } : State).answerAt j =
            (s.answered s.cfg.ctrlData (s.fb.bytes s.wp n) .ok).answerAt j := fun _ _ => rfl
        obtain ⟨u, h⟩ := ih { s.answered s.cfg.ctrlData (s.fb.bytes s.wp n) .ok with wp := s.wp + n } k
          (by simpa [itemPayloads] using hk) (fun j hj => by rw [ea, answered_answerAt]; exact ha (j + 1) (by omega))
        have e := (SameButBus.answered s.cfg.ctrlData (s.fb.bytes s.wp n) .ok s).eq
        refine ⟨u, ?_, by simpa [pointerAt] using h.wp, ?_, ?_, ?_, ?_, ?_, ?_⟩
        · rw [h.same, e]
        · rw [h.hist]; simp [itemPayloads, okEvents]
        · rw [h.panel]; simp only [answered_panelDraws]; simp [itemPayloads, panelAfter]
        · rw [h.draws]; simp only [answered_panelDraws]; omega
        · intro j; rw [h.answer, ea, answered_answerAt, Nat.add_assoc]
        · simp only [sendAll, writeData, transact_some h0, answered_wp]; exact h.rest
        · simpa [itemPayloads, itemsFrom] using h.left

/-- What is left of a run with a transaction left starts with that transaction. -/
theorem itemsFrom_cons (c : Config) (fb : Memory) (items : List Item) : ∀ (wp k : Nat), k < (itemPayloads c fb wp items).length →
    (∃ ctrl payload rest, itemsFrom items k = .send ctrl payload :: rest) ∨ ∃ n rest, itemsFrom items k = .chunk n :: rest := by
  induction items with
  | nil => intro wp k h; simp [itemPayloads] at h
  | cons x items ih =>
    intro wp k h
    cases x with
    | rewind => exact ih 0 k h
    | send ctrl payload =>
      cases k with
      | zero => exact .inl ⟨_, _, _, rfl⟩
      | succ k => exact ih wp k (by simpa [itemPayloads] using h)
    | chunk n =>
      cases k with
      | zero => exact .inr ⟨_, _, rfl⟩
      | succ k => exact ih (wp + n) k (by simpa [itemPayloads] using h)

/-- A run of items whose `k`-th transaction is the first that is not answered `ok`. -/
theorem sendAll_stop {items : List Item} {s : State} {k : Nat} {p : Byte × List Byte}
    (hp : (itemPayloads s.cfg s.fb s.wp items)[k]? = some p) (ha : ∀ j, j < k → s.answerAt j = some .ok) :
    ∃ u, Reached items s k u ∧
      (∀ kind, s.answerAt k = some (.fail kind) → sendAll items s = (u.answered p.1 p.2 (.fail kind), .failed kind)) ∧
      (s.answerAt k = none → sendAll items s = (u.afterPhyPoll, .waiting (itemsFrom items k))) := by
  obtain ⟨hk, hpk⟩ := List.getElem?_eq_some_iff.mp hp
  obtain ⟨u, h⟩ := sendAll_reach items s k hk ha
  refine ⟨u, h, ?_⟩
  have hu : u.phyAnswer = s.answerAt k := by rw [← answerAt_zero, h.answer, Nat.zero_add]
  have hcfg : u.cfg = s.cfg := by rw [h.same]
  have hfb : u.fb = s.fb := by rw [h.same]
  have hl := h.left
  rw [List.drop_eq_getElem_cons hk, hpk] at hl
  rw [h.rest]
  rcases itemsFrom_cons s.cfg s.fb items s.wp k hk with ⟨ctrl, payload, rest, e⟩ | ⟨n, rest, e⟩ <;> rw [e] at hl ⊢ <;>
    simp only [itemPayloads, List.cons.injEq] at hl <;> obtain ⟨rfl, _⟩ := hl
  · exact ⟨fun kind hf => by simp only [sendAll, transact_some (hu.trans hf)], fun hn => by simp only [sendAll, transact_none (hu.trans hn)]⟩
  · exact ⟨fun kind hf => by simp only [sendAll, writeData, transact_some (hu.trans hf), hcfg, hfb],
      fun hn => by simp only [sendAll, writeData, transact_none (hu.trans hn)]⟩

/-- The same for a run answered `ok` to its end. -/
theorem sendAll_whole {items : List Item} {s : State}
    (ha : ∀ k, k < (itemPayloads s.cfg s.fb s.wp items).length → s.answerAt k = some .ok) :
    ∃ u, sendAll items s = (u, .done) ∧ u = { s with
      wp := itemsEnd s.wp items
      hist := s.hist ++ okEvents s.cfg (itemPayloads s.cfg s.fb s.wp items)
      env := u.env
      panel := panelAfter s.cfg s.env.panelDraws (itemPayloads s.cfg s.fb s.wp items) s.panel } := by
  obtain ⟨u, h1, h2, h3, h4, _⟩ := sendAll_ok items s ha
  have hs := sendAll_same items s
  rw [h1] at hs
  refine ⟨u, h1, ?_⟩
  have := hs.eq
  rw [h2, h3, h4] at this
  exact this

/-- The four display-controller operations are the common shape of R100, with exactly these effects when they are accepted, when
they succeed and when they fail. -/
theorem exec_effects {i : Instr} (hi : isController i = true) {s : State} (hv : s.cfg.valid = true) (ho : s.overlaps i = false)
    (hw : s.fb.wf s.cfg.size = true) : exec i s = s.controller i (planOf s.cfg i) (fun u => { u with ctl := u.busyCtl i })
      (fun u => { u.succeeded i with wp := u.wp }) (fun u => { u with ctl := u.failedCtl i }) := by
  cases i <;> simp only [isController, Bool.false_eq_true] at hi
  case init =>
    exact gate_open hv ho _
  case update =>
    refine (gate_open hv ho _).trans (if_pos ?_)
    simp [updateReads, memRead_eq hw (a := 0) (size_pos hv) (by omega)]
  case setInvert flag => exact gate_open hv ho _
  case setContrast level => exact gate_open hv ho _

/-- A display-controller operation that holds the lock, or is granted it, with these items to send: how the step ends. -/
theorem exec_goes_on {s : State} {i : Instr} {items : List Item} {start : List Event} (hs : s.Inv) (hi : isController i = true)
    (h : (s.activity = none ∧ stateCheck i s.ctl = none ∧ s.grantAt 0 = true ∧ items = planOf s.cfg i ∧ start = [.acq]) ∨
      (s.activity = some ⟨i, .lockWait⟩ ∧ s.grantAt 0 = true ∧ items = planOf s.cfg i ∧ start = [.acq]) ∨
      (s.activity = some ⟨i, .sending items⟩ ∧ start = [])) :
    ∃ b : State, b = { s with ctl := s.busyCtl i, lock := true, hist := s.hist ++ start, env := b.env } ∧
      b.env.panelDraws = s.env.panelDraws ∧ (∀ k, b.answerAt k = s.answerAt k) ∧
      exec i s = .next (finish i (fun u => { u.succeeded i with wp := u.wp }) (fun u => { u with ctl := u.failedCtl i })
        (sendAll items b)) := by
  have hact := hs.activity
  unfold activityOk at hact
  rcases h with ⟨ha, hc, hg, rfl, rfl⟩ | ⟨ha, hg, rfl, rfl⟩ | ⟨ha, rfl⟩ <;> rw [ha] at hact
  · obtain ⟨hl, hu⟩ := hact
    rw [exec_effects hi hs.config (overlaps_none ha _) hs.buffer]
    rw [controller_granted ha hc hl (by rw [grantAt_zero] at hg; exact hg)]
    refine ⟨_, ?_, ?_, ?_, rfl⟩
    · have := afterLockPoll_eq { s with ctl := s.busyCtl i }
      rw [State.acquired, this]; rfl
    · rw [acquired_env, afterLockPoll_panelDraws]
    · intro k; rw [answerAt_acquired, answerAt_afterLockPoll]; rfl
  · obtain ⟨_, hl, hu⟩ := hact
    have hb : s.busyCtl i = s.ctl := by
      unfold busyCtl; split_ifs with h
      · exact (hu.mpr h).symm
      · rfl
    rw [exec_effects hi hs.config ((overlaps_some ha _).mpr rfl) hs.buffer]
    refine ⟨s.afterLockPoll.acquired, ?_, ?_, ?_, ?_⟩
    · rw [hb]
      conv_lhs => rw [State.acquired, afterLockPoll_eq]
      rfl
    · rw [acquired_env, afterLockPoll_panelDraws]
    · intro k; rw [answerAt_acquired, answerAt_afterLockPoll]
    · rw [grantAt_zero] at hg
      simp [controller, ha, hl, enterBracket, hg]
  · obtain ⟨_, hl, hu, _⟩ := hact
    have hb : s.busyCtl i = s.ctl := by
      unfold busyCtl; split_ifs with h
      · exact (hu.mpr h).symm
      · rfl
    rw [exec_effects hi hs.config ((overlaps_some ha _).mpr rfl) hs.buffer]
    refine ⟨s, ?_, rfl, fun _ => rfl, ?_⟩
    · rw [hb]; simp [← hl]
    · simp [controller, ha, hl]

/-- An accepted operation, or one that waits for the lock, that is not granted it. -/
theorem exec_ungranted {s : State} {i : Instr} (hs : s.Inv) (hi : isController i = true)
    (h : (s.activity = none ∧ stateCheck i s.ctl = none) ∨ s.activity = some ⟨i, .lockWait⟩) (hg : s.grantAt 0 = false) :
    ∃ t, exec i s = .next t ∧ t = { s with ctl := s.busyCtl i, activity := some ⟨i, .lockWait⟩, env := t.env } ∧
      t.env.panelDraws = s.env.panelDraws ∧ (∀ k, t.answerAt k = s.answerAt k) ∧ ∀ k, t.grantAt k = s.grantAt (k + 1) := by
  have hact := hs.activity
  unfold activityOk at hact
  rw [grantAt_zero] at hg
  rcases h with ⟨ha, hc⟩ | ha <;> rw [ha] at hact
  · obtain ⟨hl, hu⟩ := hact
    rw [exec_effects hi hs.config (overlaps_none ha _) hs.buffer]
    rw [controller_ungranted ha hc hl hg]
    refine ⟨_, rfl, ?_, ?_, ?_, ?_⟩
    · have := afterLockPoll_eq { s with ctl := s.busyCtl i }
      rw [this]
    · exact afterLockPoll_panelDraws _
    · intro k; exact (answerAt_afterLockPoll { s with ctl := s.busyCtl i } k)
    · intro k; exact (grantAt_afterLockPoll { s with ctl := s.busyCtl i } k)
  · obtain ⟨_, hl, hu⟩ := hact
    have hb : s.busyCtl i = s.ctl := by
      unfold busyCtl; split_ifs with h
      · exact (hu.mpr h).symm
      · rfl
    rw [exec_effects hi hs.config ((overlaps_some ha _).mpr rfl) hs.buffer]
    refine ⟨{ s.afterLockPoll with activity := some ⟨i, .lockWait⟩ }, by simp [controller, ha, hl, enterBracket, hg], ?_, ?_, ?_, ?_⟩
    · rw [hb]
      conv_lhs => rw [afterLockPoll_eq]
    · exact afterLockPoll_panelDraws _
    · intro k; exact (answerAt_afterLockPoll s k)
    · intro k; exact (grantAt_afterLockPoll s k)

/-- Of the next `n` answers all are `ok`, or there is a first that is not. -/
theorem first_stop (f : Nat → Option TxnResult) : ∀ n, (∀ k, k < n → f k = some .ok) ∨
    ∃ k, k < n ∧ (∀ j, j < k → f j = some .ok) ∧ f k ≠ some .ok := by
  intro n
  induction n with
  | zero => exact .inl (by omega)
  | succ n ih =>
    rcases ih with h | ⟨k, h1, h2, h3⟩
    · by_cases hn : f n = some .ok
      · exact .inl fun k hk => by rcases Nat.lt_succ_iff_lt_or_eq.mp hk with h' | rfl <;> [exact h k h'; exact hn]
      · exact .inr ⟨n, by omega, h, hn⟩
    · exact .inr ⟨k, by omega, h2, h3⟩

/-! What is left of a run of items. -/

theorem itemPayloads_from (c : Config) (fb : Memory) (items : List Item) : ∀ wp k,
    itemPayloads c fb (pointerAt wp items k) (itemsFrom items k) = (itemPayloads c fb wp items).drop k := by
  induction items with
  | nil => intro wp k; simp [itemPayloads, itemsFrom]
  | cons x items ih => intro wp k; cases x <;> cases k <;> simp [itemPayloads, itemsFrom, pointerAt, ih]

theorem itemsFrom_from (items : List Item) : ∀ k j, itemsFrom (itemsFrom items k) j = itemsFrom items (k + j) := by
  induction items with
  | nil => intro k j; rfl
  | cons x items ih =>
    intro k j
    cases x <;> cases k <;> simp [itemsFrom, ih, Nat.succ_add]

theorem pointerAt_from (items : List Item) : ∀ wp k j,
    pointerAt (pointerAt wp items k) (itemsFrom items k) j = pointerAt wp items (k + j) := by
  induction items with
  | nil => intro wp k j; rfl
  | cons x items ih =>
    intro wp k j
    cases x <;> cases k <;> simp [itemsFrom, pointerAt, ih, Nat.succ_add]

theorem itemsEnd_from (items : List Item) : ∀ wp k, itemsEnd (pointerAt wp items k) (itemsFrom items k) = itemsEnd wp items := by
  induction items with
  | nil => intro wp k; rfl
  | cons x items ih =>
    intro wp k
    cases x <;> cases k <;> simp [itemsFrom, pointerAt, itemsEnd, ih]

theorem pointerAt_append (c : Config) (fb : Memory) (a b : List Item) : ∀ wp k, (itemPayloads c fb wp a).length ≤ k →
    pointerAt wp (a ++ b) k = pointerAt (itemsEnd wp a) b (k - (itemPayloads c fb wp a).length) := by
  induction a with
  | nil => intro wp k _; rfl
  | cons x a ih =>
    intro wp k h
    cases x with
    | rewind => exact ih 0 k h
    | send ctrl payload =>
      cases k with
      | zero => simp [itemPayloads] at h
      | succ k => simp only [itemPayloads, List.length_cons] at h; simp [pointerAt, itemPayloads, itemsEnd, ih wp k (by omega)]
    | chunk n =>
      cases k with
      | zero => simp [itemPayloads] at h
      | succ k => simp only [itemPayloads, List.length_cons] at h; simp [pointerAt, itemPayloads, itemsEnd, ih (wp + n) k (by omega)]

theorem pointerAt_commandItems (c : Config) (groups : List (List Byte)) (rest : List Item) : ∀ wp k, k < groups.length →
    pointerAt wp (commandItems c groups ++ rest) k = wp := by
  induction groups with
  | nil => intro wp k h; simp at h
  | cons g groups ih =>
    intro wp k h
    cases k with
    | zero => rfl
    | succ k => exact ih wp k (by simpa using h)

/-! The plans of the four operations, in the terms of their own rules. -/

/-- What an operation sends is what its own rule says (R102, R107 with R109, R112, R115). -/
theorem plan_txns {s : State} (hv : s.cfg.valid = true) (hw : s.fb.wf s.cfg.size = true) (i : Instr) (wp : Nat) :
    itemPayloads s.cfg s.fb wp (planOf s.cfg i) = s.operationTxns i := by
  cases i <;> try rfl
  · exact itemPayloads_commandItems ..
  · have hm := valid_maxTxn hv
    rw [planOf, updatePlan_eq hm, itemPayloads_append]
    simp only [itemPayloads_commandItems, itemPayloads]
    rw [itemPayloads_chunkItems hm hw _ (le_refl _)]
    rfl

/-- Where an operation that has sent everything leaves `wp` (R107). -/
theorem plan_end {s : State} (hv : s.cfg.valid = true) {i : Instr} (hi : isController i = true) :
    itemsEnd s.wp (planOf s.cfg i) = (s.succeeded i).wp := by
  cases i <;> simp only [isController, Bool.false_eq_true] at hi
  · exact itemsEnd_commandItems ..
  · have hm := valid_maxTxn hv
    rw [planOf, updatePlan_eq hm, itemsEnd_append]
    simp only [itemsEnd]
    rw [itemsEnd_chunkItems hm _ (le_refl _)]
    have := chunkCount_mul hm
    simp only [State.succeeded]; omega
  · rfl
  · rfl

/-- Where `wp` stands at the `k`-th transaction of an operation (R107, R18). -/
theorem plan_pointer {s : State} (hv : s.cfg.valid = true) (hw : s.fb.wf s.cfg.size = true) {i : Instr} (hi : isController i = true)
    {k : Nat} (hk : k < (s.operationTxns i).length) : pointerAt s.wp (planOf s.cfg i) k = s.operationPointer i k := by
  cases i <;> simp only [isController, Bool.false_eq_true] at hi
  · have := pointerAt_commandItems s.cfg s.cfg.initSeq [] s.wp k (by simpa [operationTxns] using hk)
    simpa [operationPointer, planOf, initPlan] using this
  · have hm := valid_maxTxn hv
    simp only [operationTxns, List.length_append, List.length_map, List.length_range] at hk
    simp only [operationPointer, true_and]
    rw [planOf, updatePlan_eq hm]
    split_ifs with hle
    · rw [pointerAt_append s.cfg s.fb _ _ _ _ (by simpa using hle)]
      simp only [itemPayloads_commandItems, List.length_map, pointerAt]
      have hlt : k - s.cfg.windowSeq.length < chunkCount s.cfg := by omega
      generalize k - s.cfg.windowSeq.length = j at hlt
      obtain ⟨rest, e⟩ := chunkItems_split s.cfg hlt
      have hl : (itemPayloads s.cfg s.fb 0 (chunkItems s.cfg j)).length = j := by
        rw [itemPayloads_chunkItems hm hw _ hlt.le]; simp
      rw [e, pointerAt_append s.cfg s.fb _ _ _ _ (by omega), itemsEnd_chunkItems hm _ hlt.le, hl, Nat.sub_self]
      have := (lt_chunkCount hm).mp hlt
      simp only [pointerAt]; omega
    · exact pointerAt_commandItems _ _ _ _ _ (by omega)
  · simp only [operationTxns, List.length_singleton] at hk
    obtain rfl : k = 0 := by omega
    rfl
  · simp only [operationTxns, List.length_singleton] at hk
    obtain rfl : k = 0 := by omega
    rfl

theorem pointerAt_commands {c : Config} {items : List Item} (h : allCommands c items) : ∀ wp k, pointerAt wp items k = wp := by
  induction items with
  | nil => intro wp k; rfl
  | cons x items ih =>
    intro wp k
    obtain ⟨p, rfl⟩ := h x (by simp)
    have := ih (fun j hj => h j (by simp [hj]))
    cases k <;> simp [pointerAt, this]

theorem itemsEnd_commands {c : Config} {items : List Item} (h : allCommands c items) : ∀ wp, itemsEnd wp items = wp := by
  induction items with
  | nil => intro wp; rfl
  | cons x items ih =>
    intro wp
    obtain ⟨p, rfl⟩ := h x (by simp)
    exact ih (fun j hj => h j (by simp [hj])) wp

theorem payloads_commands {c : Config} {items : List Item} (h : allCommands c items) : ∀ fb wp, ∀ p ∈ itemPayloads c fb wp items, p.1 = c.ctrlCmd := by
  induction items with
  | nil => intro fb wp p hp; simp [itemPayloads] at hp
  | cons x items ih =>
    intro fb wp p hp
    obtain ⟨q, rfl⟩ := h x (by simp)
    simp only [itemPayloads, List.mem_cons] at hp
    rcases hp with rfl | hp
    · rfl
    · exact ih (fun j hj => h j (by simp [hj])) fb wp p hp

/-- Only `UPDATE` sends data. -/
theorem plan_commands {c : Config} {i : Instr} (hi : isController i = true) (h : i ≠ .update) : allCommands c (planOf c i) := by
  cases i <;> simp only [isController, Bool.false_eq_true] at hi
  · exact allCommands_commandItems c _
  · exact absurd rfl h
  · exact allCommands_commandItems c _
  · exact allCommands_commandItems c _

/-! Runs of several steps, and what is still to be answered. -/

/-- A run is a step and the run from there. -/
theorem run_succ {k : Nat} {s t : State} (h : Host.Core.run Sys2Proof.core (k + 1) s = .next t) :
    ∃ u, step s = .next u ∧ Host.Core.run Sys2Proof.core k u = .next t := by
  simp only [Host.Core.run] at h
  rcases hu : core.step s with u | _ | _ <;> rw [hu] at h
  · exact ⟨u, hu, h⟩
  · simp at h
  · simp at h

/-- A step takes at most the first request. -/
theorem step_requests {s t : State} (h : step s = .next t) : t.requests = s.requests ∨ ∃ w, s.requests = w :: t.requests := by
  replace h := (configured_next h).2
  split at h
  · injection h with h; exact .inl (by rw [h])
  · exact .inl (exec_frame h).req
  · rename_i code rest hf
    split at h
    · have hreq := (exec_frame h).req
      unfold fetch at hf
      split at hf
      · simp at hf
      · split at hf
        · injection hf with _ hf; exact .inl (by rw [hreq, ← hf])
        · split at hf
          · rename_i w r hr
            injection hf with _ hf; exact .inr ⟨w, by rw [hr, hreq, ← hf]⟩
          · simp at hf
    · simp at h

theorem run_requests (k : Nat) : ∀ {s t : State}, Host.Core.run Sys2Proof.core k s = .next t → t.requests.length ≤ s.requests.length := by
  induction k with
  | zero => intro s t h; simp only [Host.Core.run] at h; injection h with h; rw [h]
  | succ k ih =>
    intro s t h
    obtain ⟨u, h1, h2⟩ := run_succ h
    have := ih h2
    rcases step_requests h1 with e | ⟨w, e⟩
    · rw [← e]; exact this
    · rw [e]; simp; omega

theorem Inv_taken {s : State} (hs : s.Inv) (rest : List ReqWord) : ({ s with requests := rest } : State).Inv :=
  ⟨hs.config, hs.buffer, hs.pointer, hs.ram, hs.noCall, hs.activity, hs.bus⟩

theorem run_cons {n : Nat} {s u t : State} (h1 : step s = .next u) (h2 : Host.Core.run Sys2Proof.core n u = .next t) :
    Host.Core.run Sys2Proof.core (n + 1) s = .next t := by
  have h1 : core.step s = .next u := h1
  simp only [Host.Core.run, h1]; exact h2

theorem step_busy {s : State} {a : Activity} (h : s.activity = some a) (hv : s.cfg.valid = true) : step s = exec a.op s := by
  simp [step, fetch, h, configured_valid hv]

theorem answeredPolls_le (s : State) (m : Nat) : s.answeredPolls m ≤ m := by
  unfold answeredPolls
  calc _ ≤ (List.range m).length := List.countP_le_length
    _ = m := List.length_range

theorem answeredPolls_wait {s : State} {k : Nat} (h1 : s.answerAt k = none) : s.answeredPolls (k + 1) ≤ k := by
  unfold answeredPolls
  rw [List.range_succ, List.countP_append]
  have : List.countP (fun k => (s.answerAt k).isSome) (List.range k) ≤ k := by
    calc _ ≤ (List.range k).length := List.countP_le_length
      _ = k := List.length_range
  simp [h1]; omega

end Sys2Proof.Machine
end

