-- ==== Sys2Proof/Laws/Receiver.lean ====
section
/-! SUPPORT. The receiver during a full-screen transfer (20_memory.md R46, R47). -/

namespace Sys2Proof.Machine
open State

/-- The next index, in row-major order with rows of `w`. -/
theorem div_mod_succ {w : Nat} (hw : 0 < w) (i : Nat) :
    (i % w = w - 1 → (i + 1) / w = i / w + 1 ∧ (i + 1) % w = 0) ∧
    (i % w ≠ w - 1 → (i + 1) / w = i / w ∧ (i + 1) % w = i % w + 1) := by
  have h1 := Nat.div_add_mod i w
  have h2 := Nat.mod_lt i hw
  constructor
  · intro he
    have : i + 1 = w * (i / w + 1) := by rw [Nat.mul_add]; omega
    rw [this, Nat.mul_div_cancel_left _ hw, Nat.mul_mod_right]; simp
  · intro hne
    have : i + 1 = w * (i / w) + (i % w + 1) := by omega
    have h3 : i % w + 1 < w := by omega
    rw [this, Nat.mul_add_div hw, Nat.div_eq_of_lt h3, Nat.mul_add_mod, Nat.mod_eq_of_lt h3]; simp

/-- The panel after `i` data bytes of a full-screen transfer in row-major order (R46, R47). -/
structure Filled (w pages : Nat) (bytes : List Byte) (i : Nat) (p : Panel) : Prop where
  mode : p.regs.mode = horizontal
  cs   : p.regs.cs = 0
  ce   : p.regs.ce = w - 1
  ps   : p.regs.ps = 0
  pe   : p.regs.pe = pages - 1
  pc   : p.regs.pc = i % w
  pp   : p.regs.pp = i / w % pages
  ram  : p.gd.wf (Panel.pageCount * Panel.columns) = true
  done : ∀ j, j < i → p.ram (j / w) (j % w) = bytes[j]?

theorem Filled.store {w pages : Nat} {bytes : List Byte} {i : Nat} {p : Panel} (h : Filled w pages bytes i p)
    (h1 : 1 ≤ w) (h2 : w ≤ 128) (h3 : pages ≤ 8) (hi : i < w * pages) (hb : i < bytes.length) :
    p.inRam = true ∧ Filled w pages bytes (i + 1) (p.store bytes[i]) := by
  have hw : 0 < w := h1
  have hpage : i / w < pages := Nat.div_lt_of_lt_mul hi
  have hmod := Nat.mod_lt i hw
  have hpp : p.regs.pp = i / w := by rw [h.pp, Nat.mod_eq_of_lt hpage]
  have hin : p.inRam = true := by
    simp only [Panel.inRam, Panel.pageCount, Panel.columns, Bool.and_eq_true, decide_eq_true_eq, h.pc, hpp]; omega
  have hs := div_mod_succ hw i
  refine ⟨hin, ?_⟩
  have hregs : (p.store bytes[i]).regs = regsAdvance p.regs := rfl
  have hmem : ∀ j, j < i + 1 → (p.store bytes[i]).ram (j / w) (j % w) = bytes[j]? := by
    intro j hj
    have hjm := Nat.mod_lt j hw
    by_cases he : j = i
    · subst he
      simp only [Panel.ram, Panel.store, hpp, h.pc, List.getElem?_eq_getElem hb]
      exact Memory.read_write_same h.ram (by simp only [Panel.pageCount, Panel.columns]; omega) _
    · rw [← h.done j (by omega)]
      simp only [Panel.ram, Panel.store, hpp, h.pc]
      refine Memory.read_write_other _ ?_ _
      intro heq
      simp only [Panel.columns] at heq
      have e1 : j / w = i / w := by omega
      have e2 : j % w = i % w := by omega
      apply he
      rw [← Nat.div_add_mod j w, ← Nat.div_add_mod i w, e1, e2]
  by_cases hc : i % w = w - 1
  · obtain ⟨s1, s2⟩ := hs.1 hc
    have hr : regsAdvance p.regs = { p.regs with pc := 0, pp := if p.regs.pp = p.regs.pe then 0 else p.regs.pp + 1 } := by
      unfold regsAdvance
      rw [if_pos (by rw [h.pc, h.ce, hc])]; simp [h.cs, h.ps]
    refine ⟨?_, ?_, ?_, ?_, ?_, ?_, ?_, Panel.store_wf h.ram _, hmem⟩ <;> rw [hregs, hr]
    · exact h.mode
    · exact h.cs
    · exact h.ce
    · exact h.ps
    · exact h.pe
    · exact s2.symm
    · simp only [hpp, h.pe, s1]
      by_cases hl : i / w = pages - 1
      · rw [if_pos hl, hl, Nat.sub_add_cancel (by omega), Nat.mod_self]
      · rw [if_neg hl, Nat.mod_eq_of_lt (by omega)]
  · obtain ⟨s1, s2⟩ := hs.2 hc
    have hr : regsAdvance p.regs = { p.regs with pc := p.regs.pc + 1 } := by
      unfold regsAdvance
      rw [if_neg (by rw [h.pc, h.ce]; exact hc)]
    refine ⟨?_, ?_, ?_, ?_, ?_, ?_, ?_, Panel.store_wf h.ram _, hmem⟩ <;> rw [hregs, hr]
    · exact h.mode
    · exact h.cs
    · exact h.ce
    · exact h.ps
    · exact h.pe
    · simp only [h.pc, s2]
    · simp only [h.pp, s1]

theorem Filled.storeAll {w pages : Nat} {bytes : List Byte} (h1 : 1 ≤ w) (h2 : w ≤ 128) (h3 : pages ≤ 8)
    (hb : bytes.length = w * pages) : ∀ (n i : Nat) {p : Panel}, Filled w pages bytes i p → i + n ≤ bytes.length →
    (Panel.storeAll ((bytes.drop i).take n) p).2 = true ∧
      Filled w pages bytes (i + n) (Panel.storeAll ((bytes.drop i).take n) p).1 := by
  intro n
  induction n with
  | zero => intro i p h _; simpa [Panel.storeAll] using h
  | succ n ih =>
    intro i p h hi
    have hlt : i < bytes.length := by omega
    obtain ⟨hin, hst⟩ := h.store h1 h2 h3 (by omega) hlt
    obtain ⟨ha, hf⟩ := ih (i + 1) hst (by omega)
    rw [List.drop_eq_getElem_cons hlt, List.take_succ_cons]
    simp only [Panel.storeAll, hin, ha, Bool.true_and, true_and]
    rw [show i + (n + 1) = i + 1 + n by omega]
    exact hf

theorem panelAfter_append (c : Config) (a b : List (Byte × List Byte)) : ∀ (draw : Nat) (p : Panel),
    panelAfter c draw (a ++ b) p = panelAfter c (draw + a.length) b (panelAfter c draw a p) := by
  induction a with
  | nil => intro draw p; rfl
  | cons x a ih =>
    intro draw p
    simp only [List.cons_append, panelAfter, ih, List.length_cons]
    congr 1; omega

/-- The data transactions of an `UPDATE` fill the panel in row-major order. -/
theorem Filled.chunks {s : State} (hv : s.cfg.valid = true) (hl : s.buffer.length = s.cfg.size) (h2 : s.cfg.width ≤ 128)
    (h3 : s.cfg.pages ≤ 8) (draw : Nat) {p : Panel} (h : Filled s.cfg.width s.cfg.pages s.buffer 0 p) : ∀ k, k ≤ chunkCount s.cfg →
    Filled s.cfg.width s.cfg.pages s.buffer (min (k * s.cfg.maxTxn) s.cfg.size)
      (panelAfter s.cfg draw ((List.range k).map fun j => (s.cfg.ctrlData, s.chunkAt j)) p) := by
  have hm := valid_maxTxn hv
  have h1 : 1 ≤ s.cfg.width := (valid_facts hv).1
  have hctrl := valid_controlBytes hv
  intro k
  induction k with
  | zero => intro _; simpa [panelAfter] using h
  | succ k ih =>
    intro hk
    have hlt := (lt_chunkCount hm).mp (show k < chunkCount s.cfg by omega)
    have hf := ih (by omega)
    rw [Nat.min_eq_left hlt.le] at hf
    rw [List.range_succ, List.map_append, panelAfter_append]
    generalize hq : panelAfter s.cfg draw ((List.range k).map fun j => (s.cfg.ctrlData, s.chunkAt j)) p = q at hf
    simp only [List.map_cons, List.map_nil, panelAfter]
    have hne : s.chunkAt k ≠ [] := by
      intro h0
      have := congrArg List.length h0
      simp [State.chunkAt, hl] at this; omega
    have hch : s.chunkAt k = (s.buffer.drop (k * s.cfg.maxTxn)).take (min s.cfg.maxTxn (s.cfg.size - k * s.cfg.maxTxn)) := by
      rw [State.chunkAt, List.take_eq_take_iff]; simp [hl]
    obtain ⟨ha, hg⟩ := Filled.storeAll h1 h2 h3 hl (min s.cfg.maxTxn (s.cfg.size - k * s.cfg.maxTxn)) _ hf (by omega)
    rw [← hch] at ha hg
    have hrec : ∀ d, q.receive s.cfg d s.cfg.ctrlData (s.chunkAt k) .ok = (Panel.storeAll (s.chunkAt k) q).1 := by
      intro d
      simp [Panel.receive, hctrl, delivered, Panel.dataStream, hne, hf.mode, ha]
    rw [hrec]
    have : min ((k + 1) * s.cfg.maxTxn) s.cfg.size = k * s.cfg.maxTxn + min s.cfg.maxTxn (s.cfg.size - k * s.cfg.maxTxn) := by
      rw [Nat.succ_mul]; omega
    rw [this]
    exact hg

/-- A run of command frames leaves the panel's RAM alone (R32, R43). -/
theorem sendAll_commands_gd {items : List Item} {s : State} (hv : s.cfg.valid = true) (h : allCommands s.cfg items) :
    (sendAll items s).1.panel.gd = s.panel.gd := by
  by_contra hne
  obtain ⟨_, es, h1, h2⟩ := sendAll_commands h
  obtain ⟨es', h3, h4⟩ := sendAll_panel items s
  obtain rfl := List.append_cancel_left (h1.symm.trans h3)
  obtain ⟨a, p, r, hm⟩ := h4.2 hne
  exact valid_controlBytes hv (h2 _ _ _ _ hm)

end Sys2Proof.Machine
end

