-- ==== Sys2Proof/Tests/Slice0.lean ====
section
/-! SUPPORT. Tests with results from the spec's own vectors and programs (95_test_vectors.md, or by hand from its rules), the
smoke test of WellFormed, and a witness for the hypotheses of every statement that has some. -/

namespace Sys2Proof.Tests
open Sys2Proof Sys2Proof.Machine

/-- The small configuration of 95_test_vectors.md. -/
def small : Config := Config.ofGeometry 4 16 0x3C#7 3

/-- A panel with known contents: RAM of zeros, horizontal mode, a window that is not the small one. -/
def panel : Panel where
  regs := ⟨0, 0, 0, 127, 0, 7, 0x00#8, 0x7F#8, false, 64, 0x00#8, false⟩
  gd := Memory.fill (Panel.pageCount * Panel.columns) 0x00#8

/-- A block with the small configuration between two operations: the lock is granted at the first poll, the PHY gives
these answers in order. -/
def bench (ctl : Ctl) (fb : List Byte) (answers : List (Option TxnResult)) : State where
  cfg := small
  ctl := ctl
  disp := ⟨true, 0x20#8, false⟩
  fb := (List.range' 0 8).zip fb
  wp := 8
  lock := false
  hist := []
  activity := none
  requests := []
  framerCall := none
  responses := []
  framerReturn := none
  env := ⟨[true], 0, answers, 0, 1⟩
  panel := panel
  resets := 0

/-- Some drawing. -/
def drawing : List Byte := [0x01#8, 0x00#8, 0xFF#8, 0x00#8, 0x00#8, 0x00#8, 0x02#8, 0x80#8]

/-- `ok`, as an answer of the PHY. -/
def yes : Option TxnResult := some .ok
/-- A failure, as an answer of the PHY. -/
def no (kind : FailKind) : Option TxnResult := some (.fail kind)

/-- The block ready, with `drawing` in the framebuffer and every transaction answered `ok`. -/
def ready : State := bench .ready drawing [yes, yes, yes, yes, yes]

/-- Inside a bracket, for a framer call. -/
def inside (answers : List (Option TxnResult)) : State := { bench .ready drawing answers with lock := true, hist := [.acq] }

/-- A transaction of the small configuration's command or data frames. -/
def cmd (payload : List Byte) (r : TxnResult) : Event := .txn 0x3C#7 0x00#8 payload r
def data (payload : List Byte) (r : TxnResult) : Event := .txn 0x3C#7 0x80#8 payload r

/-- The next state, if there is one. -/
def after : Result → Option State
  | .next t => some t
  | .fault _ => none
  | .refused _ => none

/-- Why it stopped, if it did. -/
def refusal : Result → Option Refusal
  | .next _ => none
  | .fault _ => none
  | .refused r => some r

theorem next_of_after {r : Result} {p : State → Bool} (h : (after r).any p = true) : ∃ t, r = .next t ∧ p t = true := by
  cases r with
  | next t => exact ⟨t, rfl, h⟩
  | fault _ => simp [after] at h
  | refused _ => simp [after] at h

/-! ## WellFormed: one ill-formed term for each check -/

theorem test_valid_small : small.valid = true := by decide
theorem test_valid_default : Config.default.valid = true := by decide
theorem test_refuses_no_column : ({ small with width := 0 } : Config).geometryOk = false := by decide
theorem test_refuses_no_page : ({ small with height := 0 } : Config).geometryOk = false := by decide
theorem test_refuses_cut_page : ({ small with height := 12 } : Config).geometryOk = false := by decide
theorem test_refuses_wide : ({ small with width := 257 } : Config).fieldsOk = false := by decide
theorem test_refuses_high : ({ small with height := 2048 } : Config).fieldsOk = false := by decide
theorem test_refuses_short_transaction : ({ small with maxTxn := 1, initSeq := [], windowSeq := [] } : Config).groupsOk = false := by
  decide
theorem test_refuses_empty_group : ({ small with initSeq := [[]] } : Config).groupsOk = false := by decide
theorem test_refuses_long_group : ({ small with windowSeq := [[0x21#8, 0#8, 3#8, 0#8]] } : Config).groupsOk = false := by decide
theorem test_refuses_same_top_bit : ({ small with ctrlData := 0x40#8 } : Config).controlBytesOk = false := by decide
theorem test_allows_without_top_bit_rule :
    ({ small with ctrlData := 0x40#8, topBitRule := false } : Config).controlBytesOk = true := by decide
theorem test_refuses_same_control : ({ small with ctrlData := 0x00#8, topBitRule := false } : Config).controlBytesOk = false := by
  decide
theorem test_refuses_contrast_order : ({ small with contrastMin := 200, contrastMax := 100 } : Config).contrastOk = false := by decide
theorem test_refuses_contrast_high : ({ small with contrastMax := 256 } : Config).contrastOk = false := by decide
theorem test_refuses_contrast_low : ({ small with contrastMin := -1 } : Config).contrastOk = false := by decide
theorem test_refuses_init_contrast : ({ small with initSeq := [[0x81#8, 0x33#8]] } : Config).initValuesOk = false := by decide
theorem test_refuses_init_inverted : ({ small with initSeq := [[0xA6#8], [0xA7#8]] } : Config).initValuesOk = false ∧
    ({ small with initInverted := true } : Config).initValuesOk = false := by decide
theorem test_refuses_level : (Instr.setContrast 32768).wellFormed small = false ∧ (Instr.setContrast (-32769)).wellFormed small = false := by
  decide
theorem test_refuses_coordinate : (Instr.setPixel 2048 0 .set).wellFormed small = false ∧
    (Instr.setPixel 0 (-2049) .set).wellFormed small = false := by decide
theorem test_refuses_empty_payload : (Instr.cmdFrame []).wellFormed small = false ∧ (Instr.dataFrame []).wellFormed small = false := by
  decide
theorem test_refuses_long_payload : (Instr.dataFrame [1#8, 2#8, 3#8, 4#8]).wellFormed small = false := by decide

/-- R104: an INIT_SEQ that sets contrast and inversion, with the values to match. -/
def preset : Config := { small with initSeq := [[0x81#8, 0x33#8], [0xA6#8], [0xA7#8], [0xAF#8]], initContrast := 0x33#8, initInverted := true }
theorem test_allows_matching_init_values : preset.valid = true := by decide

/-- R104, R73: the same commands in two groups. -/
def regrouped : Config := { preset with initSeq := [[0x81#8, 0x33#8, 0xA6#8], [0xA7#8, 0xAF#8]] }
theorem test_looks_into_groups : regrouped.valid = true ∧ ({ regrouped with initInverted := false } : Config).valid = false ∧
    ({ regrouped with initContrast := 0x7F#8 } : Config).valid = false := by decide
/-- An argument is no command (R46): the first `0xA7` is the contrast level, the second the addressing mode. -/
theorem test_skips_arguments : ({ small with initSeq := [[0x81#8, 0xA7#8, 0xAF#8], [0x20#8, 0xA7#8]], initContrast := 0xA7#8 } :
    Config).valid = true := by decide
/-- After a command that the spec does not list, `0xA7` may be its argument or not (log 27). -/
theorem test_leaves_unlisted_open : ({ small with initSeq := [[0xD5#8, 0xA7#8]] } : Config).valid = true ∧
    ({ small with initSeq := [[0xD5#8, 0xA7#8]], initInverted := true } : Config).valid = true ∧
    ({ small with initSeq := [[0xD5#8, 0x80#8]], initInverted := true } : Config).valid = false := by decide

/-! ## Decoding: every constructor, by a word written out bit by bit from R50, R54, R56, R57 -/

theorem test_decode_init : decodeRequest 0b0001_0000000000000000000000000000#32 = .ok .init := by rfl
theorem test_decode_update : decodeRequest 0b0010_0000000000000000000000000000#32 = .ok .update := by rfl
theorem test_decode_setInvert : decodeRequest 0b0011_000000000000000000000000000_1#32 = .ok (.setInvert true) := by rfl
theorem test_decode_setContrast : decodeRequest 0b0100_000000000000_1111111111111011#32 = .ok (.setContrast (-5)) := by rfl
theorem test_decode_clear : decodeRequest 0b0101_0000000000000000000000000000#32 = .ok .clear := by rfl
theorem test_decode_setPixel :
    decodeRequest 0b0110_000_1_111111111111_000000000011#32 = .ok (.setPixel (-1) 3 .set) := by rfl
theorem test_decode_getBuffer : decodeRequest 0b0111_0000000000000000000000000000#32 = .ok .getBuffer := by rfl
theorem test_decode_cmdFrame : decode small (.wire (.frame [0b00000000#8, 0x81#8, 0xFF#8])) = .ok (.cmdFrame [0x81#8, 0xFF#8]) := by rfl
theorem test_decode_dataFrame : decode small (.wire (.frame [0b10000000#8, 0x01#8])) = .ok (.dataFrame [0x01#8]) := by rfl
theorem test_decode_setMemoryMode : decodeGroup [0b00100000#8, 0x00#8] = .ok (.setMemoryMode 0x00#8) := by rfl
theorem test_decode_setMuxRatio : decodeGroup [0b10101000#8, 0x3F#8] = .ok (.setMuxRatio 0x3F#8) := by rfl
theorem test_decode_chargePump : decodeGroup [0b10001101#8, 0x14#8] = .ok (.chargePump 0x14#8) := by rfl
theorem test_decode_displayOn : decodeGroup [0b10101111#8] = .ok .displayOn := by rfl
theorem test_decode_setColumnWindow : decodeGroup [0b00100001#8, 0x01#8, 0x7F#8] = .ok (.setColumnWindow 0x01#8 0x7F#8) := by rfl
theorem test_decode_setPageWindow : decodeGroup [0b00100010#8, 0x01#8, 0x07#8] = .ok (.setPageWindow 0x01#8 0x07#8) := by rfl
theorem test_decode_normalDisplay : decodeGroup [0b10100110#8] = .ok .normalDisplay := by rfl
theorem test_decode_inverseDisplay : decodeGroup [0b10100111#8] = .ok .inverseDisplay := by rfl
theorem test_decode_setContrastCmd : decodeGroup [0b10000001#8, 0xC8#8] = .ok (.setContrastCmd 0xC8#8) := by rfl

/-- V2.33 to V2.39. -/
theorem test_decode_reserved : decodeRequest 0x00000000#32 = .error (.reservedWord 0x00000000#32) ∧
    decodeRequest 0xFFFFFFFF#32 = .error (.reservedWord 0xFFFFFFFF#32) ∧
    decodeRequest 0x10000001#32 = .error (.reservedWord 0x10000001#32) ∧
    decodeRequest 0x30000002#32 = .error (.reservedWord 0x30000002#32) ∧
    decodeRequest 0x40010000#32 = .error (.reservedWord 0x40010000#32) ∧
    decodeRequest 0x62000000#32 = .error (.reservedWord 0x62000000#32) ∧
    decodeRequest 0x70000001#32 = .error (.reservedWord 0x70000001#32) := ⟨rfl, rfl, rfl, rfl, rfl, rfl, rfl⟩

/-- The table's numbering of a command group: the first byte on the wire is the most significant one. -/
theorem test_table_request : decodeTableWord 32 0x6100500A = some (.setPixel 5 10 .set) := by decide
theorem test_table_groups : decodeTableWord 24 0x210105 = some (.setColumnWindow 1 5) ∧
    decodeTableWord 16 0xA83F = some (.setMuxRatio 0x3F) ∧ decodeTableWord 8 0xAF = some .displayOn := by decide
theorem test_table_frames : decodeTableWord 8 0x80 = some (.dataFrame [0]) ∧ decodeTableWord 8 0x00 = some (.cmdFrame [0]) := by
  decide

/-! ## Meanings: at most two per instruction -/

/-- V2.54 on the small configuration (P1, step 1). -/
theorem test_init : (after (exec .init (bench .uninitialized drawing [yes, yes, yes, yes]))).map
      (fun t => (t.hist, t.ctl, t.disp, t.buffer)) =
    some ([.acq, cmd [0x20#8, 0x00#8] .ok, cmd [0xA8#8, 0x0F#8] .ok, cmd [0x8D#8, 0x14#8] .ok, cmd [0xAF#8] .ok, .rel],
      .ready, ⟨true, 0x7F#8, false⟩, [0#8, 0#8, 0#8, 0#8, 0#8, 0#8, 0#8, 0#8]) := by decide

/-- R104, with `regrouped`. -/
theorem test_init_regrouped : (after (exec .init { bench .failed drawing [yes, yes] with cfg := regrouped })).map
      (fun t => (t.ctl, t.disp)) = some (.ready, ⟨true, 0x33#8, true⟩) := by decide

/-- V2.56. -/
theorem test_init_failure : (after (exec .init (bench .ready drawing [yes, yes, no .arblost]))).map
      (fun t => (t.hist.length, t.ctl, t.buffer, t.responses.map (·.bytes))) =
    some (5, .failed, drawing, [[0x12#8]]) := by decide

/-- P1, step 6. -/
theorem test_update : (after (exec .update (bench .ready [1#8, 0#8, 0#8, 0#8, 0#8, 0#8, 2#8, 0x80#8] [yes, yes, yes, yes, yes]))).map
      (fun t => (t.hist, t.ctl, t.wp)) =
    some ([.acq, cmd [0x21#8, 0x00#8, 0x03#8] .ok, cmd [0x22#8, 0x00#8, 0x01#8] .ok, data [1#8, 0#8, 0#8] .ok,
      data [0#8, 0#8, 0#8] .ok, data [2#8, 0x80#8] .ok, .rel], .ready, 8) := by decide

/-- P2, step 8: the third chunk fails. -/
theorem test_update_failure : (after (exec .update (bench .ready drawing [yes, yes, yes, yes, no .timeout]))).map
      (fun t => (t.ctl, t.wp, t.buffer, t.responses.map (·.bytes))) = some (.failed, 6, drawing, [[0x10#8]]) := by decide

/-- V2.41. -/
theorem test_setInvert : (after (exec (.setInvert true) (bench .uninitialized drawing [yes]))).map
      (fun t => (t.hist, t.disp.inverted, t.ctl)) = some ([.acq, cmd [0xA7#8] .ok, .rel], true, .uninitialized) := by decide

/-- V2.43. -/
theorem test_setInvert_failure : (after (exec (.setInvert true) (bench .ready drawing [no .nack]))).map
      (fun t => (t.hist, t.disp.inverted, t.ctl, t.responses.map (·.bytes))) =
    some ([.acq, cmd [0xA7#8] (.fail .nack), .rel], false, .ready, [[0x11#8]]) := by decide

/-- V2.48. -/
theorem test_setContrast_high : (after (exec (.setContrast 256) (bench .ready drawing [yes]))).map
      (fun t => (t.hist, t.disp.contrast)) = some ([.acq, cmd [0x81#8, 0xFF#8] .ok, .rel], 0xFF#8) := by decide

/-- V2.50. -/
theorem test_setContrast_low : (after (exec (.setContrast (-1)) (bench .ready drawing [yes]))).map
      (fun t => (t.hist, t.disp.contrast)) = some ([.acq, cmd [0x81#8, 0x00#8] .ok, .rel], 0x00#8) := by decide

/-- V2.1. -/
theorem test_clear : (after (exec .clear (bench .failed drawing []))).map (fun t => (t.buffer, t.ctl, t.responses.map (·.bytes))) =
    some ([0#8, 0#8, 0#8, 0#8, 0#8, 0#8, 0#8, 0#8], .failed, [[0x00#8]]) := by decide

/-- P1, step 3: page 1, bit 7, index 7; and the small form of V2.7: CLEAR of one bit of 0xFF. -/
theorem test_setPixel : (after (exec (.setPixel 3 15 .set) (bench .ready (List.replicate 8 0#8) []))).map (·.buffer) =
      some [0#8, 0#8, 0#8, 0#8, 0#8, 0#8, 0#8, 0x80#8] ∧
    (after (exec (.setPixel 2 4 .clear) ready)).map (·.buffer) =
      some [0x01#8, 0x00#8, 0xEF#8, 0x00#8, 0x00#8, 0x00#8, 0x02#8, 0x80#8] := by decide

/-- P1, step 5 and P3, step 8: out of bounds. -/
theorem test_setPixel_outside : (after (exec (.setPixel 4 0 .set) ready)).map (·.buffer) = some drawing ∧
    (after (exec (.setPixel (-1) 3 .set) ready)).map (·.buffer) = some drawing := by decide

/-- P1, step 7. -/
theorem test_getBuffer : (after (exec .getBuffer ready)).map (fun t => t.responses.map (·.bytes)) =
    some [0x00#8 :: drawing] := by decide

/-- F2. -/
theorem test_cmdFrame : (after (exec (.cmdFrame [0x81#8, 0xFF#8]) (inside [yes]))).map (fun t => (t.hist, t.framerReturn)) =
    some ([.acq, cmd [0x81#8, 0xFF#8] .ok], some .ok) := by decide

/-- F4: no retry. -/
theorem test_dataFrame : (after (exec (.dataFrame [0x01#8, 0x00#8, 0x80#8]) (inside [no .nack, yes]))).map
      (fun t => (t.hist, t.framerReturn)) =
    some ([.acq, data [0x01#8, 0x00#8, 0x80#8] (.fail .nack)], some (.fail .nack)) := by decide

/-- F7. -/
theorem test_dataFrame_contract : refusal (exec (.dataFrame []) (inside [yes])) = some (.payloadLength 0) ∧
    refusal (exec (.dataFrame [1#8, 2#8, 3#8, 4#8]) (inside [yes])) = some (.payloadLength 4) := by decide

theorem test_setMemoryMode : (after (exec (.setMemoryMode 0x02#8) (inside [yes]))).map (fun t => (t.hist, t.panel.regs.mode)) =
    some ([.acq, cmd [0x20#8, 0x02#8] .ok], 0x02#8) := by decide
theorem test_setMuxRatio : (after (exec (.setMuxRatio 0x0F#8) (inside [yes]))).map (fun t => (t.hist, t.panel.regs.mux)) =
    some ([.acq, cmd [0xA8#8, 0x0F#8] .ok], 16) := by decide
theorem test_chargePump : (after (exec (.chargePump 0x14#8) (inside [yes]))).map (fun t => (t.hist, t.panel.regs.pump)) =
    some ([.acq, cmd [0x8D#8, 0x14#8] .ok], 0x14#8) := by decide
theorem test_displayOn : (after (exec .displayOn (inside [yes]))).map (fun t => (t.hist, t.panel.regs.on)) =
    some ([.acq, cmd [0xAF#8] .ok], true) := by decide
theorem test_setColumnWindow : (after (exec (.setColumnWindow 1#8 3#8) (inside [yes]))).map
      (fun t => (t.hist, t.panel.regs.cs, t.panel.regs.ce, t.panel.regs.pc)) =
    some ([.acq, cmd [0x21#8, 0x01#8, 0x03#8] .ok], 1, 3, 1) := by decide
theorem test_setPageWindow : (after (exec (.setPageWindow 1#8 2#8) (inside [yes]))).map
      (fun t => (t.hist, t.panel.regs.ps, t.panel.regs.pe, t.panel.regs.pp)) =
    some ([.acq, cmd [0x22#8, 0x01#8, 0x02#8] .ok], 1, 2, 1) := by decide
theorem test_normalDisplay : (after (exec .normalDisplay (inside [yes]))).map (fun t => (t.hist, t.panel.regs.inverted)) =
    some ([.acq, cmd [0xA6#8] .ok], false) := by decide
theorem test_inverseDisplay : (after (exec .inverseDisplay (inside [yes]))).map (fun t => (t.hist, t.panel.regs.inverted)) =
    some ([.acq, cmd [0xA7#8] .ok], true) := by decide
theorem test_setContrastCmd : (after (exec (.setContrastCmd 0xC8#8) (inside [yes]))).map (fun t => (t.hist, t.panel.regs.contrast)) =
    some ([.acq, cmd [0x81#8, 0xC8#8] .ok], 0xC8#8) := by decide

/-- Section 2.6: the eight bytes of P1 land at `gd[p][c] = fb[4p + c]`, and the pointers wrap to (0, 0). -/
theorem test_receiver : (after (exec .update (bench .ready [1#8, 0#8, 0#8, 0#8, 0#8, 0#8, 2#8, 0x80#8] [yes, yes, yes, yes, yes]))).map
      (fun t => (t.panel.ram 0 0, t.panel.ram 1 2, t.panel.ram 1 3, t.panel.regs.pc, t.panel.regs.pp)) =
    some (some 1#8, some 2#8, some 0x80#8, 0, 0) := by decide

/-- R32: a command that R46 does not list leaves the panel's RAM alone. -/
theorem test_unlisted_keeps_the_ram : (after (exec .init { bench .ready drawing [yes] with
      cfg := { small with initSeq := [[0xD5#8, 0x80#8]] }, panel := { panel with gd := [(0, 0xA5#8)] } })).map
    (·.panel.gd) = some [(0, 0xA5#8)] := by decide

/-- R5, U13: with an illegal configuration there is no step, not even one that waits. -/
theorem test_illegal_does_not_step : refusal (step { ready with cfg := { small with maxTxn := 1 } }) = some .invalidConfiguration := by
  decide

/-- R150: a reset keeps what the panel shows. -/
theorem test_reset_keeps_the_panel : ({ ready with panel := { panel with regs := { panel.regs with contrast := 0x55#8 } } } :
    State).afterReset.panel.regs.contrast = 0x55#8 := by decide

/-! ## Witnesses: states and operands that meet the hypotheses of the statements -/

/-- What is left of an `INIT` of the small configuration after its first group. -/
def initRest : List Item := (initPlan small).drop 1

/-- An `INIT` that waits for the lock, which is granted at the second poll. -/
def lockWaiting : State :=
  { bench .uninitialized drawing [yes, yes, yes, yes] with
    activity := some ⟨.init, .lockWait⟩, env := ⟨[false, true], 0, [yes, yes, yes, yes], 0, 1⟩ }

/-- An `INIT` that waits for the answer to its second group. -/
def sending (answers : List (Option TxnResult)) : State :=
  { bench .uninitialized drawing answers with
    activity := some ⟨.init, .sending initRest⟩, lock := true, hist := [.acq, cmd [0x20#8, 0x00#8] .ok] }

theorem panel_wf : panel.gd.wf (Panel.pageCount * Panel.columns) = true := Memory.fill_wf _ _

theorem drawing_wf : Memory.wf small.size ((List.range' 0 8).zip drawing) = true := by decide
theorem size_small : 8 ≤ small.size := by decide

theorem bench_inv (ctl : Ctl) (h : ctl ≠ .updating) (answers : List (Option TxnResult)) (requests : List ReqWord) :
    ({ bench ctl drawing answers with requests := requests } : State).Inv :=
  ⟨test_valid_small, drawing_wf, size_small, panel_wf, rfl, ⟨rfl, h⟩, by simp [busOk, bench, busAfter]⟩
theorem ready_inv : ready.Inv := bench_inv .ready (by decide) _ []
theorem lockWaiting_inv : lockWaiting.Inv :=
  ⟨test_valid_small, drawing_wf, size_small, panel_wf, rfl,
    ⟨rfl, rfl, (by decide : Ctl.uninitialized = .updating ↔ Instr.init = .update)⟩, by simp [busOk, lockWaiting, bench, busAfter]⟩
theorem sending_inv (answers : List (Option TxnResult)) : (sending answers).Inv :=
  ⟨test_valid_small, drawing_wf, size_small, panel_wf, rfl,
    ⟨rfl, rfl, (by decide : Ctl.uninitialized = .updating ↔ Instr.init = .update), (by decide : startsWithTxn initRest = true),
      List.drop_suffix 1 (initPlan small), (by decide : itemsOk small 8 initRest = true)⟩,
    .inr (by decide : busAfter small .free [.acq, cmd [0x20#8, 0x00#8] .ok] = some .held)⟩

theorem bench_idle (ctl : Ctl) (h : ctl ≠ .updating) (answers : List (Option TxnResult)) : (bench ctl drawing answers).Idle :=
  ⟨⟨test_valid_small, rfl, drawing_wf⟩, rfl, h⟩
theorem ready_idle : ready.Idle := bench_idle _ (by decide) _
theorem inside_ready {payload : List Byte} (h : payloadOk small payload = true) (answers : List (Option TxnResult)) :
    (inside answers).FramerReady payload := ⟨test_valid_small, rfl, rfl, h⟩

/-- `exec` answers a next state; the general form of a witness for `exec i s = .next t`. -/
def runs (i : Instr) (s : State) : Prop := ∃ t, exec i s = .next t

theorem runs_of {i : Instr} {s : State} (h : (after (exec i s)).isSome = true) : runs i s := by
  unfold runs
  cases hr : exec i s with
  | next t => exact ⟨t, rfl⟩
  | fault _ => simp [hr, after] at h
  | refused _ => simp [hr, after] at h

/-! Encodings. -/

theorem witness_DecodeOfEncodeIsTheInstruction : small.valid = true ∧
    (∀ i ∈ [.setContrast (-32768), .setContrast 32767, .setPixel (-2048) 2047 .set, .setPixel 2047 (-2048) .clear,
      .cmdFrame [0#8], .dataFrame [1#8, 2#8, 3#8]], Instr.wellFormed small i = true) := by decide
theorem witness_EncodeOfDecodeIsTheCode : decode small (.request 0x61FFF003#32) = .ok (.setPixel (-1) 3 .set) ∧
    decode small (.wire (.frame [0x80#8, 1#8, 2#8, 3#8])) = .ok (.dataFrame [1#8, 2#8, 3#8]) ∧
    decode small (.wire (.group [0x81#8, 0xFF#8])) = .ok (.setContrastCmd 0xFF#8) := ⟨rfl, rfl, rfl⟩
theorem witness_RequestWordsFollowTheTable : 0x10000000#32 &&& 0xFFFFFFFF#32 = 0x10000000#32 ∧
    0x20000000#32 &&& 0xFFFFFFFF#32 = 0x20000000#32 ∧ 0x30000001#32 &&& 0xFFFFFFFE#32 = 0x30000000#32 ∧
    0x40008000#32 &&& 0xFFFF0000#32 = 0x40000000#32 ∧ 0x50000000#32 &&& 0xFFFFFFFF#32 = 0x50000000#32 ∧
    0x617FF800#32 &&& 0xFE000000#32 = 0x60000000#32 ∧ 0x70000000#32 &&& 0xFFFFFFFF#32 = 0x70000000#32 := by decide
theorem witness_ReservedWordsAreRefused : ready.cfg.valid = true ∧ ({ ready with requests := [0x62000000#32] } : State).activity = none ∧
    ({ ready with requests := [0x62000000#32] } : State).framerCall = none ∧
    ∀ r ∈ requestRows, r.selects 0x62000000#32 = false := by decide

/-! Reset, configuration, steps. -/

/-- A legal state inside an operation, which a reset can meet. -/
theorem witness_ResetIsLegal : small.valid = true ∧ (sending [none]).Inv := ⟨by decide, sending_inv _⟩
theorem witness_StepsKeepLegality_idle : ready.Inv ∧ ∃ t, step ready = .next t := ⟨ready_inv, _, rfl⟩
theorem witness_StepsKeepLegality_request :
    ({ bench .uninitialized drawing [yes, yes, yes, yes] with requests := [0x10000000#32] } : State).Inv ∧
    (after (step { bench .uninitialized drawing [yes, yes, yes, yes] with requests := [0x10000000#32] })).map (·.ctl) = some .ready :=
  ⟨bench_inv _ (by decide) _ _, by decide⟩
theorem witness_StepsKeepLegality_sending : (sending [yes, none]).Inv ∧
    (after (step (sending [yes, none]))).map (fun t => (t.hist.length, t.activity.isSome)) = some (3, true) :=
  ⟨sending_inv _, by decide⟩
theorem witness_StepsKeepLegality_lockWait : lockWaiting.Inv ∧
    (after (step lockWaiting)).map (fun t => (t.hist, t.activity)) = some ([], some ⟨.init, .lockWait⟩) :=
  ⟨lockWaiting_inv, by decide⟩
theorem witness_LegalStatesGoOn : ({ bench .uninitialized drawing [] with requests := [0x62000000#32] } : State).Inv :=
  bench_inv _ (by decide) _ _
theorem witness_BufferSizeNeverChanges : (∃ t, step ready = .next t) ∧ ready.fb.wf ready.cfg.size = true := ⟨⟨_, rfl⟩, by decide⟩
theorem witness_StepRunsTheDecodedInstruction :
    (ready.activity = none ∧ ready.framerCall = none ∧ decodeRequest 0x50000000#32 = .ok .clear) ∧
    (({ ready with framerCall := some (.group [0xAF#8]) } : State).activity = none ∧
      decode small (.wire (.group [0xAF#8])) = .ok .displayOn) ∧
    (sending []).activity = some ⟨.init, .sending initRest⟩ ∧ ready.cfg.valid = true ∧ ready.requests = [] :=
  ⟨⟨rfl, rfl, rfl⟩, ⟨rfl, rfl⟩, rfl, by decide, rfl⟩
theorem witness_OverlappingOperationsAreRefused : (sending []).cfg.valid = true ∧
    (sending []).activity = some ⟨.init, .sending initRest⟩ ∧ Instr.clear ≠ .init := ⟨by decide, rfl, by decide⟩
/-- The commands of `regrouped`, whose INIT_SEQ has them in two groups; and, with a command that the spec does not list at the
end of a group, of a longer INIT_SEQ. -/
theorem regrouped_reads : regrouped.InitReads [[0x81#8, 0x33#8], [0xA6#8], [0xA7#8], [0xAF#8]] :=
  ⟨[[0x81#8, 0x33#8], [0xA6#8]], [[0xA7#8], [0xAF#8]], rfl, ⟨by decide, [], rfl, .inl rfl⟩,
    [[0xA7#8], [0xAF#8]], [], rfl, ⟨by decide, [], rfl, .inl rfl⟩, rfl⟩
theorem unlisted_reads : ({ small with initSeq := [[0xAE#8, 0xD5#8, 0x80#8]] } : Config).InitReads [[0xAE#8]] :=
  ⟨[[0xAE#8]], [], rfl, ⟨by decide, [0xD5#8, 0x80#8], rfl, .inr ⟨_, _, rfl, by decide, by decide, by decide, by decide⟩⟩, rfl⟩
theorem witness_IllegalConfigurationsAreRefused : ({ ready with cfg := { small with maxTxn := 1 } } : State).cfg.valid = false ∧
    (small.valid = true ∧ ({ small with width := 256, maxTxn := 3 } : Config).valid = true ∧
      ({ small with width := 257 } : Config).valid = false ∧ ({ small with height := 2040 } : Config).pages = 255) ∧
    regrouped.InitReads [[0x81#8, 0x33#8], [0xA6#8], [0xA7#8], [0xAF#8]] ∧ regrouped.initValuesOk = true ∧
    ({ small with initSeq := [[0xAE#8, 0xD5#8, 0x80#8]] } : Config).InitReads [[0xAE#8]] :=
  ⟨by decide, by decide, regrouped_reads, by decide, unlisted_reads⟩
theorem witness_ResponsesAreNeverChanged : runs .clear ready ∧ runs .init lockWaiting := ⟨runs_of (by decide), runs_of (by decide)⟩
theorem witness_ResponseEndsTheOperation :
    ((sending [yes, yes, yes]).Inv ∧ (after (step (sending [yes, yes, yes]))).map (fun t => t.responses.length) = some 1) ∧
    ((sending [none]).Inv ∧ (after (step (sending [none]))).map (fun t => t.responses.length) = some 0) :=
  ⟨⟨sending_inv _, by decide⟩, sending_inv _, by decide⟩

/-! Framebuffer. -/

theorem witness_IndexMapsAreInverse : small.valid = true ∧ 7 < small.size ∧ (1 < small.pages ∧ 3 < small.width) ∧
    (6 + 1 < small.size ∧ colOf small 6 ≠ small.width - 1) ∧ (3 + 1 < small.size ∧ colOf small 3 = small.width - 1) := by decide
theorem witness_MemoryAccessesAreExact : ready.fb.wf ready.cfg.size = true ∧ 0 + 8 ≤ ready.cfg.size ∧ ready.cfg.size < 7 + 2 ∧
    (0 + drawing.length ≤ ready.cfg.size) ∧ ready.cfg.size < 1 + drawing.length := by decide
theorem witness_ClearZeroesTheBuffer : ready.Free := ready_idle.toFree
theorem witness_SetPixelWritesItsByte : 0x617FF800#32 &&& 0xFE000000#32 = 0x60000000#32 ∧
    (ready.Free ∧ 3 < ready.cfg.width ∧ 15 < ready.cfg.height) ∧ ready.cfg.valid = true ∧ ready.activity = none ∧
    ((-1 : Int) < 0 ∧ (4 : Int) ≥ ready.cfg.width ∧ (16 : Int) ≥ ready.cfg.height) :=
  ⟨by decide, ⟨ready_idle.toFree, by decide, by decide⟩, by decide⟩
theorem witness_FramebufferLaws : (ready.Free ∧ runs (.setPixel 3 15 .set) ready ∧ (2, 15) ≠ (3, 15)) ∧
    runs (.setPixel 4 0 .set) ready ∧ runs .clear ready ∧
    (∃ t, exec (.setInvert true) ready = .next t ∧ runs (.setInvert false) t) ∧
    ∃ t, exec .init ready = .next t ∧ t.fb ≠ ready.fb := by
  refine ⟨⟨ready_idle.toFree, runs_of (by decide), by decide⟩, runs_of (by decide), runs_of (by decide), ?_, ?_⟩
  · obtain ⟨t, h, hp⟩ := next_of_after (r := exec (.setInvert true) ready)
      (p := fun t => (after (exec (.setInvert false) t)).isSome) (by decide)
    exact ⟨t, h, runs_of hp⟩
  · obtain ⟨t, h, hp⟩ := next_of_after (r := exec .init ready) (p := fun t => t.fb != ready.fb) (by decide)
    exact ⟨t, h, by simpa using hp⟩
theorem witness_SetPixelDoesNotReadInvert : runs (.setPixel 0 0 .set) ready := runs_of (by decide)
theorem witness_PixelsOfOneByteAreIndependent : ready.Free ∧ 3 < ready.cfg.width ∧ 15 < ready.cfg.height ∧ 8 < ready.cfg.height ∧
    15 / 8 = 8 / 8 ∧ ∃ t, exec (.setPixel 3 15 .set) ready = .next t ∧ runs (.setPixel 3 8 .clear) t := by
  refine ⟨ready_idle.toFree, by decide, by decide, by decide, by decide, ?_⟩
  obtain ⟨t, h, hp⟩ := next_of_after (r := exec (.setPixel 3 15 .set) ready)
    (p := fun t => (after (exec (.setPixel 3 8 .clear) t)).isSome) (by decide)
  exact ⟨t, h, runs_of hp⟩
theorem witness_GetBufferAnswersTheBytes : ready.Free ∧ runs .clear ready := ⟨ready_idle.toFree, runs_of (by decide)⟩
theorem witness_FramebufferOperationsNeverFail : ready.Free := ready_idle.toFree

/-! Display controller. -/

theorem witness_InitBringsUp : (bench .failed drawing [yes, yes, yes, yes]).Idle ∧
    (bench .failed drawing [yes, yes, yes, yes]).grantAt 0 = true ∧
    ∀ k, k < small.initSeq.length → (bench .failed drawing [yes, yes, yes, yes]).answerAt k = some .ok :=
  ⟨bench_idle _ (by decide) _, rfl, by decide⟩
/-- The clauses on the values of `disp`: no mode command; `0xA7` as the last one, in a group with another command; a contrast
command. -/
theorem witness_InitBringsUp_values :
    (({ small with initSeq := [[0xAE#8, 0xD5#8, 0x80#8]] } : Config).valid = true ∧
      ({ small with initSeq := [[0xAE#8, 0xD5#8, 0x80#8]] } : Config).InitReads [[0xAE#8]] ∧
      ∀ x ∈ [[0xAE#8]], x ≠ [small.cmdNormal] ∧ x ≠ [small.cmdInverse]) ∧
    regrouped.valid = true ∧ regrouped.cmdNormal ≠ regrouped.cmdInverse ∧
    regrouped.InitReads ([[0x81#8, 0x33#8], [0xA6#8]] ++ [if true then regrouped.cmdInverse else regrouped.cmdNormal] :: [[0xAF#8]]) ∧
    (∀ x ∈ [[0xAF#8]], x ≠ [regrouped.cmdNormal] ∧ x ≠ [regrouped.cmdInverse]) ∧
    regrouped.InitReads ([] ++ [regrouped.cmdContrast, 0x33#8] :: [[0xA6#8], [0xA7#8], [0xAF#8]]) ∧
    (∀ x ∈ [[0xA6#8], [0xA7#8], [0xAF#8]], ∀ u, x ≠ [regrouped.cmdContrast, u]) := by
  refine ⟨⟨by decide, unlisted_reads, by decide⟩, by decide, by decide, regrouped_reads, by decide, regrouped_reads, fun x hx u he => ?_⟩
  subst he; simp at hx
theorem witness_InitFailureChangesOnlyCtl : ready.Idle ∧ (3 < small.initSeq.length ∧
    (∀ j, j < 3 → (bench .ready drawing [yes, yes, yes, no .nack]).answerAt j = some .ok) ∧
    (bench .ready drawing [yes, yes, yes, no .nack]).answerAt 3 = some (.fail .nack)) ∧
    (bench .ready drawing [no .nack]).answerAt 0 = some (.fail .nack) :=
  ⟨ready_idle, by decide, rfl⟩
theorem witness_UpdateStreamsTheBuffer : ready.Idle ∧ ready.ctl = .ready ∧ ready.grantAt 0 = true ∧
    ∀ k, k < small.windowSeq.length + chunkCount small → ready.answerAt k = some .ok :=
  ⟨ready_idle, rfl, rfl, by decide⟩
theorem witness_ChunksConcatenateToTheBuffer : ready.cfg.valid = true ∧ ready.fb.wf ready.cfg.size = true ∧ chunkCount ready.cfg = 3 := by
  decide
theorem witness_UpdateDataFailureKeepsTheBuffer : ready.Idle ∧ (2 < chunkCount small ∧
    (∀ j, j < small.windowSeq.length + 2 → (bench .ready drawing [yes, yes, yes, yes, no .nack]).answerAt j = some .ok) ∧
    (bench .ready drawing [yes, yes, yes, yes, no .nack]).answerAt (small.windowSeq.length + 2) = some (.fail .nack)) ∧
    (bench .ready drawing [yes, yes, no .nack]).answerAt (small.windowSeq.length + 0) = some (.fail .nack) :=
  ⟨ready_idle, by decide, rfl⟩
theorem witness_UpdateWindowFailureKeepsThePointer : ready.Idle ∧ 1 < small.windowSeq.length ∧
    (∀ j, j < 1 → (bench .ready drawing [yes, no .timeout]).answerAt j = some .ok) ∧
    (bench .ready drawing [yes, no .timeout]).answerAt 1 = some (.fail .timeout) := ⟨ready_idle, by decide, by decide, rfl⟩
theorem witness_SetInvertSendsOneCommand : (bench .failed drawing []).Idle ∧ (bench .uninitialized drawing [yes]).Idle ∧
    (bench .uninitialized drawing [yes]).grantAt 0 = true ∧ (bench .uninitialized drawing [yes]).answerAt 0 = some .ok ∧
    (bench .ready drawing [no .nack]).answerAt 0 = some (.fail .nack) :=
  ⟨bench_idle _ (by decide) _, bench_idle _ (by decide) _, rfl, rfl, rfl⟩
theorem witness_SetContrastSendsTheClampedLevel : 0x40008000#32 &&& 0xFFFF0000#32 = 0x40000000#32 ∧ (bench .failed drawing []).Idle ∧ (bench .uninitialized drawing [yes]).Idle ∧
    (bench .uninitialized drawing [yes]).grantAt 0 = true ∧ (bench .uninitialized drawing [yes]).answerAt 0 = some .ok ∧
    (bench .ready drawing [no .timeout]).answerAt 0 = some (.fail .timeout) :=
  ⟨by decide, bench_idle _ (by decide) _, bench_idle _ (by decide) _, rfl, rfl, rfl⟩
theorem witness_ClampIsNotATruncation : small.contrastMin = 0 ∧ small.contrastMax = 255 := ⟨rfl, rfl⟩
theorem witness_NotInitializedIsUpdatesAlone : (bench .uninitialized drawing []).Idle ∧
    ∃ t, exec .update (bench .uninitialized drawing []) = .next t ∧ (t.responses == [⟨.notInitialized, []⟩]) = true :=
  ⟨bench_idle _ (by decide) _, next_of_after (by decide)⟩
theorem witness_AlreadyFailedIsOfThreeOperations : (bench .failed drawing []).Idle ∧
    ∃ t, exec (.setInvert true) (bench .failed drawing []) = .next t ∧ (t.responses == [⟨.alreadyFailed, []⟩]) = true :=
  ⟨bench_idle _ (by decide) _, next_of_after (by decide)⟩
theorem witness_TransportErrorIsTheLastResult :
    ∃ t, exec .init (bench .ready drawing [no .nack]) = .next t ∧ (t.responses == [⟨.transport .nack, []⟩]) = true :=
  next_of_after (by decide)
theorem witness_ControlStateTransitions : ready.Inv ∧ runs .init ready ∧ runs .update ready ∧ runs (.setInvert true) ready :=
  ⟨ready_inv, runs_of (by decide), runs_of (by decide), runs_of (by decide)⟩
theorem witness_OperationsWriteOnlyTheirState : ready.Inv ∧ runs .init ready ∧ runs .update ready ∧ runs (.setInvert true) ready ∧
    runs (.setContrast 300) ready ∧
    (sending [yes, none]).Inv ∧ ∃ t, exec .init (sending [yes, none]) = .next t ∧ (t.responses != [⟨.ok, []⟩]) = true :=
  ⟨ready_inv, runs_of (by decide), runs_of (by decide), runs_of (by decide), runs_of (by decide), sending_inv _,
    next_of_after (by decide)⟩
theorem witness_OnlyInitLeavesFailed : (bench .failed drawing [yes, yes, yes, yes]).Inv ∧
    ∃ t, exec .init (bench .failed drawing [yes, yes, yes, yes]) = .next t ∧ (t.ctl != .failed) = true :=
  ⟨bench_inv .failed (by decide) _ [], next_of_after (by decide)⟩
theorem witness_FailedDisplayLeavesTheBusAlone : runs .update (bench .failed drawing []) ∧
    (∃ w, encode small .update = .request w) := ⟨runs_of (by decide), _, rfl⟩
theorem witness_NoDataIsSentOutsideReady : runs (.setInvert true) (bench .uninitialized drawing [yes]) ∧
    runs .init (bench .failed drawing [yes, yes, no .nack]) ∧ (∃ w, encode small (.setInvert true) = .request w) ∧
    (sending [yes, none]).Inv ∧ (sending [yes, none]).ctl = .uninitialized ∧ runs .init (sending [yes, none]) :=
  ⟨runs_of (by decide), runs_of (by decide), ⟨_, rfl⟩, sending_inv _, rfl, runs_of (by decide)⟩

/-! Framer, lock, environment. -/

theorem witness_FramesAreOneTransaction : (inside [no .nack]).FramerReady [1#8, 2#8, 3#8] ∧
    (inside [no .nack]).answerAt 0 = some (.fail .nack) := ⟨inside_ready (by decide) _, rfl⟩
theorem witness_FramerContractIsChecked : (inside []).cfg.valid = true ∧ (inside []).activity = none ∧ (inside []).lock = true ∧
    small.maxTxn < [1#8, 2#8, 3#8, 4#8].length ∧ ready.lock = false := by decide
/-- A legal configuration with MAX_TXN = 2, for which a window group is too long. -/
theorem witness_FramerContractIsChecked_groups : ({ inside [] with cfg := { small with maxTxn := 2, windowSeq := [] } } : State).cfg.valid = true ∧
    encode { small with maxTxn := 2, windowSeq := [] } (.setPageWindow 0#8 1#8) = .wire (.group [0x22#8, 0x00#8, 0x01#8]) ∧
    2 < [0x22#8, 0x00#8, 0x01#8].length ∧ encode ready.cfg .displayOn = .wire (.group [0xAF#8]) := by decide
theorem witness_GroupsAreCommandFrames : encode small (.setPageWindow 0#8 1#8) = .wire (.group [0x22#8, 0x00#8, 0x01#8]) ∧
    (inside [yes]).FramerReady [0x22#8, 0x00#8, 0x01#8] ∧ (inside [yes]).answerAt 0 = some .ok :=
  ⟨rfl, inside_ready (by decide) _, rfl⟩
theorem witness_InitGroupsReachThePanel : (inside [yes]).FramerReady [0xFF#8, 0xFF#8] ∧ (inside [yes]).answerAt 0 = some .ok :=
  ⟨inside_ready (by decide) _, rfl⟩
theorem witness_WindowGroupsReachThePanel : (inside [yes]).FramerReady [0#8, 0#8, 127#8] ∧ (inside [yes]).answerAt 0 = some .ok :=
  ⟨inside_ready (by decide) _, rfl⟩
theorem witness_ModeGroupsReachThePanel : (inside [yes]).FramerReady [0xFF#8, 0xFF#8] ∧ (inside [yes]).answerAt 0 = some .ok :=
  ⟨inside_ready (by decide) _, rfl⟩
theorem witness_UngrantedLockMakesTheOperationWait :
    ({ ready with env := ⟨[false], 0, [], 0, 1⟩ } : State).Idle ∧ isController .update = true ∧ stateCheck .update ready.ctl = none ∧
    ({ ready with env := ⟨[false], 0, [], 0, 1⟩ } : State).grantAt 0 = false :=
  ⟨⟨⟨by decide, rfl, by decide⟩, rfl, by decide⟩, rfl, rfl, rfl⟩
theorem witness_SilentPhyMakesTheOperationWait : (bench .ready drawing [none]).Idle ∧ isController .init = true ∧
    stateCheck .init (bench .ready drawing [none]).ctl = none ∧ (bench .ready drawing [none]).grantAt 0 = true ∧
    (bench .ready drawing [none]).answerAt 0 = none ∧ small.initSeq ≠ [] :=
  ⟨bench_idle _ (by decide) _, rfl, rfl, rfl, rfl, by decide⟩
/-- An `UPDATE` without a window phase: its plan begins with `wp <- 0`. -/
theorem witness_SilentPhyMakesTheOperationWait_rewind : ({ small with windowSeq := [] } : Config).valid = true ∧
    (planOf { small with windowSeq := [] } .update).head? = some .rewind ∧ (planOf small .update).head? ≠ some .rewind := by decide
theorem witness_SilentPhyMakesTheFramerCallWait :
    encode small (.dataFrame [1#8, 2#8, 3#8]) = .wire (.frame (0x80#8 :: [1#8, 2#8, 3#8])) ∧
    encode small .displayOn = .wire (.group [0xAF#8]) ∧ (inside [none]).cfg.valid = true ∧ (inside [none]).lock = true ∧
    payloadOk small [1#8, 2#8, 3#8] = true ∧ (inside [none]).activity = none ∧ (inside [none]).answerAt 0 = none ∧
    ({ inside [yes] with activity := some ⟨.displayOn, .sending [.send small.ctrlCmd [0xAF#8]]⟩ } : State).answerAt 0 = some .ok :=
  ⟨rfl, rfl, by decide, rfl, by decide, rfl, rfl, rfl⟩
/-- New and granted; granted after a wait; and at the PHY, with all three ends. -/
theorem witness_OperationsGoOnWhereTheyStand : (ready.Inv ∧ stateCheck .update ready.ctl = none ∧ ready.grantAt 0 = true) ∧
    (({ lockWaiting with env := ⟨[true], 0, [], 0, 1⟩ } : State).activity = some ⟨.init, .lockWait⟩ ∧
      ({ lockWaiting with env := ⟨[true], 0, [], 0, 1⟩ } : State).grantAt 0 = true) ∧
    (sending [yes, yes, yes]).Inv ∧ (sending []).activity = some ⟨.init, .sending initRest⟩ ∧
    (∀ k, k < (itemPayloads small (sending []).fb 8 initRest).length → (sending [yes, yes, yes]).answerAt k = some .ok) ∧
    (itemPayloads small (sending []).fb 8 initRest)[2]? = some (0x00#8, [0xAF#8]) ∧
    (∀ j, j < 2 → (sending [yes, yes, no .nack]).answerAt j = some .ok) ∧
    (sending [yes, yes, no .nack]).answerAt 2 = some (.fail .nack) ∧ (sending [yes, yes, none]).answerAt 2 = none :=
  ⟨⟨ready_inv, rfl, rfl⟩, ⟨rfl, rfl⟩, sending_inv _, rfl, by decide, rfl, by decide, rfl, rfl⟩
/-- An `UPDATE` that is answered late once, from its request: after one step it waits, after two it has succeeded. -/
def lateUpdate : State := { bench .ready drawing [yes, none, yes, yes, yes, yes] with requests := [0x20000000#32] }
theorem witness_OperationsRunThroughTheirWaits : lateUpdate.Inv ∧ decodeRequest 0x20000000#32 = .ok .update ∧
    (after (Host.Core.run Sys2Proof.core 1 lateUpdate)).map (fun t => (t.requests, t.activity.isSome, t.hist.length)) = some ([], true, 2) ∧
    (after (Host.Core.run Sys2Proof.core 2 lateUpdate)).map (fun t => (t.requests, t.activity.isSome, t.hist.length)) = some ([], false, 7) :=
  ⟨bench_inv _ (by decide) _ _, rfl, by decide, by decide⟩
theorem witness_FairEnvironmentEndsTheOperation :
    (lateUpdate.Inv ∧ LockFair lateUpdate ∧ PhyAnswers lateUpdate (lateUpdate.operationTxns .update).length) ∧
    (lockWaiting.Inv ∧ lockWaiting.activity = some ⟨.init, .lockWait⟩ ∧ LockFair lockWaiting ∧
      PhyAnswers lockWaiting (lockWaiting.operationTxns .init).length) ∧
    (sending [none, yes, none, yes, yes]).Inv ∧
      PhyAnswers (sending [none, yes, none, yes, yes]) (itemPayloads small (sending []).fb 8 initRest).length :=
  ⟨⟨bench_inv _ (by decide) _ _, ⟨0, rfl⟩, 6, by decide⟩, ⟨lockWaiting_inv, rfl, ⟨1, rfl⟩, 4, by decide⟩, sending_inv _, 5, by decide⟩
theorem witness_UngrantedLockHangs : lockWaiting.Inv ∧ lockWaiting.activity = some ⟨.init, .lockWait⟩ ∧
    ∀ j, j < 1 → lockWaiting.grantAt j = false := ⟨lockWaiting_inv, rfl, by decide⟩
theorem witness_HistoryOnlyGrows : runs .init ready := runs_of (by decide)

/-! Receiver. -/

theorem witness_PanelChangesOnlyByTransactions :
    (∃ t, exec (.setMemoryMode 0x02#8) (inside [yes]) = .next t ∧ (t.panel.regs != (inside [yes]).panel.regs) = true) ∧
    ready.Inv ∧ ∃ t, exec .update ready = .next t ∧ (t.panel.ram 0 0 != ready.panel.ram 0 0) = true :=
  ⟨next_of_after (by decide), ready_inv, next_of_after (by decide)⟩
/-- A whole `INIT` without an `UPDATE` in progress or requested. -/
theorem witness_PanelChangesOnlyByTransactions_run :
    ({ bench .uninitialized drawing [yes, yes, yes, yes] with requests := [0x10000000#32] } : State).Inv ∧
    (∀ w ∈ [0x10000000#32], decodeRequest w ≠ .ok .update) ∧
    (after (Host.Core.run Sys2Proof.core 1 { bench .uninitialized drawing [yes, yes, yes, yes] with requests := [0x10000000#32] })).map
      (·.ctl) = some .ready :=
  ⟨bench_inv _ (by decide) _ _, by simp [show decodeRequest 0x10000000#32 = .ok .init from rfl], by decide⟩
theorem witness_FailedTransactionDeliversAFirstPart : (inside [no .arblost]).FramerReady [1#8, 2#8, 3#8] ∧
    (inside [no .arblost]).answerAt 0 = some (.fail .arblost) := ⟨inside_ready (by decide) _, rfl⟩
/-- Both ends of the pointers' ranges: the first place, and the last one, where column and page wrap. -/
theorem witness_DataByteIsStoredAtThePointers : (inside [yes]).FramerReady [0xA5#8] ∧ (inside [yes]).answerAt 0 = some .ok ∧
    panel.regs.mode = 0x00#8 ∧ panel.gd.wf 1024 = true ∧ (panel.regs.pp < 8 ∧ panel.regs.pc < 128) ∧
    ((⟨{ panel.regs with pp := 7, pc := 127 }, panel.gd⟩ : Panel).regs.pp < 8 ∧ 127 = panel.regs.ce ∧ 7 = panel.regs.pe) :=
  ⟨inside_ready (by decide) _, rfl, rfl, panel_wf, by decide, by decide⟩
theorem witness_PanelShowsTheBuffer : ready.Idle ∧ ready.ctl = .ready ∧ ready.grantAt 0 = true ∧
    (∀ k, k < small.windowSeq.length + chunkCount small → ready.answerAt k = some .ok) ∧
    small.windowSeq = [[0x21#8, 0x00#8, BitVec.ofNat 8 (small.width - 1)], [0x22#8, 0x00#8, BitVec.ofNat 8 (small.pages - 1)]] ∧
    small.width ≤ 128 ∧ small.pages ≤ 8 ∧ ready.panel.regs.mode = 0x00#8 ∧ ready.panel.gd.wf 1024 = true :=
  ⟨ready_idle, rfl, rfl, by decide, by decide, by decide, by decide, rfl, panel_wf⟩
theorem witness_PanelShowsTheBuffer_waits : lateUpdate.Inv ∧ decodeRequest 0x20000000#32 = .ok .update ∧
    small.windowSeq = [[0x21#8, 0x00#8, BitVec.ofNat 8 (small.width - 1)], [0x22#8, 0x00#8, BitVec.ofNat 8 (small.pages - 1)]] ∧
    small.width ≤ 128 ∧ small.pages ≤ 8 ∧ lateUpdate.panel.regs.mode = 0x00#8 ∧
    (after (Host.Core.run Sys2Proof.core 2 lateUpdate)).map (fun t => (t.requests, t.responses)) = some ([], [⟨.ok, []⟩]) :=
  ⟨bench_inv _ (by decide) _ _, rfl, by decide, by decide, by decide, rfl, by decide⟩

end Sys2Proof.Tests
end

namespace Sys2Proof

/-! ### R5: a configuration that breaks a constraint has no run, and which configurations those are -/

namespace Machine

/-- Every meaning is gated: the configuration and the operation in progress are checked before anything else (R5, R154). -/
theorem exec_gated (i : Instr) (s : State) : ∃ k, exec i s = s.gate i k := by
  cases i <;> exact ⟨_, rfl⟩

theorem State.gate_illegal {s : State} (hv : s.cfg.valid = false) (i : Instr) (k : Result) :
    s.gate i k = .refused .invalidConfiguration := configured_illegal hv _

theorem exec_illegal {s : State} (hv : s.cfg.valid = false) (i : Instr) : exec i s = .refused .invalidConfiguration := by
  obtain ⟨k, hk⟩ := exec_gated i s
  rw [hk, State.gate_illegal hv]

theorem step_illegal {s : State} (hv : s.cfg.valid = false) : step s = .refused .invalidConfiguration :=
  State.configured_illegal hv _

end Machine

namespace Config

/-! Each check of `Config.valid` as what it asks for. -/

theorem geometryOk_iff (c : Config) : c.geometryOk = true ↔ (1 ≤ c.width ∧ 8 ≤ c.height) ∧ c.height % 8 = 0 := by
  simp [geometryOk]

theorem fieldsOk_iff (c : Config) :
    c.fieldsOk = true ↔ (c.width ≤ 256 ∧ c.height / 8 ≤ 256) ∧ c.width < 2048 ∧ c.height < 2048 := by
  simp [fieldsOk, and_assoc, show c.height / 8 = c.pages from rfl]

theorem groupOk_iff (c : Config) (g : List Byte) : c.groupOk g = true ↔ g.length ≤ c.maxTxn ∧ g ≠ [] := by
  simp [groupOk, Nat.one_le_iff_ne_zero, and_comm]

theorem groupsOk_iff (c : Config) : c.groupsOk = true ↔
    (2 ≤ c.maxTxn ∧ ∀ g ∈ c.initSeq ++ c.windowSeq, g.length ≤ c.maxTxn) ∧ ∀ g ∈ c.initSeq ++ c.windowSeq, g ≠ [] := by
  have hall : c.groupsOk = true ↔ 2 ≤ c.maxTxn ∧ ∀ g ∈ c.initSeq ++ c.windowSeq, c.groupOk g = true := by
    simp only [groupsOk, Bool.and_eq_true, decide_eq_true_eq, List.all_eq_true, List.forall_mem_append, and_assoc]
  simp only [hall, groupOk_iff, imp_and, forall_and, and_assoc]

theorem controlBytesOk_iff (c : Config) : c.controlBytesOk = true ↔
    if c.topBitRule then c.ctrlCmd.getLsbD 7 ≠ c.ctrlData.getLsbD 7 else c.ctrlCmd ≠ c.ctrlData := by
  unfold controlBytesOk
  split <;> exact bne_iff_ne

theorem contrastOk_iff (c : Config) :
    c.contrastOk = true ↔ 0 ≤ c.contrastMin ∧ c.contrastMin ≤ c.contrastMax ∧ c.contrastMax ≤ 255 := by
  simp [contrastOk, and_assoc]

/-- The legal configurations, in the order of R5 (a) to (g), then U15 and R104. -/
theorem valid_iff (c : Config) : c.valid = true ↔
    (1 ≤ c.width ∧ 8 ≤ c.height) ∧ c.height % 8 = 0 ∧ (c.width ≤ 256 ∧ c.height / 8 ≤ 256) ∧
    (2 ≤ c.maxTxn ∧ ∀ g ∈ c.initSeq ++ c.windowSeq, g.length ≤ c.maxTxn) ∧
    (∀ g ∈ c.initSeq ++ c.windowSeq, g ≠ []) ∧
    (if c.topBitRule then c.ctrlCmd.getLsbD 7 ≠ c.ctrlData.getLsbD 7 else c.ctrlCmd ≠ c.ctrlData) ∧
    (c.width < 2048 ∧ c.height < 2048) ∧
    (0 ≤ c.contrastMin ∧ c.contrastMin ≤ c.contrastMax ∧ c.contrastMax ≤ 255) ∧ c.initValuesOk = true := by
  simp only [valid, Bool.and_eq_true, geometryOk_iff, fieldsOk_iff, groupsOk_iff, controlBytesOk_iff, contrastOk_iff]
  tauto

/-! R104: when the initial values match an `INIT_SEQ` that is read as commands. -/

/-- The initial `inverted` matches exactly if it is 1 just when the last display-mode command is `CMD_INVERSE`. -/
theorem inverted_matches_iff {c : Config} {cmds : List (List Byte)} (h : c.InitReads cmds) :
    c.initLeaves.inverted.all (· == c.initInverted) = true ↔
      (c.initInverted = true ↔ c.cmdInverse ≠ c.cmdNormal ∧
        cmds.reverse.find? (fun x => x == [c.cmdNormal] || x == [c.cmdInverse]) = some [c.cmdInverse]) := by
  rw [initLeaves_eq h, commandsLeave_inverted (GroupsRead.isCommand h)]
  cases hl : cmds.reverse.find? fun x => x == [c.cmdNormal] || x == [c.cmdInverse] with
  | none => cases c.initInverted <;> simp
  | some x =>
    obtain rfl | rfl : x = [c.cmdNormal] ∨ x = [c.cmdInverse] := by simpa using List.find?_some hl
    · cases c.initInverted <;> simp [eq_comm]
    · cases c.initInverted <;> simp

/-- `INIT_CONTRAST` matches exactly if it is the argument of the last contrast command, if there is one. -/
theorem contrast_matches_iff {c : Config} {cmds : List (List Byte)} (h : c.InitReads cmds) :
    c.initLeaves.contrast.all (· == c.initContrast) = true ↔
      ∀ v, cmds.reverse.find? (fun x => x.head? == some c.cmdContrast) = some [c.cmdContrast, v] → c.initContrast = v := by
  have hc := GroupsRead.isCommand h
  rw [initLeaves_eq h, commandsLeave_contrast hc]
  cases hl : cmds.reverse.find? fun x => x.head? == some c.cmdContrast with
  | none => simp
  | some x =>
    obtain ⟨cmd, args, rfl, ha⟩ := isCommand_cases (hc x (List.mem_reverse.mp (List.mem_of_find?_eq_some hl)))
    obtain rfl : cmd = c.cmdContrast := by simpa using List.find?_some hl
    obtain ⟨u, rfl⟩ : ∃ u, args = [u] := List.length_eq_one_iff.mp (by simpa [argsOf, eq_comm] using ha)
    simpa using eq_comm

end Config

/-- Settles O14: the gate of every meaning and of the step refuses first (R5); `Config.valid` is unfolded check by check; and what
`INIT_SEQ` leaves is what its last display-mode command and its last contrast command leave (R104, log 27). -/
theorem illegalConfigurationsAreRefused : Obligations.IllegalConfigurationsAreRefused := by
  refine ⟨fun s hv => ⟨Machine.step_illegal hv, Machine.exec_illegal hv⟩, Config.valid_iff, fun c cmds h => ?_⟩
  rw [Config.initValuesOk, Bool.and_eq_true, and_comm, Config.inverted_matches_iff h, Config.contrast_matches_iff h]

end Sys2Proof

namespace Sys2Proof

/-! ### What a step takes, and what it runs (R25, R55, R150) -/

namespace Machine

theorem State.fetch_call {s : State} {c : WireCode} (ha : s.activity = none) (hc : s.framerCall = some c) :
    s.fetch = .code (.wire c) { s with framerCall := none } := by
  simp [fetch, ha, hc]

theorem State.fetch_request {s : State} {w : ReqWord} {rest : List ReqWord} (ha : s.activity = none)
    (hc : s.framerCall = none) (hr : s.requests = w :: rest) :
    s.fetch = .code (.request w) { s with requests := rest } := by
  simp [fetch, ha, hc, hr]

theorem State.fetch_idle {s : State} (ha : s.activity = none) (hc : s.framerCall = none) (hr : s.requests = []) :
    s.fetch = .idle := by
  simp [fetch, ha, hc, hr]

/-- A code that is decoded is run; with an illegal configuration both sides are the same refusal (R5). -/
theorem step_code {s rest : State} {code : Code} {i : Instr} (hf : s.fetch = .code code rest) (hcfg : rest.cfg = s.cfg)
    (hd : decode s.cfg code = .ok i) : step s = exec i rest := by
  cases hv : s.cfg.valid with
  | false => rw [step_illegal hv, exec_illegal (hcfg ▸ hv)]
  | true => simp [step, hf, hd, hv]

theorem step_resume {s : State} {a : Activity} (ha : s.activity = some a) : step s = exec a.op s := by
  cases hv : s.cfg.valid with
  | false => rw [step_illegal hv, exec_illegal hv]
  | true => exact step_busy ha hv

theorem step_idle {s : State} (hv : s.cfg.valid = true) (hf : s.fetch = .idle) : step s = .next s := by
  simp [step, hf, hv]

/-- Everything a step from a legal state can do when it goes on: wait, take a request and run it, or go on with the operation
in progress. -/
theorem step_next {s t : State} (hs : s.Inv) (h : step s = .next t) :
    t = s ∨ ∃ i rest, exec i { s with requests := rest } = .next t ∧
      ((s.activity = none ∧ ∃ w, s.requests = w :: rest ∧ decodeRequest w = .ok i) ∨
       (rest = s.requests ∧ ∃ stage, s.activity = some ⟨i, stage⟩)) := by
  rcases Option.eq_none_or_eq_some s.activity with ha | ⟨⟨op, stage⟩, ha⟩
  · rcases hr : s.requests with _ | ⟨w, rest⟩
    · rw [step_idle hs.config (State.fetch_idle ha hs.noCall hr)] at h
      injection h with h
      exact .inl h.symm
    · have hf := State.fetch_request ha hs.noCall hr
      rcases hd : decodeRequest w with e | i
      · simp [step, hf, decode, hd, hs.config] at h
      · rw [step_code hf rfl hd] at h
        exact .inr ⟨i, rest, h, .inl ⟨ha, w, rfl, hd⟩⟩
  · rw [step_resume ha] at h
    exact .inr ⟨op, s.requests, h, .inr ⟨rfl, stage, ha⟩⟩

end Machine

/-- Settles O12: each clause is what `fetch` answers there; an illegal configuration is refused alike by the step and by the
instruction. -/
theorem stepRunsTheDecodedInstruction : Obligations.StepRunsTheDecodedInstruction :=
  ⟨fun _ _ _ _ ha hc hr hd => Machine.step_code (Machine.State.fetch_request ha hc hr) rfl hd,
    fun _ _ _ ha hc hd => Machine.step_code (Machine.State.fetch_call ha hc) rfl hd,
    fun _ _ ha => Machine.step_resume ha,
    fun _ hv ha hc hr => Machine.step_idle hv (Machine.State.fetch_idle ha hc hr)⟩

/-! ### Legal states: after reset, and after every step (R17 to R19, R23, R25, R78, R150) -/

namespace Machine
open State

/-- After a reset of any number the state is legal, if the configuration is and the panel's RAM is whole. -/
theorem atReset_inv {c : Config} (hc : c.valid = true) (n : Nat) (env : Env) {panel : Panel}
    (hp : panel.gd.wf (Panel.pageCount * Panel.columns) = true) : (State.atReset c n env panel).Inv where
  config := hc
  buffer := Memory.ofFn_wf _ _
  pointer := Nat.le_of_lt_succ (Nat.mod_lt _ (Nat.succ_pos _))
  ram := hp
  noCall := rfl
  activity := ⟨rfl, by simp [State.atReset]⟩
  bus := rfl

/-- Responses are what the block has given away: they are no part of legality, like the requests still to come. -/
theorem Inv_responses {s : State} (hs : s.Inv) (responses : List Response) : ({ s with responses := responses } : State).Inv :=
  ⟨hs.config, hs.buffer, hs.pointer, hs.ram, hs.noCall, hs.activity, hs.bus⟩

theorem Inv_none {s : State} (hs : s.Inv) (ha : s.activity = none) : s.lock = false ∧ s.ctl ≠ .updating := by
  have hact := hs.activity
  unfold activityOk at hact
  rwa [ha] at hact

theorem Inv_some {s : State} (hs : s.Inv) {op : Instr} {stage : Stage} (ha : s.activity = some ⟨op, stage⟩) :
    isController op = true := by
  have hact := hs.activity
  unfold activityOk at hact
  rw [ha] at hact
  cases stage <;> exact hact.1

theorem exec_overlaps {s t : State} {i : Instr} (h : exec i s = .next t) : s.overlaps i = false := by
  obtain ⟨k, hk⟩ := exec_gated i s
  exact (gate_next (hk ▸ h)).2.1

/-- In a legal state no framer call runs by itself: the lock is free, or an operation of the requester holds it (log 12). -/
theorem exec_not_wire {s t : State} {i : Instr} (hs : s.Inv) (h : exec i s = .next t) (w : WireCode) :
    encode s.cfg i ≠ .wire w := by
  intro hw
  obtain ⟨ctrl, payload, _, he⟩ := exec_wire hw
  obtain ⟨_, ho, hk⟩ := gate_next (he ▸ h)
  obtain ⟨hl, _⟩ := framer_next hk
  rcases ha : s.activity with _ | ⟨op, stage⟩
  · simp [(Inv_none hs ha).1] at hl
  · obtain rfl : op = i := (overlaps_some ha i).mp ho
    have hi := Inv_some hs ha
    cases op <;> simp [isController, encode] at hi hw

/-- What runs in a legal state is an operation of the requester. -/
theorem exec_kinds {s t : State} {i : Instr} (hs : s.Inv) (h : exec i s = .next t) :
    (i = .clear ∨ i = .getBuffer ∨ ∃ x y color, i = .setPixel x y color) ∨ isController i = true := by
  rcases instr_kinds s.cfg i with hi | hi | ⟨w, hw⟩
  · exact .inl hi
  · exact .inr hi
  · exact absurd hw (exec_not_wire hs h w)

/-- Every instruction that runs in a legal state leaves a legal state, responded or still in progress. -/
theorem exec_legal {s t : State} {i : Instr} (hs : s.Inv) (h : exec i s = .next t) : RanLegally s t := by
  have ho := exec_overlaps h
  have hran : ∃ u, exec i s = .next u ∧ RanLegally s u := by
    rcases exec_kinds hs h with hi | hi
    · exact exec_framebuffer_legal hs hi ho
    · exact exec_controller_legal hs hi ho
  obtain ⟨u, hu, hran⟩ := hran
  rw [h] at hu
  injection hu with hu
  exact hu ▸ hran

/-- So does every step that does not merely wait. -/
theorem step_legal {s t : State} (hs : s.Inv) (h : step s = .next t) : t = s ∨ RanLegally s t := by
  rcases step_next hs h with rfl | ⟨i, rest, hx, _⟩
  · exact .inl rfl
  · obtain ⟨hinv, hresp⟩ := exec_legal (Inv_taken hs rest) hx
    exact .inr ⟨hinv, hresp⟩

theorem step_inv {s t : State} (hs : s.Inv) (h : step s = .next t) : t.Inv := by
  rcases step_legal hs h with rfl | hran
  · exact hs
  · exact hran.inv

end Machine

/-- Settles O9: a step from a legal state waits, or runs an operation of the requester, which leaves a legal state. -/
theorem stepsKeepLegality : Obligations.StepsKeepLegality := fun _ _ hs h => Machine.step_inv hs h

/-- Settles O16: what ran has responded and is over, or has not and is in progress; between operations a legal state has the lock
free and `ctl` not UPDATING. -/
theorem responseEndsTheOperation : Obligations.ResponseEndsTheOperation := by
  intro s t hs h
  rcases Machine.step_legal hs h with rfl | ⟨hinv, ⟨hresp, hact⟩ | ⟨hresp, hact⟩⟩
  · exact ⟨fun hne => absurd rfl hne, fun _ => .inl rfl⟩
  · exact ⟨fun _ => ⟨hact, Machine.Inv_none hinv hact⟩, fun he => absurd he hresp⟩
  · exact ⟨fun hne => absurd hresp hne, fun _ => .inr hact⟩

/-- Settles O7: the fields that R23 fixes, and those that a reset of the running block keeps (R150, log 25). -/
theorem resetIsUninitializedAndQuiet : Obligations.ResetIsUninitializedAndQuiet :=
  fun _ => ⟨rfl, rfl, rfl, rfl, rfl, fun _ => by simp⟩

/-- Settles O8: every reset is `State.atReset`, with the free panel or with that of the state it meets. -/
theorem resetIsLegal : Obligations.ResetIsLegal :=
  ⟨fun _ hc => Machine.atReset_inv hc _ _ (Machine.Panel.free_wf _),
    Machine.atReset_inv (by decide) _ _ (Machine.Panel.free_wf _),
    fun s hs => Machine.Inv_responses (Machine.Inv_taken (Machine.atReset_inv hs.config _ _ hs.ram) s.requests) s.responses⟩

/-! ### What each instruction may write (R24, R26, R43, R46) -/

namespace Machine
open State

/-- The four display-controller operations that answer a next state are the common shape of R100 with exactly these effects, in
any state. -/
theorem exec_controller_effects {s t : State} {i : Instr} (hi : isController i = true) (h : exec i s = .next t) :
    s.controller i (planOf s.cfg i) (fun u => { u with ctl := u.busyCtl i }) (fun u => { u.succeeded i with wp := u.wp })
      (fun u => { u with ctl := u.failedCtl i }) = .next t := by
  cases i <;> simp only [isController, Bool.false_eq_true] at hi
  case init => exact (gate_next h).2.2
  case update =>
    have hk := (gate_next h).2.2
    split_ifs at hk
    exact hk
  case setInvert flag => exact (gate_next h).2.2
  case setContrast level => exact (gate_next h).2.2

/-- The state in which a bracket begins. -/
theorem acquired_afterLockPoll (s : State) : s.afterLockPoll.acquired =
    { s with lock := true, hist := s.hist ++ [.acq], env := s.afterLockPoll.env } := by
  conv_lhs => rw [State.acquired, afterLockPoll_eq]
  rfl

/-- Everything a display-controller operation can do when it answers a next state: it is rejected; it waits for the lock; or it
holds the lock, granted now or in an earlier step, and sends its plan or what is left of it. -/
theorem exec_controller_cases {s t : State} {i : Instr} (hi : isController i = true) (h : exec i s = .next t) :
    (∃ e, t = s.raise e) ∨
    (∃ c env, t = { s with ctl := c, env := env, activity := some ⟨i, .lockWait⟩ }) ∨
    ∃ items c start env, (items = planOf s.cfg i ∨ s.activity = some ⟨i, .sending items⟩) ∧
      t = finish i (fun u => { u.succeeded i with wp := u.wp }) (fun u => { u with ctl := u.failedCtl i })
        (sendAll items { s with ctl := c, lock := true, hist := s.hist ++ start, env := env }) := by
  rcases controller_next (exec_controller_effects hi h) with
    ⟨e, _, _, rfl⟩ | ⟨b, hb, _, hw⟩ | ⟨o, rest, ha, hl, rfl⟩
  · exact .inl ⟨e, rfl⟩
  · obtain ⟨c, rfl⟩ : ∃ c, b = { s with ctl := c } := by
      rcases hb with ⟨_, _, rfl⟩ | ⟨_, rfl⟩
      · exact ⟨_, rfl⟩
      · exact ⟨b.ctl, rfl⟩
    rcases hw with ⟨_, rfl⟩ | ⟨_, rfl⟩
    · exact .inr (.inl ⟨c, _, by rw [afterLockPoll_eq]⟩)
    · exact .inr (.inr ⟨_, c, _, _, .inl rfl, by rw [acquired_afterLockPoll]⟩)
  · obtain rfl : o = i := (overlaps_some ha i).mp (exec_overlaps h)
    refine .inr (.inr ⟨rest, s.ctl, [], s.env, .inr ha, ?_⟩)
    rw [List.append_nil, ← hl]

/-- What the end of an operation keeps of the run: success writes `ctl`, `disp` and `fb` only, failure `ctl`
only, and both leave the panel and `wp` to the run. -/
theorem finish_run (i : Instr) (r : State × Sent) :
    (finish i (fun u => { u.succeeded i with wp := u.wp }) (fun u => { u with ctl := u.failedCtl i }) r).wp = r.1.wp ∧
    (finish i (fun u => { u.succeeded i with wp := u.wp }) (fun u => { u with ctl := u.failedCtl i }) r).panel =
      r.1.panel := by
  obtain ⟨u, _ | kind | rest⟩ := r
  · cases i <;> exact ⟨rfl, rfl⟩
  · exact ⟨rfl, rfl⟩
  · exact ⟨rfl, rfl⟩

theorem succeeded_shape (i : Instr) (u : State) :
    ∃ c d f, ({ u.succeeded i with wp := u.wp } : State) = { u with ctl := c, disp := d, fb := f } ∧
      (f = u.fb ∨ (i = .init ∧ f = Memory.fill u.cfg.size 0x00#8)) := by
  cases i
  case init => exact ⟨_, _, _, rfl, .inr ⟨rfl, rfl⟩⟩
  all_goals exact ⟨_, _, _, rfl, .inl rfl⟩

/-- What success writes to `fb` and `disp` depends on these and the configuration only. -/
theorem succeeded_congr {s u : State} (i : Instr) (hc : u.cfg = s.cfg) (hf : u.fb = s.fb) (hd : u.disp = s.disp) :
    (u.succeeded i).fb = (s.succeeded i).fb ∧ (u.succeeded i).disp = (s.succeeded i).disp := by
  cases i <;> simp [succeeded, hc, hf, hd]

/-- `fb` and `disp` are written with the response `OK` only, and then as the operation's success has it (R104, R112, R115). -/
theorem exec_controller_writes {s t : State} {i : Instr} (hi : isController i = true) (h : exec i s = .next t) :
    (t.fb = s.fb ∧ t.disp = s.disp) ∨
    (t.responses = s.responses ++ [⟨.ok, []⟩] ∧ t.fb = (s.succeeded i).fb ∧ t.disp = (s.succeeded i).disp) := by
  rcases exec_controller_cases hi h with ⟨e, rfl⟩ | ⟨c, env, rfl⟩ | ⟨items, c, start, env, _, rfl⟩
  · exact .inl ⟨rfl, rfl⟩
  · exact .inl ⟨rfl, rfl⟩
  · generalize hb : ({ s with ctl := c, lock := true, hist := s.hist ++ start, env := env } : State) = b
    have hsame := sendAll_same items b
    have hfb : (sendAll items b).1.fb = s.fb := hsame.fb.trans (hb ▸ rfl)
    have hdisp : (sendAll items b).1.disp = s.disp := hsame.disp.trans (hb ▸ rfl)
    rcases finish_cases i (fun u => { u.succeeded i with wp := u.wp }) (fun u => { u with ctl := u.failedCtl i })
      (sendAll items b) with ⟨_, hend⟩ | ⟨kind, _, hend⟩ | ⟨rest, _, hend⟩ <;> rw [hend]
    · obtain ⟨c', d, f, hshape, _⟩ := succeeded_shape i (sendAll items b).1
      obtain ⟨h1, h2⟩ := succeeded_congr i (hsame.cfg.trans (hb ▸ rfl)) hfb hdisp
      refine .inr ⟨?_, h1, h2⟩
      rw [respond_responses, release_responses, hshape]
      exact congrArg (· ++ _) (hsame.responses.trans (hb ▸ rfl))
    · exact .inl ⟨hfb, hdisp⟩
    · exact .inl ⟨hfb, hdisp⟩

/-- A display-controller operation other than `UPDATE` sends commands only: `wp` and the panel's RAM stay (R18, R32, R101). -/
theorem exec_commands_frame {s t : State} {i : Instr} (hs : s.Inv) (hi : isController i = true) (hne : i ≠ .update)
    (h : exec i s = .next t) : t.wp = s.wp ∧ t.panel.gd = s.panel.gd := by
  rcases exec_controller_cases hi h with ⟨e, rfl⟩ | ⟨c, env, rfl⟩ | ⟨items, c, start, env, hitems, rfl⟩
  · exact ⟨rfl, rfl⟩
  · exact ⟨rfl, rfl⟩
  · have hplan : allCommands s.cfg (planOf s.cfg i) := plan_commands hi hne
    have hcmd : allCommands s.cfg items := by
      rcases hitems with rfl | ha
      · exact hplan
      · obtain ⟨_, _, _, _, hsuffix, _⟩ := Inv_sending hs ha
        exact suffix_commands hsuffix hplan
    generalize hb : ({ s with ctl := c, lock := true, hist := s.hist ++ start, env := env } : State) = b
    have hcmd' : allCommands b.cfg items := hb ▸ hcmd
    obtain ⟨hwp, hpanel⟩ := finish_run i (sendAll items b)
    rw [hwp, hpanel, (sendAll_commands hcmd').1, sendAll_commands_gd (hb ▸ hs.config) hcmd', ← hb]
    exact ⟨rfl, rfl⟩

end Machine

/-- Settles O39: `fb` and `disp` are written by success alone, and as `State.succeeded` has it; `wp` stays where only commands are
sent. -/
theorem operationsWriteOnlyTheirState : Obligations.OperationsWriteOnlyTheirState := by
  refine ⟨fun s t hs h => ⟨(Machine.exec_commands_frame hs rfl (by simp) h).1, fun hne => ?_⟩, fun s t h => ?_,
    fun s t flag hs h => ?_, fun s t level hs h => ?_, fun i s t h => ?_⟩
  · rcases Machine.exec_controller_writes rfl h with hsame | ⟨hok, _⟩
    · exact hsame
    · exact absurd hok hne
  · rcases Machine.exec_controller_writes rfl h with hsame | ⟨_, hsame⟩
    · exact hsame
    · exact hsame
  · obtain ⟨hwp, _⟩ := Machine.exec_commands_frame hs rfl (by simp) h
    obtain ⟨hctl, hfb, _⟩ := Machine.execSetInvert_frame h
    rcases Machine.exec_controller_writes rfl h with ⟨_, hdisp⟩ | ⟨hok, _, hdisp⟩ <;> rw [hdisp]
    · exact ⟨hfb, hctl, hwp, rfl, rfl, fun _ => rfl⟩
    · exact ⟨hfb, hctl, hwp, rfl, rfl, fun hne => absurd hok hne⟩
  · obtain ⟨hwp, _⟩ := Machine.exec_commands_frame hs rfl (by simp) h
    obtain ⟨hctl, hfb, _⟩ := Machine.execSetContrast_frame h
    rcases Machine.exec_controller_writes rfl h with ⟨_, hdisp⟩ | ⟨hok, _, hdisp⟩ <;> rw [hdisp]
    · exact ⟨hfb, hctl, hwp, rfl, rfl, fun _ => rfl⟩
    · exact ⟨hfb, hctl, hwp, rfl, rfl, fun hne => absurd hok hne⟩
  · obtain ⟨hcfg, hreq, hcall, _⟩ := Machine.exec_frame h
    exact ⟨hcfg, hreq, hcall⟩

namespace Machine
open State

/-- Every instruction changes the panel by the transactions it appends (log 24, log 29). -/
theorem exec_panelEvents {s t : State} {i : Instr} (h : exec i s = .next t) :
    ∃ es, t.hist = s.hist ++ es ∧ panelEvents s t es := by
  rcases instr_kinds s.cfg i with hi | hi | ⟨w, hw⟩
  · obtain ⟨_, _, f, data, rfl, _⟩ := exec_framebuffer hi h
    exact ⟨[], by simp, panelEvents_same rfl _⟩
  · rcases exec_controller_cases hi h with ⟨e, rfl⟩ | ⟨c, env, rfl⟩ | ⟨items, c, start, env, _, rfl⟩
    · exact ⟨[], by simp, panelEvents_same rfl _⟩
    · exact ⟨[], by simp, panelEvents_same rfl _⟩
    · obtain ⟨es, hhist, hes⟩ := finish_panel
        (s := { s with ctl := c, lock := true, hist := s.hist ++ start, env := env }) items (succeeded_shape i)
        (fun u => ⟨u.failedCtl i, rfl⟩)
      exact ⟨start ++ es, by rw [hhist, List.append_assoc], panelEvents_mono hes (List.subset_append_right _ _)⟩
  · obtain ⟨ctrl, payload, _, he⟩ := exec_wire hw
    obtain ⟨_, _, ⟨r, _, rfl⟩ | ⟨_, rfl⟩⟩ := framer_next (gate_next (he ▸ h)).2.2
    · exact ⟨[_], answered_hist .., panelEvents_answered rfl (answered_cfg ..) (panelEvents_same rfl [])⟩
    · exact ⟨[], by simp, panelEvents_same (afterPhyPoll_panel s) _⟩

/-- What is in progress after an instruction is that instruction (R25, R154). -/
theorem exec_activity {s t : State} {i : Instr} (h : exec i s = .next t) :
    t.activity = none ∨ ∃ stage, t.activity = some ⟨i, stage⟩ := by
  rcases instr_kinds s.cfg i with hi | hi | ⟨w, hw⟩
  · obtain ⟨_, _, f, data, rfl, _⟩ := exec_framebuffer hi h
    exact .inl rfl
  · rcases exec_controller_cases hi h with ⟨e, rfl⟩ | ⟨c, env, rfl⟩ | ⟨items, c, start, env, _, rfl⟩
    · exact .inl rfl
    · exact .inr ⟨_, rfl⟩
    · rcases finish_cases i _ _ (sendAll items _) with ⟨_, hend⟩ | ⟨kind, _, hend⟩ | ⟨rest, _, hend⟩ <;> rw [hend]
      · exact .inl rfl
      · exact .inl rfl
      · exact .inr ⟨_, rfl⟩
  · obtain ⟨ctrl, payload, _, he⟩ := exec_wire hw
    obtain ⟨_, _, ⟨r, _, rfl⟩ | ⟨_, rfl⟩⟩ := framer_next (gate_next (he ▸ h)).2.2
    · exact .inl rfl
    · exact .inr ⟨_, rfl⟩

/-- In a legal state only `UPDATE` reaches the panel's RAM (R32, R43). -/
theorem exec_gd {s t : State} {i : Instr} (hs : s.Inv) (hne : i ≠ .update) (h : exec i s = .next t) :
    t.panel.gd = s.panel.gd := by
  rcases exec_kinds hs h with hi | hi
  · obtain ⟨_, _, f, data, rfl, _⟩ := exec_framebuffer hi h
    rfl
  · exact (exec_commands_frame hs hi hne h).2

/-- No `UPDATE` is in progress, and none is requested. -/
structure NoUpdate (s : State) : Prop where
  activity : ∀ stage, s.activity ≠ some ⟨.update, stage⟩
  requests : ∀ w ∈ s.requests, decodeRequest w ≠ .ok .update

/-- Then a step neither starts one nor reaches the panel's RAM. -/
theorem step_noUpdate {s t : State} (hs : s.Inv) (hn : NoUpdate s) (h : step s = .next t) :
    NoUpdate t ∧ t.panel.gd = s.panel.gd := by
  rcases step_next hs h with rfl | ⟨i, rest, hx, hrun⟩
  · exact ⟨hn, rfl⟩
  have hne : i ≠ .update := by
    rintro rfl
    rcases hrun with ⟨_, w, hr, hd⟩ | ⟨_, stage, ha⟩
    · exact hn.requests w (by simp [hr]) hd
    · exact hn.activity stage ha
  have hsub : rest ⊆ s.requests := by
    rcases hrun with ⟨_, w, hr, _⟩ | ⟨rfl, _⟩
    · simp [hr]
    · exact List.Subset.refl _
  have hgd := exec_gd (Inv_taken hs rest) hne hx
  refine ⟨⟨fun stage ha => ?_, fun w hw => hn.requests w (hsub ?_)⟩, hgd⟩
  · rcases exec_activity hx with h0 | ⟨stage', h1⟩
    · simp [h0] at ha
    · rw [h1] at ha
      injection ha with ha
      injection ha with hop
      exact hne hop
  · rwa [(exec_frame hx).req] at hw

theorem run_noUpdate (steps : Nat) : ∀ {s t : State}, s.Inv → NoUpdate s →
    Host.Core.run Sys2Proof.core steps s = .next t → t.panel.gd = s.panel.gd := by
  induction steps with
  | zero =>
    intro s t _ _ h
    injection h with h
    rw [h]
  | succ k ih =>
    intro s t hs hn h
    obtain ⟨u, hstep, hrun⟩ := run_succ h
    obtain ⟨hnu, hgd⟩ := step_noUpdate hs hn hstep
    exact (ih (step_inv hs hstep) hnu hrun).trans hgd

end Machine

/-- Settles O57: the appended events show every change of the panel; in a legal state only `UPDATE` sends data, and a run without
one stays without one. -/
theorem panelChangesOnlyByTransactions : Obligations.PanelChangesOnlyByTransactions := by
  refine ⟨fun i s t h => ?_, fun s t steps hs ha hr h => Machine.run_noUpdate steps hs ⟨ha, hr⟩ h⟩
  obtain ⟨es, hhist, hpanel, hram⟩ := Machine.exec_panelEvents h
  refine ⟨fun hne => ?_, fun hne => ?_, fun hs hne => ?_⟩
  · obtain ⟨addr, ctrl, payload, r, hm⟩ := hpanel hne
    obtain ⟨before, after, rfl⟩ := List.append_of_mem hm
    exact ⟨before, addr, ctrl, payload, r, after, by rw [hhist, List.append_assoc]⟩
  · obtain ⟨addr, payload, r, hm⟩ := hram hne
    obtain ⟨before, after, rfl⟩ := List.append_of_mem hm
    exact ⟨before, addr, payload, r, after, by rw [hhist, List.append_assoc]⟩
  · by_contra hi
    exact hne (Machine.exec_gd hs hi h)

end Sys2Proof

namespace Sys2Proof

/-! ### Framebuffer: the index maps and single accesses (20_memory.md R31, R33, R34, R44) -/

namespace Machine
open State

theorem indexOf_pageOf_colOf (c : Config) (i : Nat) : indexOf c (pageOf c i) (colOf c i) = i :=
  Nat.div_add_mod' i c.width

theorem pageOf_lt {c : Config} {i : Nat} (hi : i < c.size) : pageOf c i < c.pages := Nat.div_lt_of_lt_mul hi

theorem indexOf_lt {c : Config} {p q : Nat} (hp : p < c.pages) (hq : q < c.width) : indexOf c p q < c.size :=
  calc p * c.width + q < p * c.width + c.width := Nat.add_lt_add_left hq _
    _ = (p + 1) * c.width := (Nat.succ_mul p c.width).symm
    _ ≤ c.pages * c.width := Nat.mul_le_mul_right _ hp
    _ = c.size := Nat.mul_comm ..

theorem pageOf_indexOf {c : Config} (p : Nat) {q : Nat} (hq : q < c.width) : pageOf c (indexOf c p q) = p := by
  have hw : 0 < c.width := by omega
  rw [pageOf, indexOf, Nat.mul_comm, Nat.mul_add_div hw, Nat.div_eq_of_lt hq, Nat.add_zero]

theorem colOf_indexOf {c : Config} (p : Nat) {q : Nat} (hq : q < c.width) : colOf c (indexOf c p q) = q := by
  rw [colOf, indexOf, Nat.mul_comm, Nat.mul_add_mod, Nat.mod_eq_of_lt hq]

theorem Memory.bytes_getElem? {n : Nat} {m : Memory} (h : m.wf n = true) (a : Nat) {k j : Nat} (hj : j < k) :
    (m.bytes a k)[j]? = m.read (a + j) := by
  rw [bytes_eq, List.getElem?_take_of_lt hj, List.getElem?_drop, read_eq_place h]

/-- Outside the framebuffer, and for no bytes at all, `MemRead` has no meaning (R33). -/
theorem State.memRead_outside {s : State} {a k : Nat} (h : k = 0 ∨ s.cfg.size < a + k) : s.memRead a k = none :=
  if_neg fun ⟨h1, h2, _⟩ => by omega

/-- `MemWrite` inside the framebuffer (R34). -/
theorem State.memWrite_eq {s : State} {a : Nat} {v : List Byte} (h1 : 1 ≤ v.length) (h2 : a + v.length ≤ s.cfg.size) :
    s.memWrite a v = some { s with fb := s.fb.writeAll a v } := if_pos ⟨h1, h2⟩

theorem State.memWrite_outside {s : State} {a : Nat} {v : List Byte} (h : v.length = 0 ∨ s.cfg.size < a + v.length) :
    s.memWrite a v = none := if_neg fun ⟨h1, h2⟩ => by omega

end Machine

/-- Settles O17: `page` and `col` are quotient and remainder by `W`, and the next index is `div_mod_succ`. -/
theorem indexMapsAreInverse : Obligations.IndexMapsAreInverse := by
  intro c hv
  have hw : 0 < c.width := (Machine.valid_facts hv).1
  refine ⟨fun i hi => ⟨Machine.pageOf_lt hi, Nat.mod_lt i hw, Machine.indexOf_pageOf_colOf c i⟩,
    fun p q hp hq => ⟨Machine.indexOf_lt hp hq, Machine.pageOf_indexOf p hq, Machine.colOf_indexOf p hq⟩, fun i _ => ?_⟩
  obtain ⟨hlast, hnext⟩ := Machine.div_mod_succ hw i
  exact ⟨hnext, hlast⟩

/-- Settles O18: inside the framebuffer a read answers the bytes of the slice and a write is `Memory.writeAll`; outside both checks
fail. -/
theorem memoryAccessesAreExact : Obligations.MemoryAccessesAreExact := by
  intro s addr hw
  refine ⟨fun n h1 h2 => ⟨_, Machine.State.memRead_eq hw h1 h2, Machine.Memory.bytes_length hw h2,
      fun j hj => Machine.Memory.bytes_getElem? hw addr hj⟩,
    fun n h => Machine.State.memRead_outside h, fun v h1 h2 => ?_, fun v h => Machine.State.memWrite_outside h⟩
  obtain ⟨hsame, hother⟩ := Machine.Memory.read_writeAll v hw addr h2
  exact ⟨_, Machine.State.memWrite_eq h1 h2, rfl, Machine.Memory.writeAll_wf v hw addr, hsame, hother⟩

/-- Settles O23: each `SET_PIXEL` changes its own pixel only, and no byte but the one both share. -/
theorem pixelsOfOneByteAreIndependent : Obligations.PixelsOfOneByteAreIndependent := by
  intro s t u x y y' c c' hs hx hy hy' hpage hne h1 h2
  have hframe := Machine.exec_frame h1
  have hwt : t.fb.wf t.cfg.size = true := hframe.cfg ▸ hframe.fb hs.buffer
  have hxt : x < t.cfg.width := hframe.cfg ▸ hx
  have hyt : y' < t.cfg.height := hframe.cfg ▸ hy'
  refine ⟨?_, ?_, fun a ha => ?_⟩
  · rw [Machine.execSetPixel_pixel hwt hxt hyt h2, if_neg fun h => hne h.2,
      Machine.execSetPixel_pixel hs.buffer hx hy h1, if_pos ⟨rfl, rfl⟩]
  · rw [Machine.execSetPixel_pixel hwt hxt hyt h2, if_pos ⟨rfl, rfl⟩]
  · obtain ⟨_, old, _, ht⟩ := Machine.execSetPixel_inBounds hs.buffer hx hy h1
    obtain ⟨_, old', _, hu⟩ := Machine.execSetPixel_inBounds hwt hxt hyt h2
    calc u.fb.read a = t.fb.read a := by
          rw [hu]
          exact Machine.Memory.read_write_other _ (by rw [hframe.cfg, ← hpage]; exact ha) _
      _ = s.fb.read a := by
          rw [ht]
          exact Machine.Memory.read_write_other _ ha _

/-- Settles O56: appending is part of the frame of every instruction. -/
theorem historyOnlyGrows : Obligations.HistoryOnlyGrows := fun _ _ _ h => (Machine.exec_frame h).hist

/-! ### The receiver and single transactions (20_memory.md R45, R46) -/

namespace Machine
open State

theorem receive_ctrlCmd (c : Config) (draw : Nat) (payload : List Byte) (r : TxnResult) (p : Panel) :
    p.receive c draw c.ctrlCmd payload r = p.commandStream draw (delivered draw payload r) := if_pos rfl

theorem receive_ctrlData {c : Config} (hv : c.valid = true) (draw : Nat) (payload : List Byte) (r : TxnResult) (p : Panel) :
    p.receive c draw c.ctrlData payload r = p.dataStream draw (delivered draw payload r) := by
  rw [Panel.receive, if_neg (valid_controlBytes hv), if_pos rfl]

theorem delivered_fail (draw : Nat) (payload : List Byte) (kind : FailKind) :
    ∃ n, n ≤ payload.length ∧ delivered draw payload (.fail kind) = payload.take n :=
  ⟨min (Config.deliveredLength draw) payload.length, Nat.min_le_right .., by simp [delivered, List.take_eq_take_iff]⟩

/-- A payload that is one whole command has the effect of that command (R46). -/
theorem commandStream_one {cmd : Byte} {args : List Byte} (h : commandArgs cmd = some args.length) (draw : Nat) (p : Panel) :
    p.commandStream draw (cmd :: args) = { p with regs := regsCommand p.regs cmd args } := by
  have hend : parseCommands args.length [] = [] := by cases args.length <;> rfl
  simp [Panel.commandStream, parseCommands, h, hend, Panel.command]

/-- A framer call that is answered goes on, and the panel has received its transaction (R72, R46). -/
theorem exec_answered_panel {s : State} {payload : List Byte} {r : TxnResult} (hs : s.FramerReady payload)
    (ha : s.answerAt 0 = some r) {i : Instr} {ctrl : Byte} (hi : exec i s = s.gate i (s.framer i ctrl payload)) :
    ∃ t, exec i s = .next t ∧ t.panel = s.panel.receive s.cfg s.env.panelDraws ctrl payload r :=
  ⟨_, hi.trans (FramerReady_exec hs ha i ctrl), answered_panel ..⟩

/-- A command group that is answered `ok` writes the panel's registers as R46 has it. -/
theorem exec_group_panel {s : State} {cmd : Byte} {args : List Byte} (hs : s.FramerReady (cmd :: args))
    (ha : s.answerAt 0 = some .ok) (hargs : commandArgs cmd = some args.length) {i : Instr}
    (hi : exec i s = s.gate i (s.framer i s.cfg.ctrlCmd (cmd :: args))) :
    ∃ t, exec i s = .next t ∧ t.panel = { s.panel with regs := regsCommand s.panel.regs cmd args } := by
  obtain ⟨t, ht, hp⟩ := exec_answered_panel hs ha hi
  exact ⟨t, ht, by rw [hp, receive_command, commandStream_one hargs]⟩

/-- One data byte in horizontal mode, at a place of the RAM (R46). -/
theorem dataStream_one {p : Panel} (hm : p.regs.mode = horizontal) (hin : p.inRam = true) (draw : Nat) (b : Byte) :
    p.dataStream draw [b] = p.store b := by
  simp [Panel.dataStream, Panel.storeAll, hm, hin]

theorem regsAdvance_eq (r : PanelRegs) : regsAdvance r = { r with
    pc := (if r.pc = r.ce then r.cs else r.pc + 1)
    pp := (if r.pc = r.ce then if r.pp = r.pe then r.ps else r.pp + 1 else r.pp) } := by
  unfold regsAdvance
  split <;> rfl

/-- Places of the RAM with columns inside it have different addresses (R45). -/
theorem Panel.address_inj {p q p' q' : Nat} (hq : q < Panel.columns) (hq' : q' < Panel.columns)
    (h : p * Panel.columns + q = p' * Panel.columns + q') : (p, q) = (p', q') := by
  unfold Panel.columns at *
  ext <;> dsimp only <;> omega

end Machine

/-- Settles O48: each of the three groups is one whole command. -/
theorem modeGroupsReachThePanel : Obligations.ModeGroupsReachThePanel := by
  intro s c hs ha
  have hone : ∀ cmd : Byte, s.FramerReady [cmd] := fun _ => Machine.ready_of_le hs (by simp) (by simp)
  have htwo : s.FramerReady [Cmd.contrast, c] := Machine.ready_of_le hs (by simp) (by simp)
  exact ⟨Machine.exec_group_panel (hone Cmd.normalDisplay) ha rfl rfl, Machine.exec_group_panel (hone Cmd.inverseDisplay) ha rfl rfl,
    Machine.exec_group_panel htwo ha rfl rfl⟩

/-- Settles O58: the panel receives what `delivered` leaves of the payload, as the stream of its control byte. -/
theorem failedTransactionDeliversAFirstPart : Obligations.FailedTransactionDeliversAFirstPart := by
  intro s payload kind hs ha
  obtain ⟨n, hn, hd⟩ := Machine.delivered_fail s.env.panelDraws payload kind
  obtain ⟨t, ht, hp⟩ := Machine.exec_answered_panel (i := .cmdFrame payload) hs ha rfl
  obtain ⟨u, hu, hq⟩ := Machine.exec_answered_panel (i := .dataFrame payload) hs ha rfl
  rw [Machine.receive_ctrlCmd, hd] at hp
  rw [Machine.receive_ctrlData hs.config, hd] at hq
  exact ⟨⟨t, n, _, ht, hn, hp⟩, u, n, _, hu, hn, hq⟩

/-- Settles O59: the one byte is a `Panel.store`. -/
theorem dataByteIsStoredAtThePointers : Obligations.DataByteIsStoredAtThePointers := by
  intro s b hs ha hm hw hpp hpc
  have hin : s.panel.inRam = true := by simp [Machine.Panel.inRam, Machine.Panel.pageCount, Machine.Panel.columns, hpp, hpc]
  obtain ⟨t, ht, hp⟩ := Machine.exec_answered_panel (i := .dataFrame [b]) hs ha rfl
  replace hp : t.panel = s.panel.store b := by
    rw [hp, Machine.receive_ctrlData hs.config]
    exact Machine.dataStream_one hm hin _ b
  refine ⟨t, ht, ?_, fun p q hq hne => ?_, ?_⟩ <;> rw [hp]
  · exact Machine.Memory.read_write_same hw (by unfold Machine.Panel.columns; omega) b
  · exact Machine.Memory.read_write_other _ (fun h => hne (Machine.Panel.address_inj hq hpc h)) b
  · exact Machine.regsAdvance_eq _

end Sys2Proof

namespace Sys2Proof

/-! ### The panel across the waits of an operation (20_memory.md R46, 42_controller_ops.md R100, R107) -/

namespace Machine
open State

/-- The panel once these items have been sent from `s` on, every one of them answered `ok`. -/
def State.panelAfterItems (s : State) (items : List Item) : Panel :=
  panelAfter s.cfg s.env.panelDraws (itemPayloads s.cfg s.fb s.wp items) s.panel

/-- What the operation `i` still has to send: what is left of a bracket that is open, otherwise its whole plan (R25). -/
def State.itemsToSend (i : Instr) (s : State) : List Item :=
  match s.activity with
  | some ⟨_, .sending items⟩ => items
  | _ => planOf s.cfg i

/-- The panel once `i` has succeeded, from wherever it stands at `s`. -/
def State.panelToCome (i : Instr) (s : State) : Panel := s.panelAfterItems (s.itemsToSend i)

theorem State.panelAfterItems_congr {s u : State} (hcfg : u.cfg = s.cfg) (hfb : u.fb = s.fb) (hwp : u.wp = s.wp)
    (hdraws : u.env.panelDraws = s.env.panelDraws) (hpanel : u.panel = s.panel) (items : List Item) :
    u.panelAfterItems items = s.panelAfterItems items := by
  simp only [panelAfterItems, hcfg, hfb, hwp, hdraws, hpanel]

theorem State.panelAfterItems_afterPhyPoll (s : State) (items : List Item) :
    s.afterPhyPoll.panelAfterItems items = s.panelAfterItems items :=
  panelAfterItems_congr (by simp) (by simp) (by simp) (afterPhyPoll_panelDraws s) (by simp) items

theorem State.panelAfterItems_send (s : State) (ctrl : Byte) (payload : List Byte) (rest : List Item) :
    (s.answered ctrl payload .ok).panelAfterItems rest = s.panelAfterItems (.send ctrl payload :: rest) := by
  simp [panelAfterItems, answered_panelDraws, itemPayloads, panelAfter]

theorem State.panelAfterItems_chunk (s : State) (n : Nat) (rest : List Item) :
    ({ s.answered s.cfg.ctrlData (s.fb.bytes s.wp n) .ok with wp := s.wp + n } : State).panelAfterItems rest =
      s.panelAfterItems (.chunk n :: rest) := by
  simp [panelAfterItems, answered_panelDraws, itemPayloads, panelAfter]

/-- A run of items, whatever the PHY answers: sent to its end it leaves the panel that was to come, and at a wait that panel is
still to come from what is left. -/
theorem sendAll_panelAfterItems (items : List Item) (s : State) :
    ((sendAll items s).2 = .done → (sendAll items s).1.panel = s.panelAfterItems items) ∧
    ∀ rest, (sendAll items s).2 = .waiting rest → (sendAll items s).1.panelAfterItems rest = s.panelAfterItems items := by
  refine sendAll_induct (P := fun items s r => (r.2 = .done → r.1.panel = s.panelAfterItems items) ∧
    ∀ rest, r.2 = .waiting rest → r.1.panelAfterItems rest = s.panelAfterItems items) ?_ ?_ ?_ ?_ ?_ ?_ ?_ ?_ items s
  · intro s; exact ⟨fun _ => rfl, fun rest h => by simp at h⟩
  · intro rest s r ih; exact ih
  · intro ctrl payload rest s r _ ih; rwa [panelAfterItems_send] at ih
  · intro ctrl payload rest s kind _; simp
  · intro ctrl payload rest s _; simp [panelAfterItems_afterPhyPoll]
  · intro n rest s r _ ih; rwa [panelAfterItems_chunk] at ih
  · intro n rest s kind _; simp
  · intro n rest s _; simp [panelAfterItems_afterPhyPoll]

/-- What has come of the operation `i` between `s` and `t`: it is still in progress, with the same panel to come; or it has
responded, and with `OK` only once the panel that was to come is there. -/
inductive Onward (i : Instr) (s t : State) : Prop
  | waits (stage : Stage) (activity : t.activity = some ⟨i, stage⟩) (responses : t.responses = s.responses)
      (panel : t.panelToCome i = s.panelToCome i)
  | ended (status : Status) (activity : t.activity = none) (responses : t.responses = s.responses ++ [⟨status, []⟩])
      (panel : status = .ok → t.panel = s.panelToCome i)

/-- The end of a bracket whose items leave the panel that is to come. -/
theorem finish_onward {i : Instr} {s b : State} {items : List Item} (hresp : b.responses = s.responses)
    (hpanel : b.panelAfterItems items = s.panelToCome i) :
    Onward i s (finish i (fun u => { u.succeeded i with wp := u.wp }) (fun u => { u with ctl := u.failedCtl i })
      (sendAll items b)) := by
  obtain ⟨hdone, hwait⟩ := sendAll_panelAfterItems items b
  obtain ⟨_, hrun⟩ := finish_run i (sendAll items b)
  have hr := (sendAll_same items b).responses.trans hresp
  rcases finish_cases i (fun u => { u.succeeded i with wp := u.wp }) (fun u => { u with ctl := u.failedCtl i })
    (sendAll items b) with ⟨hend, he⟩ | ⟨kind, _, he⟩ | ⟨rest, hend, he⟩
  · refine .ended .ok (by rw [he]; rfl) ?_ fun _ => by rw [hrun, hdone hend, hpanel]
    obtain ⟨c, d, f, hshape, _⟩ := succeeded_shape i (sendAll items b).1
    rw [he, hshape]
    exact congrArg (· ++ _) hr
  · refine .ended (.transport kind) (by rw [he]; rfl) ?_ (by simp)
    rw [he]
    exact congrArg (· ++ _) hr
  · rw [he]
    exact .waits (.sending rest) rfl hr ((hwait rest hend).trans hpanel)

/-- A display-controller operation from wherever it stands, in one step (R100). -/
theorem exec_onward {s t : State} {i : Instr} (hi : isController i = true) (h : exec i s = .next t) : Onward i s t := by
  rcases controller_next (exec_controller_effects hi h) with
    ⟨e, _, he, rfl⟩ | ⟨b, hb, _, hw⟩ | ⟨o, rest, ha, _, rfl⟩
  · refine .ended e rfl rfl fun hok => ?_
    rcases stateCheck_error he with ⟨rfl, _⟩ | ⟨rfl, _⟩ <;> simp at hok
  · have hplan : s.itemsToSend i = planOf s.cfg i := by
      rcases hb with ⟨ha, _⟩ | ⟨⟨o, ha⟩, _⟩ <;> simp [itemsToSend, ha]
    obtain ⟨c, rfl⟩ : ∃ c, b = { s with ctl := c } := by
      rcases hb with ⟨_, _, rfl⟩ | ⟨_, rfl⟩
      · exact ⟨_, rfl⟩
      · exact ⟨b.ctl, rfl⟩
    have hcome (u : State) (hu : u.panelAfterItems (planOf s.cfg i) = s.panelAfterItems (planOf s.cfg i)) :
        u.panelAfterItems (planOf s.cfg i) = s.panelToCome i := by rw [hu, panelToCome, hplan]
    have hpoll := afterLockPoll_panelDraws { s with ctl := c }
    rcases hw with ⟨_, rfl⟩ | ⟨_, rfl⟩
    · refine .waits .lockWait rfl (by simp) ?_
      rw [panelToCome, show itemsToSend i _ = planOf s.cfg i by simp [itemsToSend]]
      exact hcome _ (panelAfterItems_congr (by simp) (by simp) (by simp) hpoll (by simp) _)
    · exact finish_onward (by simp) (hcome _ (panelAfterItems_congr (by simp) (by simp) (by simp) hpoll (by simp) _))
  · exact finish_onward rfl (by simp [panelToCome, itemsToSend, ha])

theorem Onward.trans {i : Instr} {s u t : State} {stage : Stage} (hu : u.activity = some ⟨i, stage⟩) (h : Onward i s u)
    (k : Onward i u t) : Onward i s t := by
  cases h with
  | ended status ha => simp [ha] at hu
  | waits _ _ hresp hpanel =>
    cases k with
    | waits stage ha hr hp => exact .waits stage ha (hr.trans hresp) (hp.trans hpanel)
    | ended status ha hr hp => exact .ended status ha (by rw [hr, hresp]) fun hok => (hp hok).trans hpanel

theorem Onward.operation {i op : Instr} {s t : State} {stage : Stage} (h : Onward i s t)
    (ha : t.activity = some ⟨op, stage⟩) : op = i := by
  cases h with
  | ended _ hact => simp [hact] at ha
  | waits _ hact =>
    rw [hact] at ha
    injection ha with ha
    exact (congrArg Activity.op ha).symm

theorem Onward.panel_of_ok {i : Instr} {s t : State} (h : Onward i s t)
    (hresp : t.responses = s.responses ++ [⟨.ok, []⟩]) : t.panel = s.panelToCome i := by
  cases h with
  | waits _ _ hr => simp [hr] at hresp
  | ended status _ hr hpanel => exact hpanel (by simpa [hr] using hresp)

/-! Runs of several steps. -/

theorem cons_requests_ne {k : Nat} {s t : State} {w : ReqWord} (h : Host.Core.run Sys2Proof.core k s = .next t) :
    t.requests ≠ w :: s.requests := fun he => by
  have := run_requests k h
  simp [he] at this

/-- Between operations a block that takes no further request does nothing (R150). -/
theorem run_idle (k : Nat) {s t : State} (hs : s.Inv) (ha : s.activity = none)
    (h : Host.Core.run Sys2Proof.core k s = .next t) (hreq : t.requests = s.requests) : t = s := by
  induction k with
  | zero =>
    injection h with h
    exact h.symm
  | succ k ih =>
    obtain ⟨u, hstep, hrun⟩ := run_succ h
    rcases step_next hs hstep with rfl | ⟨i, rest, hx, ⟨_, w, hr, _⟩ | ⟨_, stage, hact⟩⟩
    · exact ih hrun
    · refine absurd (hreq.trans hr) ?_
      rw [← show u.requests = rest from (exec_frame hx).req]
      exact cons_requests_ne hrun
    · simp [ha] at hact

theorem controller_keeps_fb {s t : State} {i : Instr} (hi : isController i = true) (hne : i ≠ .init)
    (h : exec i s = .next t) : t.fb = s.fb := by
  by_contra hfb
  exact hne (controller_fb hi h hfb).1

/-- A display-controller operation from its first step on, for any number of steps in which no further request is taken. -/
theorem run_onward {i : Instr} (hi : isController i = true) (hne : i ≠ .init) (k : Nat) : ∀ {s u t : State}, u.Inv →
    exec i s = .next u → Host.Core.run Sys2Proof.core k u = .next t → t.requests = u.requests →
    Onward i s t ∧ t.fb = s.fb := by
  induction k with
  | zero =>
    intro s u t _ hx h _
    injection h with h
    exact h ▸ ⟨exec_onward hi hx, controller_keeps_fb hi hne hx⟩
  | succ k ih =>
    intro s u t hu hx h hreq
    have hfb := controller_keeps_fb hi hne hx
    have hfirst := exec_onward hi hx
    rcases Option.eq_none_or_eq_some u.activity with ha | ⟨⟨op, stage⟩, ha⟩
    · exact run_idle (k + 1) hu ha h hreq ▸ ⟨hfirst, hfb⟩
    · obtain ⟨v, hstep, hrun⟩ := run_succ h
      have hv := step_inv hu hstep
      obtain rfl : op = i := hfirst.operation ha
      rw [step_resume ha] at hstep
      obtain ⟨hthen, hfb'⟩ := ih hv hstep hrun (hreq.trans (exec_frame hstep).req.symm)
      exact ⟨hfirst.trans ha hthen, hfb'.trans hfb⟩

/-! A whole `UPDATE` with the default `WINDOW_SEQ` (20_memory.md R47). -/

/-- `WINDOW_SEQ` is the default and the geometry fits the receiver's RAM: where R47 speaks. -/
structure FitsPanel (c : Config) : Prop where
  window : c.windowSeq = Config.defaultWindowSeq c.width c.pages
  width  : c.width ≤ Panel.columns
  pages  : c.pages ≤ Panel.pageCount

/-- The default window groups set the full-screen window and the pointers to its corner (R46, R108). -/
theorem panelAfter_window {c : Config} (h : FitsPanel c) (draw : Nat) (p : Panel) :
    panelAfter c draw (c.windowSeq.map fun g => (c.ctrlCmd, g)) p =
      { p with regs := { p.regs with cs := 0, ce := c.width - 1, pc := 0, ps := 0, pe := c.pages - 1, pp := 0 } } := by
  have hw : c.width ≤ 128 := h.width
  have hp : c.pages ≤ 8 := h.pages
  have hce : (BitVec.ofNat 8 (c.width - 1)).toNat = c.width - 1 := Nat.mod_eq_of_lt (by omega)
  have hpe : (BitVec.ofNat 8 (c.pages - 1)).toNat = c.pages - 1 := Nat.mod_eq_of_lt (by omega)
  simp only [h.window, Config.defaultWindowSeq, List.map_cons, List.map_nil, panelAfter, receive_command]
  rw [commandStream_one rfl, commandStream_one rfl]
  simp [regsCommand, Cmd.columnWindow, Cmd.pageWindow, hce, hpe]

/-- The window phase leaves the panel where a full-screen transfer starts. -/
theorem Filled.window {c : Config} (h : FitsPanel c) (bytes : List Byte) (draw : Nat) {p : Panel}
    (hm : p.regs.mode = horizontal) (hram : p.gd.wf (Panel.pageCount * Panel.columns) = true) :
    Filled c.width c.pages bytes 0 (panelAfter c draw (c.windowSeq.map fun g => (c.ctrlCmd, g)) p) := by
  rw [panelAfter_window h]
  exact ⟨hm, rfl, rfl, rfl, rfl, by simp, by simp, hram, by simp⟩

/-- The transactions of a whole `UPDATE` fill the panel with the framebuffer. -/
theorem Filled.update {s : State} (hv : s.cfg.valid = true) (hw : s.fb.wf s.cfg.size = true) (h : FitsPanel s.cfg)
    (hm : s.panel.regs.mode = horizontal) (hram : s.panel.gd.wf (Panel.pageCount * Panel.columns) = true) (draw : Nat) :
    Filled s.cfg.width s.cfg.pages s.buffer s.cfg.size (panelAfter s.cfg draw (s.operationTxns .update) s.panel) := by
  have hl : s.buffer.length = s.cfg.size := by simpa [State.buffer] using Memory.wf_length hw
  have hdata := (Filled.window h s.buffer draw hm hram).chunks hv hl h.width h.pages (draw + s.cfg.windowSeq.length) _
    (le_refl (chunkCount s.cfg))
  rw [Nat.min_eq_right (chunkCount_mul (valid_maxTxn hv))] at hdata
  rw [operationTxns, panelAfter_append, List.length_map]
  exact hdata

/-- A panel filled to the end shows every byte of the framebuffer at its page and column (R31, R47). -/
theorem Filled.ram_eq {s : State} {p : Panel} (hw : s.fb.wf s.cfg.size = true)
    (h : Filled s.cfg.width s.cfg.pages s.buffer s.cfg.size p) {page col : Nat} (hp : page < s.cfg.pages)
    (hc : col < s.cfg.width) : p.ram page col = s.fb.read (page * s.cfg.width + col) := by
  have hdone := h.done _ (indexOf_lt hp hc)
  rw [← pageOf, ← colOf, pageOf_indexOf page hc, colOf_indexOf page hc] at hdone
  rw [hdone, Memory.read_eq_place hw]
  rfl

/-- Its pointers are back at the corner of the full-screen window (R47). -/
theorem Filled.home {c : Config} {bytes : List Byte} {p : Panel} (hv : c.valid = true)
    (h : Filled c.width c.pages bytes c.size p) : p.regs.pc = 0 ∧ p.regs.pp = 0 ∧ p.regs.cs = 0 ∧
      p.regs.ce = c.width - 1 ∧ p.regs.ps = 0 ∧ p.regs.pe = c.pages - 1 := by
  have hw : 0 < c.width := (valid_facts hv).1
  refine ⟨?_, ?_, h.cs, h.ce, h.ps, h.pe⟩
  · rw [h.pc, Config.size, Nat.mul_mod_right]
  · rw [h.pp, Config.size, Nat.mul_div_cancel_left _ hw, Nat.mod_self]

/-- Before an `UPDATE` begins, the panel to come is the one its own transactions make (R107, R109). -/
theorem panelToCome_update {s : State} (hv : s.cfg.valid = true) (hw : s.fb.wf s.cfg.size = true) (ha : s.activity = none) :
    s.panelToCome .update = panelAfter s.cfg s.env.panelDraws (s.operationTxns .update) s.panel := by
  simp only [panelToCome, itemsToSend, ha, panelAfterItems, plan_txns hv hw]

/-- An `UPDATE` that has responded `OK`, after whatever waits, has filled the panel. -/
theorem Onward.filled {s t : State} (h : Onward .update s t) (hresp : t.responses = s.responses ++ [⟨.ok, []⟩])
    (hs : s.Free) (hfit : FitsPanel s.cfg) (hm : s.panel.regs.mode = horizontal)
    (hram : s.panel.gd.wf (Panel.pageCount * Panel.columns) = true) :
    Filled s.cfg.width s.cfg.pages s.buffer s.cfg.size t.panel := by
  rw [h.panel_of_ok hresp, panelToCome_update hs.config hs.buffer hs.none]
  exact Filled.update hs.config hs.buffer hfit hm hram _

/-- An `UPDATE` that is granted the lock and answered `ok` at once responds `OK` in one step (R107). -/
theorem execUpdate_ok {s : State} (hs : s.Idle) (hc : s.ctl = .ready) (hg : s.grantAt 0 = true)
    (ha : ∀ k, k < s.cfg.windowSeq.length + chunkCount s.cfg → s.answerAt k = some .ok) :
    ∃ t, exec .update s = .next t ∧ t.responses = s.responses ++ [⟨.ok, []⟩] := by
  refine ⟨_, execUpdate_granted hs hc hg, ?_⟩
  generalize hb : ({ s with ctl := .updating } : State).afterLockPoll.acquired = b
  have hcfg : b.cfg = s.cfg := by simp [← hb]
  have hfb : b.fb = s.fb := by simp [← hb]
  have hans (k : Nat) : b.answerAt k = s.answerAt k := by rw [← hb, answerAt_acquired, answerAt_afterLockPoll]; rfl
  have htxns : itemPayloads b.cfg b.fb b.wp (updatePlan s.cfg) = s.operationTxns .update := by
    rw [hcfg, hfb]
    exact plan_txns hs.config hs.buffer .update b.wp
  obtain ⟨u, hu, _⟩ := sendAll_ok (updatePlan s.cfg) b fun k hk => by
    rw [htxns] at hk
    rw [hans]
    exact ha k (by simpa [operationTxns] using hk)
  have hresp : u.responses = s.responses := by
    have hsame := (sendAll_same (updatePlan s.cfg) b).responses
    rw [hu] at hsame
    rw [hsame, ← hb]
    simp
  rw [hu]
  exact congrArg (· ++ _) hresp

end Machine

/-- Settles O60: an `UPDATE` that has responded `OK` has left the panel that its transactions make, whatever it waited for, and
these fill the panel in row-major order. -/
theorem panelShowsTheBuffer : Obligations.PanelShowsTheBuffer := by
  refine ⟨fun s hs hc hg ha hwin hwidth hpages hm hram => ?_,
    fun s t w rest steps hs hact _ hr hd hwin hwidth hpages hm hrun hreq hresp => ?_⟩
  · obtain ⟨t, ht, hresp⟩ := Machine.execUpdate_ok hs hc hg ha
    have hfill := (Machine.exec_onward rfl ht).filled hresp hs.toFree ⟨hwin, hwidth, hpages⟩ hm hram
    exact ⟨t, ht, fun p q hp hq => hfill.ram_eq hs.buffer hp hq, hfill.home hs.config⟩
  · obtain _ | k := steps
    · injection hrun with hst
      rw [← hst, hr] at hreq
      simp at hreq
    obtain ⟨u, hstep, hrun⟩ := Machine.run_succ hrun
    have hinv := Machine.step_inv hs hstep
    rw [Machine.step_code (Machine.State.fetch_request hact hs.noCall hr) rfl hd] at hstep
    obtain ⟨hon, hfb⟩ := Machine.run_onward rfl (by simp) k hinv hstep hrun (hreq.trans (Machine.exec_frame hstep).req.symm)
    have hfill := hon.filled hresp ⟨hs.config, hact, hs.buffer⟩ ⟨hwin, hwidth, hpages⟩ hm hs.ram
    exact ⟨fun p q hp hq => hfill.ram_eq hs.buffer hp hq, hfb, hfill.home hs.config⟩

end Sys2Proof

namespace Sys2Proof

/-! ### The request word as a table of disjoint rows (30_encoding.md R56 to R59) -/

/-- Two rows are disjoint where their patterns differ on a bit that both masks fix. -/
theorem RequestRow.disjoint {a b : RequestRow} (h : a.pattern &&& b.mask ≠ b.pattern &&& a.mask) (w : ReqWord) :
    ¬(a.selects w = true ∧ b.selects w = true) := by
  rintro ⟨ha, hb⟩
  simp only [selects, beq_iff_eq] at ha hb
  apply h
  rw [← ha, ← hb, BitVec.and_assoc, BitVec.and_assoc, BitVec.and_comm a.mask]

theorem requestRows_disjoint :
    requestRows.Pairwise fun a b => ∀ w : ReqWord, ¬(a.selects w = true ∧ b.selects w = true) :=
  List.Pairwise.imp (fun h w => RequestRow.disjoint h w)
    (show requestRows.Pairwise fun a b => a.pattern &&& b.mask ≠ b.pattern &&& a.mask by decide)

/-- The rows of R57, each with the operation that R58 assembles from `w`. -/
def requestTable (w : ReqWord) : List (RequestRow × Instr) :=
  [(rowInit, .init), (rowUpdate, .update), (rowSetInvert, .setInvert (fieldFlag w)),
    (rowSetContrast, .setContrast (fieldLevel w)), (rowClear, .clear),
    (rowSetPixel, .setPixel (fieldX w) (fieldY w) (fieldColor w)), (rowGetBuffer, .getBuffer)]

theorem requestTable_rows (w : ReqWord) : (requestTable w).map Prod.fst = requestRows := rfl

/-- The decoder takes the first row that selects the word. -/
theorem decodeRequest_eq_find? (w : ReqWord) : decodeRequest w =
    match (requestTable w).find? fun e => e.1.selects w with
    | some e => .ok e.2
    | none => .error (.reservedWord w) := by
  simp only [requestTable, List.find?, decodeRequest]
  split_ifs with h1 h2 h3 h4 h5 h6 h7 <;> simp only [*]

/-- In a list whose members exclude each other the first that passes a test is the only one. -/
theorem find?_of_pairwise {α : Type} {p : α → Bool} {l : List α} (hl : l.Pairwise fun a b => ¬(p a = true ∧ p b = true))
    {a : α} (ha : a ∈ l) (hp : p a = true) : l.find? p = some a := by
  obtain ⟨before, after, rfl⟩ := List.append_of_mem ha
  obtain ⟨_, _, hcross⟩ := List.pairwise_append.mp hl
  refine List.find?_eq_some_iff_append.mpr ⟨hp, before, after, rfl, fun b hb => ?_⟩
  simpa [hp] using hcross b hb a List.mem_cons_self

/-- A word is decoded to an operation exactly if the operation's row selects it (R57). -/
theorem decodeRequest_ok_iff {w : ReqWord} {i : Instr} :
    decodeRequest w = .ok i ↔ ∃ r, (r, i) ∈ requestTable w ∧ r.selects w = true := by
  rw [decodeRequest_eq_find?]
  constructor
  · intro h
    split at h
    · rename_i e he
      injection h with h
      have hsel : e.1.selects w = true := by simpa using List.find?_some he
      exact ⟨e.1, h ▸ List.mem_of_find?_eq_some he, hsel⟩
    · cases h
  · rintro ⟨r, hmem, hsel⟩
    have hdisj := requestRows_disjoint.imp fun h => h w
    rw [← requestTable_rows w, List.pairwise_map] at hdisj
    rw [find?_of_pairwise hdisj hmem hsel]

theorem decodeRequest_setInvert {w : ReqWord} (h : rowSetInvert.selects w = true) :
    decodeRequest w = .ok (.setInvert (fieldFlag w)) := decodeRequest_ok_iff.mpr ⟨_, by simp [requestTable], h⟩

theorem decodeRequest_setContrast {w : ReqWord} (h : rowSetContrast.selects w = true) :
    decodeRequest w = .ok (.setContrast (fieldLevel w)) := decodeRequest_ok_iff.mpr ⟨_, by simp [requestTable], h⟩

theorem decodeRequest_setPixel {w : ReqWord} (h : rowSetPixel.selects w = true) :
    decodeRequest w = .ok (.setPixel (fieldX w) (fieldY w) (fieldColor w)) :=
  decodeRequest_ok_iff.mpr ⟨_, by simp [requestTable], h⟩

/-- A word that no row selects is reserved (R59). -/
theorem decodeRequest_reserved {w : ReqWord} (h : ∀ r ∈ requestRows, r.selects w = false) :
    decodeRequest w = .error (.reservedWord w) := by
  rcases hd : decodeRequest w with e | i
  · rw [Machine.decodeRequest_error hd]
  · obtain ⟨r, hmem, hsel⟩ := decodeRequest_ok_iff.mp hd
    have hrow : r ∈ requestRows := List.mem_map_of_mem (f := Prod.fst) hmem
    simp [h r hrow] at hsel

/-- Settles O3: the word selects its row of the table, whose operands are the fields in integers; two patterns always differ on
a bit that both masks fix. -/
theorem requestWordsFollowTheTable : Obligations.RequestWordsFollowTheTable := by
  have selects {r : RequestRow} {w : ReqWord} (h : w &&& r.mask = r.pattern) : r.selects w = true := beq_iff_eq.mpr h
  have row {w : ReqWord} {i : Instr} (r : RequestRow) (hmem : (r, i) ∈ requestTable w) (h : w &&& r.mask = r.pattern) :
      decodeRequest w = .ok i := decodeRequest_ok_iff.mpr ⟨r, hmem, selects h⟩
  refine ⟨fun w => row rowInit (by simp [requestTable]), fun w => row rowUpdate (by simp [requestTable]),
    fun w h => decodeRequest_setInvert (selects h), fun w h => ?_, fun w => row rowClear (by simp [requestTable]),
    fun w h => ?_, fun w => row rowGetBuffer (by simp [requestTable]), requestRows_disjoint⟩
  · rw [← fieldLevel_eq]
    exact decodeRequest_setContrast (selects h)
  · rw [← fieldX_eq, ← fieldY_eq]
    exact decodeRequest_setPixel (selects h)

/-- Settles O5: each word is closed, so the decoder computes its answer. -/
theorem vectorWordsDecode : Obligations.VectorWordsDecode := ⟨rfl, rfl, rfl, rfl, rfl, rfl, rfl⟩

/-! ### Operands and the words they are packed into (R56, R58) -/

/-! An operand that fits its field is read back from it. -/

theorem fieldFlag_encodeInvert (flag : Bool) : fieldFlag (0x3#4 ++ 0#27 ++ BitVec.ofBool flag) = flag := by
  rw [fieldFlag_eq, toNat_encodeInvert]
  cases flag <;> rfl

theorem fieldLevel_encodeLevel {level : Int} (h1 : -32768 ≤ level) (h2 : level ≤ 32767) :
    fieldLevel (encodeLevel level) = level := by
  rw [fieldLevel_eq, toNat_encodeLevel]
  split <;> omega

theorem colorBit_toNat_le (color : Color) : (colorBit color).toNat ≤ 1 := Nat.le_of_lt_succ (colorBit color).isLt

theorem fieldX_encodePixel {x : Int} (h1 : -2048 ≤ x) (h2 : x ≤ 2047) (y : Int) (color : Color) :
    fieldX (encodePixel x y color) = x := by
  have hcolor := colorBit_toNat_le color
  rw [fieldX_eq, toNat_encodePixel]
  split <;> omega

theorem fieldY_encodePixel (x : Int) {y : Int} (h1 : -2048 ≤ y) (h2 : y ≤ 2047) (color : Color) :
    fieldY (encodePixel x y color) = y := by
  rw [fieldY_eq, toNat_encodePixel]
  split <;> omega

theorem fieldColor_encodePixel (x y : Int) (color : Color) : fieldColor (encodePixel x y color) = color := by
  have hbit : (encodePixel x y color).toNat / 16777216 % 2 = (colorBit color).toNat := by
    have hcolor := colorBit_toNat_le color
    rw [toNat_encodePixel]
    omega
  rw [fieldColor_eq, hbit]
  cases color <;> rfl

/-! What is read from a field fits it. -/

theorem fieldLevel_range (w : ReqWord) : -32768 ≤ fieldLevel w ∧ fieldLevel w ≤ 32767 := by
  rw [fieldLevel_eq]
  split <;> omega

theorem fieldX_range (w : ReqWord) : -2048 ≤ fieldX w ∧ fieldX w ≤ 2047 := by
  rw [fieldX_eq]
  split <;> omega

theorem fieldY_range (w : ReqWord) : -2048 ≤ fieldY w ∧ fieldY w ≤ 2047 := by
  rw [fieldY_eq]
  split <;> omega

/-! A word of a pattern is packed from its own fields: no bit of it is ignored. -/

theorem encodeInvert_fieldFlag {w : ReqWord} (h : rowSetInvert.selects w = true) :
    0x3#4 ++ 0#27 ++ BitVec.ofBool (fieldFlag w) = w := by
  rw [selects_setInvert] at h
  have hflag : (fieldFlag w).toNat = w.toNat % 2 := by
    rw [fieldFlag_eq]
    rcases Nat.mod_two_eq_zero_or_one w.toNat with h0 | h1
    · rw [h0]; rfl
    · rw [h1]; rfl
  apply BitVec.eq_of_toNat_eq
  rw [toNat_encodeInvert, hflag]
  omega

theorem encodeLevel_fieldLevel {w : ReqWord} (h : rowSetContrast.selects w = true) : encodeLevel (fieldLevel w) = w := by
  rw [selects_setContrast] at h
  apply BitVec.eq_of_toNat_eq
  rw [toNat_encodeLevel, fieldLevel_eq]
  split <;> omega

theorem encodePixel_fields {w : ReqWord} (h : rowSetPixel.selects w = true) :
    encodePixel (fieldX w) (fieldY w) (fieldColor w) = w := by
  rw [selects_setPixel] at h
  have hx : (fieldX w % 4096).toNat = w.toNat / 4096 % 4096 := by
    rw [fieldX_eq]
    split <;> omega
  have hy : (fieldY w % 4096).toNat = w.toNat % 4096 := by
    rw [fieldY_eq]
    split <;> omega
  have hcolor : (colorBit (fieldColor w)).toNat = w.toNat / 16777216 % 2 := by
    rw [fieldColor_eq]
    rcases Nat.mod_two_eq_zero_or_one (w.toNat / 16777216) with h0 | h1
    · rw [h0]; rfl
    · rw [h1]; rfl
  apply BitVec.eq_of_toNat_eq
  rw [toNat_encodePixel, hx, hy, hcolor]
  omega

/-! ### Decoder and encoder of the three spaces (R50 to R54, R57) -/

/-- An encoded operation of the request port selects its own row. -/
theorem decodeRequest_encode {c : Config} {i : Instr} {w : ReqWord} (hi : i.wellFormed c = true)
    (hw : encode c i = .request w) : decodeRequest w = .ok i := by
  cases i <;> simp only [encode, Code.request.injEq, reduceCtorEq] at hw <;> subst hw
  case init => rfl
  case update => rfl
  case clear => rfl
  case getBuffer => rfl
  case setInvert flag =>
    have hsel : rowSetInvert.selects (0x3#4 ++ 0#27 ++ BitVec.ofBool flag) = true := by
      rw [selects_setInvert, toNat_encodeInvert]
      cases flag <;> rfl
    rw [decodeRequest_setInvert hsel, fieldFlag_encodeInvert]
  case setContrast level =>
    obtain ⟨h1, h2⟩ : -32768 ≤ level ∧ level ≤ 32767 := by simpa [Instr.wellFormed] using hi
    have hsel : rowSetContrast.selects (encodeLevel level) = true := by
      rw [selects_setContrast, toNat_encodeLevel]
      omega
    rw [decodeRequest_setContrast hsel, fieldLevel_encodeLevel h1 h2]
  case setPixel x y color =>
    obtain ⟨⟨⟨hx1, hx2⟩, hy1⟩, hy2⟩ : ((-2048 ≤ x ∧ x ≤ 2047) ∧ -2048 ≤ y) ∧ y ≤ 2047 := by
      simpa [Instr.wellFormed] using hi
    have hsel : rowSetPixel.selects (encodePixel x y color) = true := by
      have hcolor := colorBit_toNat_le color
      rw [selects_setPixel, toNat_encodePixel]
      omega
    rw [decodeRequest_setPixel hsel, fieldX_encodePixel hx1 hx2, fieldY_encodePixel x hy1 hy2, fieldColor_encodePixel]

theorem decodeFrame_ctrlCmd {c : Config} {payload : List Byte} (h : payloadOk c payload = true) :
    decodeFrame c (c.ctrlCmd :: payload) = .ok (.cmdFrame payload) := by
  simp [decodeFrame, h]

theorem decodeFrame_ctrlData {c : Config} {payload : List Byte} (hc : c.valid = true) (h : payloadOk c payload = true) :
    decodeFrame c (c.ctrlData :: payload) = .ok (.dataFrame payload) := by
  simp [decodeFrame, h, valid_controlBytes hc]

/-- An encoded frame is read back, since the two control bytes differ (R5 (f)). -/
theorem decodeFrame_encode {c : Config} {i : Instr} {bytes : List Byte} (hc : c.valid = true)
    (hi : i.wellFormed c = true) (hw : encode c i = .wire (.frame bytes)) : decodeFrame c bytes = .ok i := by
  cases i <;> simp only [encode, Code.wire.injEq, WireCode.frame.injEq, reduceCtorEq] at hw <;> subst hw
  case cmdFrame payload => exact decodeFrame_ctrlCmd hi
  case dataFrame payload => exact decodeFrame_ctrlData hc hi

/-- An encoded group is read back: the nine command bytes differ (R54). -/
theorem decodeGroup_encode {c : Config} {i : Instr} {bytes : List Byte} (hw : encode c i = .wire (.group bytes)) :
    decodeGroup bytes = .ok i := by
  cases i <;> simp only [encode, Code.wire.injEq, WireCode.group.injEq, reduceCtorEq] at hw <;> subst hw <;> rfl

/-- Settles O1: each space reads its own codes back. -/
theorem decodeOfEncodeIsTheInstruction : Obligations.DecodeOfEncodeIsTheInstruction := by
  intro c i hc hi
  rcases hw : encode c i with w | bytes | bytes
  · exact decodeRequest_encode hi hw
  · exact decodeFrame_encode hc hi hw
  · exact decodeGroup_encode hw

theorem encode_decodeRequest {w : ReqWord} {i : Instr} (h : decodeRequest w = .ok i) (c : Config) :
    i.wellFormed c = true ∧ encode c i = .request w := by
  obtain ⟨r, hmem, hsel⟩ := decodeRequest_ok_iff.mp h
  simp only [requestTable, List.mem_cons, List.not_mem_nil, or_false, Prod.mk.injEq] at hmem
  rcases hmem with ⟨rfl, rfl⟩ | ⟨rfl, rfl⟩ | ⟨rfl, rfl⟩ | ⟨rfl, rfl⟩ | ⟨rfl, rfl⟩ | ⟨rfl, rfl⟩ | ⟨rfl, rfl⟩
  · exact ⟨rfl, by rw [eq_ofNat_of_toNat ((selects_init w).mp hsel)]; rfl⟩
  · exact ⟨rfl, by rw [eq_ofNat_of_toNat ((selects_update w).mp hsel)]; rfl⟩
  · exact ⟨rfl, congrArg Code.request (encodeInvert_fieldFlag hsel)⟩
  · exact ⟨by simpa [Instr.wellFormed] using fieldLevel_range w, congrArg Code.request (encodeLevel_fieldLevel hsel)⟩
  · exact ⟨rfl, by rw [eq_ofNat_of_toNat ((selects_clear w).mp hsel)]; rfl⟩
  · exact ⟨by simpa [Instr.wellFormed, and_assoc] using And.intro (fieldX_range w) (fieldY_range w),
      congrArg Code.request (encodePixel_fields hsel)⟩
  · exact ⟨rfl, by rw [eq_ofNat_of_toNat ((selects_getBuffer w).mp hsel)]; rfl⟩

theorem encode_decodeFrame {c : Config} {bytes : List Byte} {i : Instr} (h : decodeFrame c bytes = .ok i) :
    i.wellFormed c = true ∧ encode c i = .wire (.frame bytes) := by
  cases bytes with
  | nil => cases h
  | cons ctrl payload =>
    simp only [decodeFrame] at h
    split_ifs at h with hlen hcmd hdata <;> cases h <;> rw [Bool.not_eq_false] at hlen
    · exact ⟨hlen, by rw [hcmd]; rfl⟩
    · exact ⟨hlen, by rw [hdata]; rfl⟩

theorem encode_decodeGroup {bytes : List Byte} {i : Instr} (h : decodeGroup bytes = .ok i) (c : Config) :
    i.wellFormed c = true ∧ encode c i = .wire (.group bytes) := by
  unfold decodeGroup at h
  split at h
  case h_4 => cases h
  all_goals split_ifs at h <;> cases h <;> subst_vars <;> exact ⟨rfl, rfl⟩

/-- Settles O2: each space decodes only codes that are packed from what they decode to. -/
theorem encodeOfDecodeIsTheCode : Obligations.EncodeOfDecodeIsTheCode := by
  rintro c (w | bytes | bytes) i h
  · exact encode_decodeRequest h c
  · exact encode_decodeFrame h
  · exact encode_decodeGroup h c

/-! ### Status codes (R61) -/

/-- Every status there is: the rows of R61. -/
def statusTable : List Machine.Status :=
  [.ok, .notInitialized, .alreadyFailed, .transport .timeout, .transport .nack, .transport .arblost]

theorem mem_statusTable (st : Machine.Status) : st ∈ statusTable := by
  rcases st with _ | _ | _ | _ | _ | _ <;> decide

theorem statusTable_codes : statusTable.map Machine.Status.code = [0x00#8, 0x01#8, 0x02#8, 0x10#8, 0x11#8, 0x12#8] := rfl

theorem Machine.Status.code_injective : Function.Injective Machine.Status.code := by
  have hrows : ∀ a ∈ statusTable, ∀ b ∈ statusTable, a.code = b.code → a = b := by decide
  exact fun a b h => hrows a (mem_statusTable a) b (mem_statusTable b) h

/-- Settles O6: the statuses are the six rows of the table, whose codes differ. -/
theorem statusCodesAreTheTables : Obligations.StatusCodesAreTheTables :=
  ⟨rfl, rfl, rfl, rfl, rfl, rfl, Machine.Status.code_injective,
    fun st => statusTable_codes ▸ List.mem_map_of_mem (mem_statusTable st)⟩

/-! ### What a code at the port leads to (R59, R60) -/

namespace Machine

/-- A code that is not decoded is refused by name, and nothing is run (R59). -/
theorem step_undecodable {s rest : State} {code : Code} {e : DecodeError} (hv : s.cfg.valid = true)
    (hf : s.fetch = .code code rest) (hd : decode s.cfg code = .error e) : step s = .refused (.undecodable e) := by
  simp [step, hf, hd, hv]

end Machine

/-- Settles O4: no row of the table selects the word, so the decoder refuses it. -/
theorem reservedWordsAreRefused : Obligations.ReservedWordsAreRefused := fun _ _ _ hv ha hc hr hrows =>
  Machine.step_undecodable hv (Machine.State.fetch_request ha hc hr) (decodeRequest_reserved hrows)

namespace Machine

/-- An operation of the requester that overlaps no other one goes on from a legal state. -/
theorem exec_legal_next {s : State} {i : Instr} (hs : s.Inv) (ho : s.overlaps i = false)
    (hi : (i = .clear ∨ i = .getBuffer ∨ ∃ x y color, i = .setPixel x y color) ∨ isController i = true) :
    ∃ t, exec i s = .next t := by
  rcases hi with hi | hi
  · exact (exec_framebuffer_legal hs hi ho).imp fun _ h => h.1
  · exact (exec_controller_legal hs hi ho).imp fun _ h => h.1

end Machine

/-- Settles O10: what is in progress goes on; otherwise the port is empty, or its word is an operation, which goes on, or reserved. -/
theorem legalStatesGoOn : Obligations.LegalStatesGoOn := by
  intro s hs
  rcases Option.eq_none_or_eq_some s.activity with ha | ⟨⟨op, stage⟩, ha⟩
  · rcases hr : s.requests with _ | ⟨w, rest⟩
    · exact .inl ⟨s, Machine.step_idle hs.config (Machine.State.fetch_idle ha hs.noCall hr)⟩
    · have hf := Machine.State.fetch_request ha hs.noCall hr
      rcases hd : decodeRequest w with e | i
      · obtain rfl := Machine.decodeRequest_error hd
        exact .inr ⟨w, rest, ha, rfl, hd, Machine.step_undecodable hs.config hf hd⟩
      · left
        rw [Machine.step_code hf rfl hd]
        exact Machine.exec_legal_next (Machine.Inv_taken hs rest) (Machine.State.overlaps_none ha i) (Machine.decodeRequest_kind hd)
  · left
    rw [Machine.step_resume ha]
    exact Machine.exec_legal_next hs ((Machine.State.overlaps_some ha op).mpr rfl) (.inr (Machine.Inv_some hs ha))

/-- Settles O15: what may become of the responses is part of the frame of every instruction. -/
theorem responsesAreNeverChanged : Obligations.ResponsesAreNeverChanged := fun _ _ _ h => (Machine.exec_frame h).resp

/-! ### Command groups as command frames (R54, R73) -/

namespace Machine

/-- A command group is a framer call with its bytes after `CTRL_CMD`. -/
theorem exec_group {s : State} {i : Instr} {payload : List Byte} (h : encode s.cfg i = .wire (.group payload)) :
    exec i s = s.gate i (s.framer i s.cfg.ctrlCmd payload) := by
  cases i <;> simp only [encode, Code.wire.injEq, WireCode.group.injEq, reduceCtorEq] at h <;> subst h <;> rfl

end Machine

/-- Settles O45: group and frame are the same framer call, which once answered no longer depends on who made it. -/
theorem groupsAreCommandFrames : Obligations.GroupsAreCommandFrames := fun _ _ _ _ hi hs ha =>
  ⟨_, (Machine.exec_group hi).trans (Machine.FramerReady_exec hs ha ..), Machine.FramerReady_exec hs ha ..,
    Machine.State.answered_hist .., rfl⟩

end Sys2Proof

namespace Sys2Proof

/-! ### Framer calls: one transaction, a wait, or a refusal (40_framer.md R72 to R75, 30_encoding.md R54) -/

namespace Machine
open State

/-- A frame is a framer call with its own control byte and payload. -/
theorem exec_frameCode {s : State} {i : Instr} {ctrl : Byte} {payload : List Byte}
    (h : encode s.cfg i = .wire (.frame (ctrl :: payload))) : exec i s = s.gate i (s.framer i ctrl payload) :=
  match i, h with
  | .cmdFrame _, rfl | .dataFrame _, rfl => rfl

theorem State.framer_unlocked {s : State} (hl : s.lock = false) (op : Instr) (ctrl : Byte) (payload : List Byte) :
    s.framer op ctrl payload = .refused .lockNotHeld := if_pos hl

theorem State.framer_badLength {s : State} {payload : List Byte} (hl : s.lock = true)
    (hp : payloadOk s.cfg payload = false) (op : Instr) (ctrl : Byte) :
    s.framer op ctrl payload = .refused (.payloadLength payload.length) := by
  simp [framer, hl, hp]

theorem State.framer_unanswered {s : State} {payload : List Byte} (hl : s.lock = true)
    (hp : payloadOk s.cfg payload = true) (ha : s.phyAnswer = none) (op : Instr) (ctrl : Byte) :
    s.framer op ctrl payload = .next { s.afterPhyPoll with activity := some ⟨op, .sending [.send ctrl payload]⟩ } := by
  simp [framer, hl, hp, transact_none ha]

theorem payloadOk_eq_false {c : Config} {payload : List Byte} :
    payloadOk c payload = false ↔ payload = [] ∨ c.maxTxn < payload.length := by
  simp only [payloadOk, Bool.and_eq_false_iff, decide_eq_false_iff_not, ← List.length_eq_zero_iff]
  omega

section
variable {s : State} {i : Instr} {ctrl : Byte} {payload : List Byte} (hx : exec i s = s.gate i (s.framer i ctrl payload))
  (hv : s.cfg.valid = true) (ho : s.overlaps i = false)
include hx hv ho

theorem exec_framer_unlocked (hl : s.lock = false) : exec i s = .refused .lockNotHeld := by
  rw [hx, gate_open hv ho, framer_unlocked hl]

theorem exec_framer_badLength (hl : s.lock = true) (hp : payload = [] ∨ s.cfg.maxTxn < payload.length) :
    exec i s = .refused (.payloadLength payload.length) := by
  rw [hx, gate_open hv ho, framer_badLength hl (payloadOk_eq_false.mpr hp)]

/-- Without an answer the call is in progress with its one transaction left. -/
theorem exec_framer_unanswered (hl : s.lock = true) (hp : payloadOk s.cfg payload = true) (ha : s.answerAt 0 = none) :
    ∃ t, exec i s = .next t ∧
      t = { s with activity := some ⟨i, .sending [.send ctrl payload]⟩, env := t.env } := by
  rw [hx, gate_open hv ho, framer_unanswered hl hp (answerAt_zero s ▸ ha)]
  exact ⟨_, rfl, by rw [afterPhyPoll_eq]⟩

/-- With an answer the call appends its one transaction and ends. -/
theorem exec_framer_answered {r : TxnResult} (hl : s.lock = true) (hp : payloadOk s.cfg payload = true)
    (ha : s.answerAt 0 = some r) : ∃ t, exec i s = .next t ∧
      t = { s with hist := s.hist ++ [.txn s.cfg.devAddr ctrl payload r], framerReturn := some r, activity := none,
                   env := t.env, panel := t.panel } := by
  rw [hx, gate_open hv ho, framer_answered hl hp (answerAt_zero s ▸ ha)]
  exact ⟨_, rfl, by rw [answered_eq]⟩

end

/-- A frame that is answered in an open bracket changes nothing of the block but history and return value. -/
theorem exec_frameCode_answered {s : State} {i : Instr} {ctrl : Byte} {payload : List Byte} {r : TxnResult}
    (hi : encode s.cfg i = .wire (.frame (ctrl :: payload))) (hs : s.FramerReady payload) (ha : s.answerAt 0 = some r) :
    ∃ t, exec i s = .next t ∧
      t = { s with hist := s.hist ++ [.txn s.cfg.devAddr ctrl payload r], framerReturn := some r, env := t.env,
                   panel := t.panel } := by
  obtain ⟨t, ht, he⟩ := exec_framer_answered (exec_frameCode hi) hs.config (overlaps_none hs.none i) hs.lock hs.length ha
  exact ⟨t, ht, by rw [hs.none]; exact he⟩

end Machine

/-- Settles O51: either code is a framer call, new or its own that goes on, so nothing overlaps it. -/
theorem silentPhyMakesTheFramerCallWait : Obligations.SilentPhyMakesTheFramerCallWait := by
  intro s i ctrl payload hi hv hl hp hact
  have hx : Machine.exec i s = s.gate i (s.framer i ctrl payload) := by
    rcases hi with hi | ⟨rfl, hi⟩
    · exact Machine.exec_frameCode hi
    · exact Machine.exec_group hi
  have ho : s.overlaps i = false := by
    rcases hact with ha | ha
    · exact Machine.State.overlaps_none ha i
    · exact (Machine.State.overlaps_some ha i).mpr rfl
  exact ⟨Machine.exec_framer_unanswered hx hv ho hl hp, fun _ => Machine.exec_framer_answered hx hv ho hl hp⟩

/-- Settles O43: the two frames are the same framer call with their own control bytes. -/
theorem framesAreOneTransaction : Obligations.FramesAreOneTransaction := fun _ _ _ hs ha =>
  ⟨Machine.exec_frameCode_answered rfl hs ha, Machine.exec_frameCode_answered rfl hs ha⟩

/-- Settles O44: frames and groups are framer calls, which check lock and length; a window group has three bytes. -/
theorem framerContractIsChecked : Obligations.FramerContractIsChecked := by
  refine ⟨fun s payload hv hn => ?_, fun s i bytes hi hv hn => ?_, fun s a b hv hn hl hmax => ?_⟩
  · have hc := Machine.exec_frameCode (s := s) (i := .cmdFrame payload) rfl
    have hd := Machine.exec_frameCode (s := s) (i := .dataFrame payload) rfl
    have ho := Machine.State.overlaps_none hn
    exact ⟨fun hl hp => ⟨Machine.exec_framer_badLength hc hv (ho _) hl hp, Machine.exec_framer_badLength hd hv (ho _) hl hp⟩,
      fun hl => ⟨Machine.exec_framer_unlocked hc hv (ho _) hl, Machine.exec_framer_unlocked hd hv (ho _) hl⟩⟩
  · have hx := Machine.exec_group hi
    have ho := Machine.State.overlaps_none hn i
    exact ⟨fun hl hlong => Machine.exec_framer_badLength hx hv ho hl (.inr hlong), Machine.exec_framer_unlocked hx hv ho⟩
  · have hlong (cmd : Byte) : s.cfg.maxTxn < [cmd, a, b].length := by simp [hmax]
    have ho := Machine.State.overlaps_none hn
    exact ⟨Machine.exec_framer_badLength (Machine.exec_group rfl) hv (ho _) hl (.inr (hlong _)),
      Machine.exec_framer_badLength (Machine.exec_group rfl) hv (ho _) hl (.inr (hlong _))⟩

/-! ### A lock that is not granted (40_framer.md R76, 70_reset_and_hazards.md R157) -/

/-- Settles O49: the operation is accepted, and the poll changes the environment only. -/
theorem ungrantedLockMakesTheOperationWait : Obligations.UngrantedLockMakesTheOperationWait := by
  intro s i hs hi hc hg
  have hx := Machine.exec_effects hi hs.config (Machine.State.overlaps_none hs.none i) hs.buffer
  rw [hx, Machine.controller_ungranted hs.none hc hs.lock (Machine.State.grantAt_zero s ▸ hg)]
  exact ⟨_, rfl, by rw [Machine.afterLockPoll_eq]; rfl⟩

namespace Machine

/-- As long as the lock is not granted, every step of an operation that waits for it is one poll. -/
theorem run_ungranted (k : Nat) {op : Instr} : ∀ {s : State}, s.Inv → s.activity = some ⟨op, .lockWait⟩ →
    (∀ j, j < k → s.grantAt j = false) →
    ∃ t, Host.Core.run Sys2Proof.core k s = .next t ∧ t = { s with env := t.env } := by
  induction k with
  | zero => exact fun _ _ _ => ⟨_, rfl, rfl⟩
  | succ k ih =>
    intro s hs ha hg
    have hstep : step s = .next s.afterLockPoll := (step_lockWait hs ha).1 (hg 0 (by omega))
    have hlater : ∀ j, j < k → s.afterLockPoll.grantAt j = false := fun j hj => by
      rw [State.grantAt_afterLockPoll]
      exact hg (j + 1) (by omega)
    obtain ⟨t, hrun, ht⟩ := ih (Inv_afterLockPoll hs) ((State.afterLockPoll_activity s).trans ha) hlater
    exact ⟨t, run_cons hstep hrun, by rw [ht, afterLockPoll_eq]⟩

end Machine

/-- Settles O55: by induction on the polls, each of which is a step that changes the environment only. -/
theorem ungrantedLockHangs : Obligations.UngrantedLockHangs := fun _ _ k hs ha hg => Machine.run_ungranted k hs ha hg

end Sys2Proof

namespace Sys2Proof

/-! ### Framebuffer operations (41_framebuffer_ops.md R85 to R92) -/

namespace Machine
open State

/-- A response given between two operations changes nothing but the responses (R60). -/
theorem State.respond_of_none {s : State} (ha : s.activity = none) (st : Status) (data : List Byte) :
    s.respond st data = { s with responses := s.responses ++ [⟨st, data⟩] } := by
  simp only [respond, ha]

/-- What `MemRead` answers lies inside the framebuffer (R33). -/
theorem State.memRead_some {s : State} {a k : Nat} {bytes : List Byte} (h : s.memRead a k = some bytes) :
    1 ≤ k ∧ a + k ≤ s.cfg.size := by
  unfold memRead at h
  split_ifs at h with hin
  obtain ⟨h1, hle, _⟩ := hin
  exact ⟨h1, hle⟩

/-! `CLEAR` (R86). -/

theorem execClear_runs {s : State} (hv : s.cfg.valid = true) (ho : s.overlaps .clear = false) :
    exec .clear s = .next (s.clearBuffer.respond .ok []) := gate_open hv ho _

theorem State.pixel_clearBuffer {s : State} (hv : s.cfg.valid = true) {x y : Nat} (hx : x < s.cfg.width)
    (hy : y < s.cfg.height) : s.clearBuffer.pixel x y = some false := by
  have hread : (Memory.fill s.cfg.size 0x00#8).read (byteIndex s.cfg x y) = some 0x00#8 :=
    Memory.read_fill _ (byteIndex_lt hv hx hy)
  simp [pixel, hx, hy, hread]

/-! `GET_BUFFER` (R90). -/

theorem execGetBuffer_runs {s : State} (hv : s.cfg.valid = true) (ho : s.overlaps .getBuffer = false) {bytes : List Byte}
    (hr : s.memRead 0 s.cfg.size = some bytes) : exec .getBuffer s = .next (s.respond .ok bytes) :=
  (gate_open hv ho _).trans (by rw [hr])

/-! `SET_PIXEL` (R87): coordinates are clipped or are those of a pixel. -/

theorem inBounds_eq_false {c : Config} {x y : Int} :
    inBounds c x y = false ↔ x < 0 ∨ x ≥ c.width ∨ y < 0 ∨ y ≥ c.height := by
  simp only [inBounds, Bool.not_eq_false', Bool.or_eq_true, decide_eq_true_eq, or_assoc]

theorem outside_or_pixel (c : Config) (x y : Int) :
    (x < 0 ∨ x ≥ c.width ∨ y < 0 ∨ y ≥ c.height) ∨ ∃ a b : Nat, x = a ∧ y = b ∧ a < c.width ∧ b < c.height := by
  by_cases h : x < 0 ∨ x ≥ c.width ∨ y < 0 ∨ y ≥ c.height
  · exact .inl h
  · exact .inr ⟨x.toNat, y.toNat, by omega, by omega, by omega, by omega⟩

section
variable {s : State} {x y : Int} {color : Color} (hv : s.cfg.valid = true) (ho : s.overlaps (.setPixel x y color) = false)
include hv ho

/-- The converse of the first case of `execSetPixel_next`. -/
theorem execSetPixel_clipped (hb : inBounds s.cfg x y = false) :
    exec (.setPixel x y color) s = .next (s.respond .ok []) :=
  (gate_open hv ho _).trans (by simp [hb])

/-- The converse of the second case of `execSetPixel_next`: the byte that was read can be written. -/
theorem execSetPixel_written (hb : inBounds s.cfg x y = true) {old : Byte}
    (hr : s.memRead (byteIndex s.cfg x.toNat y.toNat) 1 = some [old]) :
    exec (.setPixel x y color) s = .next (State.respond .ok [] { s with
      fb := s.fb.write (byteIndex s.cfg x.toNat y.toNat) (pixelByte color (bitInPage y.toNat) old) }) := by
  have hin : byteIndex s.cfg x.toNat y.toNat + 1 ≤ s.cfg.size := (memRead_some hr).2
  have hwrite (b : Byte) : s.memWrite (byteIndex s.cfg x.toNat y.toNat) [b] =
      some { s with fb := s.fb.write (byteIndex s.cfg x.toNat y.toNat) b } := memWrite_eq (le_refl 1) hin
  exact (gate_open hv ho _).trans (by simp only [hb, if_true, hr, hwrite])

end

/-! What each of the three does when no operation is in progress (R85). -/

theorem Free_execClear {s : State} (hs : s.Free) : exec .clear s = .next { s with
    fb := Memory.fill s.cfg.size 0x00#8, responses := s.responses ++ [⟨.ok, []⟩] } :=
  (execClear_runs hs.config (overlaps_none hs.none _)).trans
    (congrArg _ (respond_of_none (s := s.clearBuffer) hs.none _ _))

theorem Free_execGetBuffer {s : State} (hs : s.Free) : exec .getBuffer s = .next { s with
    responses := s.responses ++ [⟨.ok, s.fb.bytes 0 s.cfg.size⟩] } := by
  have hr : s.memRead 0 s.cfg.size = some (s.fb.bytes 0 s.cfg.size) :=
    memRead_eq hs.buffer (size_pos hs.config) (by omega)
  rw [execGetBuffer_runs hs.config (overlaps_none hs.none _) hr, respond_of_none hs.none]

theorem Free_execSetPixel {s : State} (hs : s.Free) {x y : Nat} (hx : x < s.cfg.width) (hy : y < s.cfg.height)
    (color : Color) : ∃ old, s.fb.read (y / 8 * s.cfg.width + x) = some old ∧
      exec (.setPixel x y color) s = .next { s with
        fb := s.fb.write (y / 8 * s.cfg.width + x) (pixelByte color (y % 8) old),
        responses := s.responses ++ [⟨.ok, []⟩] } := by
  obtain ⟨old, hr, hold⟩ := memRead_one hs.buffer (byteIndex_lt hs.config hx hy)
  refine ⟨old, hold, ?_⟩
  rw [execSetPixel_written hs.config (overlaps_none hs.none _) (inBounds_nat hx hy) hr, respond_of_none]
  · rfl
  · exact hs.none

theorem execSetPixel_outside {s : State} (hv : s.cfg.valid = true) (ha : s.activity = none) {x y : Int}
    (hout : x < 0 ∨ x ≥ s.cfg.width ∨ y < 0 ∨ y ≥ s.cfg.height) (color : Color) :
    exec (.setPixel x y color) s = .next { s with responses := s.responses ++ [⟨.ok, []⟩] } := by
  rw [execSetPixel_clipped hv (overlaps_none ha _) (inBounds_eq_false.mpr hout), respond_of_none ha]

end Machine

/-- Settles O37: each of the three has its own next state, `SET_PIXEL` one outside and one for a pixel. -/
theorem framebufferOperationsNeverFail : Obligations.FramebufferOperationsNeverFail := by
  rintro s i hs (rfl | rfl | ⟨x, y, color, rfl⟩)
  · exact ⟨_, _, Machine.Free_execClear hs, rfl, rfl⟩
  · exact ⟨_, _, Machine.Free_execGetBuffer hs, rfl, rfl⟩
  · rcases Machine.outside_or_pixel s.cfg x y with hout | ⟨a, b, rfl, rfl, ha, hb⟩
    · exact ⟨_, _, Machine.execSetPixel_outside hs.config hs.none hout color, rfl, rfl⟩
    · obtain ⟨old, _, hx⟩ := Machine.Free_execSetPixel hs ha hb color
      exact ⟨_, _, hx, rfl, rfl⟩

/-- Settles O19: the framebuffer left is `Memory.fill`, and a memory of the same size that reads 0 everywhere is that one. -/
theorem clearZeroesTheBuffer : Obligations.ClearZeroesTheBuffer := by
  refine ⟨rfl, fun s hs => ⟨_, Machine.Free_execClear hs, fun a ha => Machine.Memory.read_fill _ ha,
    fun x y hx hy => Machine.State.pixel_clearBuffer hs.config hx hy, fun hclear => ?_, rfl⟩⟩
  exact Machine.Memory.ext_read (Machine.Memory.fill_wf _ _) hs.buffer fun a ha =>
    (Machine.Memory.read_fill _ ha).trans (hclear a ha).symm

/-- Settles O20: in bounds the byte of the pixel is written in place; out of bounds the operation is clipped. -/
theorem setPixelWritesItsByte : Obligations.SetPixelWritesItsByte := by
  refine ⟨fun w h => decodeRequest_setPixel (beq_iff_eq.mpr h), fun s x y color hs hx hy => ?_,
    fun s x y color hv ha hout => Machine.execSetPixel_outside hv ha hout color⟩
  obtain ⟨old, hold, hexec⟩ := Machine.Free_execSetPixel hs hx hy color
  refine ⟨_, old, hexec, hold, ?_, fun a ha => Machine.Memory.read_write_other _ ha _, rfl⟩
  rw [Machine.Memory.read_write_same hs.buffer (Machine.byteIndex_lt hs.config hx hy)]
  cases color <;> rfl

/-- Settles O21: (a) and (b) are what `SET_PIXEL` does to every pixel; `SET_INVERT` writes no `fb`, nor does any display-controller
operation but a successful `INIT`. -/
theorem framebufferLaws : Obligations.FramebufferLaws := by
  refine ⟨fun s t x y color hs hx hy h => ?_, fun s t x y x' y' color hs hx hy h hne => ?_,
    fun s t x y color hout h => ?_, fun s t x y h hx hy => ?_,
    fun s t u h1 h2 => (Machine.execSetInvert_fb h2).trans (Machine.execSetInvert_fb h1),
    fun s t i hi h hne => Machine.controller_fb hi h hne⟩
  · rw [Machine.execSetPixel_pixel hs.buffer hx hy h, if_pos ⟨rfl, rfl⟩]
  · rw [Machine.execSetPixel_pixel hs.buffer hx hy h, if_neg fun ⟨hx', hy'⟩ => hne (Prod.ext hx' hy')]
  · obtain ⟨_, _, ⟨_, rfl⟩ | ⟨hin, _⟩⟩ := Machine.execSetPixel_next h
    · rfl
    · simp [Machine.inBounds_eq_false.mpr hout] at hin
  · obtain ⟨hv, _, rfl⟩ := Machine.execClear_next h
    exact Machine.State.pixel_clearBuffer hv hx hy

/-- Settles O22: whether `SET_PIXEL` is clipped, and what it writes otherwise, depends on configuration and `fb` only. -/
theorem setPixelDoesNotReadInvert : Obligations.SetPixelDoesNotReadInvert := by
  intro s t d k x y color h
  obtain ⟨hv, ho, ⟨hout, rfl⟩ | ⟨hin, old, hr, rfl⟩⟩ := Machine.execSetPixel_next h
  · exact Machine.execSetPixel_clipped (s := { s with disp := d, ctl := k }) hv ho hout
  · exact Machine.execSetPixel_written (s := { s with disp := d, ctl := k }) hv ho hin hr

/-- Settles O24: the answer is the slice of all `N` bytes; later responses are appended after it. -/
theorem getBufferAnswersTheBytes : Obligations.GetBufferAnswersTheBytes := by
  refine ⟨rfl, fun s hs => ?_, fun i s t h => ?_⟩
  · have hlen : (s.fb.bytes 0 s.cfg.size).length = s.cfg.size :=
      Machine.Memory.bytes_length hs.buffer (Nat.zero_add _).le
    refine ⟨_, Machine.Free_execGetBuffer hs, hlen, fun a ha => ?_, ?_⟩
    · rw [Machine.Memory.bytes_getElem? hs.buffer 0 ha, Nat.zero_add]
    · rw [Machine.Response.bytes, List.length_cons, hlen, Nat.add_comm]
  · rcases (Machine.exec_frame h).resp with he | ⟨r, he⟩ <;> rw [he]
    exact ⟨[r], rfl⟩

namespace Machine

/-- A code is taken from the port or from the framer call, which is all that taking it changes. -/
theorem State.fetch_rest {s rest : State} {code : Code} (h : s.fetch = .code code rest) :
    rest = { s with requests := rest.requests, framerCall := rest.framerCall } := by
  unfold fetch at h
  split at h
  · cases h
  · split at h
    · cases h
      rfl
    · split at h
      · cases h
        rfl
      · cases h

/-- Everything a step can do when it goes on, from any state: wait, or run an instruction with a code taken or none. -/
theorem step_runs {s t : State} (h : step s = .next t) :
    t = s ∨ ∃ i requests framerCall, exec i { s with requests := requests, framerCall := framerCall } = .next t := by
  obtain ⟨_, hk⟩ := State.configured_next h
  split at hk
  · injection hk with hk
    exact .inl hk.symm
  · exact .inr ⟨_, s.requests, s.framerCall, hk⟩
  · rename_i hf
    split at hk
    · rw [State.fetch_rest hf] at hk
      exact .inr ⟨_, _, _, hk⟩
    · cases hk

end Machine

/-- Settles O11: a step waits or runs an instruction, whose frame has the configuration and the addresses of `fb`. -/
theorem bufferSizeNeverChanges : Obligations.BufferSizeNeverChanges := by
  intro s t h
  rcases Machine.step_runs h with rfl | ⟨i, requests, framerCall, hx⟩
  · exact ⟨rfl, fun hw => ⟨hw, rfl⟩⟩
  · have hframe := Machine.exec_frame hx
    refine ⟨hframe.cfg, fun hw => ?_⟩
    have hwt : t.fb.wf s.cfg.size = true := hframe.fb hw
    exact ⟨hwt, (Machine.Memory.wf_length hwt).trans (Machine.Memory.wf_length hw).symm⟩

end Sys2Proof

namespace Sys2Proof

/-! ### How a bracket ends, and where it waits (42_controller_ops.md R100, R107, 60_exceptions.md R133) -/

namespace Machine
open State

/-- What the operation `i` does once its items are run (R100): it succeeds, fails, or waits with what is left. -/
def conclude (i : Instr) (r : State × Sent) : State :=
  finish i (fun u => { u.succeeded i with wp := u.wp }) (fun u => { u with ctl := u.failedCtl i }) r

theorem conclude_failed (i : Instr) (u : State) (kind : FailKind) : conclude i (u, .failed kind) = { u with
    ctl := u.failedCtl i
    lock := false
    activity := none
    hist := u.hist ++ [.rel]
    responses := u.responses ++ [⟨.transport kind, []⟩] } := rfl

/-- `s` where `i` waits for the lock. -/
def State.atLock (s : State) (i : Instr) (env : Env) : State :=
  { s with ctl := s.busyCtl i, activity := some ⟨i, .lockWait⟩, env := env }

/-- `s` where `i` holds the lock and has sent nothing yet in this step, which has appended the events `start`. -/
def State.holding (s : State) (i : Instr) (start : List Event) (env : Env) : State :=
  { s with ctl := s.busyCtl i, lock := true, hist := s.hist ++ start, env := env }

section
variable (s : State) (i : Instr) (items : List Item) (start : List Event)

/-- `s` once `i` has sent all of `items` and succeeded. -/
def State.afterSuccess (env : Env) : State :=
  { s.succeeded i with
    wp := itemsEnd s.wp items
    lock := false
    activity := none
    hist := s.hist ++ start ++ okEvents s.cfg (itemPayloads s.cfg s.fb s.wp items) ++ [.rel]
    responses := s.responses ++ [⟨.ok, []⟩]
    env := env
    panel := panelAfter s.cfg s.env.panelDraws (itemPayloads s.cfg s.fb s.wp items) s.panel }

/-- `s` once `i` has failed at the `k`-th transaction `p` of `items`. -/
def State.afterFailure (k : Nat) (p : Byte × List Byte) (kind : FailKind) (env : Env) : State :=
  { s with
    ctl := s.failedCtl i
    wp := pointerAt s.wp items k
    lock := false
    activity := none
    hist := s.hist ++ start ++ okEvents s.cfg ((itemPayloads s.cfg s.fb s.wp items).take k) ++
      [.txn s.cfg.devAddr p.1 p.2 (.fail kind), .rel]
    responses := s.responses ++ [⟨.transport kind, []⟩]
    env := env
    panel := (panelAfter s.cfg s.env.panelDraws ((itemPayloads s.cfg s.fb s.wp items).take k) s.panel).receive s.cfg
      (s.env.panelDraws + k) p.1 p.2 (.fail kind) }

/-- `s` where `i` waits for the answer to the `k`-th transaction of `items`. -/
def State.atTxn (k : Nat) (env : Env) : State :=
  { s with
    ctl := s.busyCtl i
    wp := pointerAt s.wp items k
    lock := true
    activity := some ⟨i, .sending (itemsFrom items k)⟩
    hist := s.hist ++ start ++ okEvents s.cfg ((itemPayloads s.cfg s.fb s.wp items).take k)
    env := env
    panel := panelAfter s.cfg s.env.panelDraws ((itemPayloads s.cfg s.fb s.wp items).take k) s.panel }

/-- The step of `i` from `s` runs `items` in a bracket that is open, or that it opens with `start`. -/
def Runs : Prop :=
  ∃ env : Env, env.panelDraws = s.env.panelDraws ∧ (∀ k, (s.holding i start env).answerAt k = s.answerAt k) ∧
    exec i s = .next (conclude i (sendAll items (s.holding i start env)))

end

section
variable {s : State} {i : Instr} {items : List Item} {start : List Event}

/-- With every transaction answered `ok` the operation succeeds. -/
theorem Runs.succeeds (h : Runs s i items start)
    (ha : ∀ k, k < (itemPayloads s.cfg s.fb s.wp items).length → s.answerAt k = some .ok) :
    ∃ env, exec i s = .next (s.afterSuccess i items start env) := by
  obtain ⟨env, hdraws, hans, hx⟩ := h
  obtain ⟨u, hrun, hu⟩ := sendAll_whole (s := s.holding i start env) fun k hk => (hans k).trans (ha k hk)
  refine ⟨u.env, hx.trans (congrArg _ ?_)⟩
  rw [hrun, hu, afterSuccess, ← hdraws]
  cases i <;> rfl

section
variable {k : Nat} {p : Byte × List Byte} (h : Runs s i items start)
  (hp : (itemPayloads s.cfg s.fb s.wp items)[k]? = some p) (hok : ∀ j, j < k → s.answerAt j = some .ok)
include h hp hok

/-- With the `k`-th transaction the first that is not answered `ok`, and failed, the operation fails. -/
theorem Runs.fails {kind : FailKind} (ha : s.answerAt k = some (.fail kind)) :
    ∃ env, exec i s = .next (s.afterFailure i items start k p kind env) := by
  obtain ⟨env, hdraws, hans, hx⟩ := h
  obtain ⟨u, hu, hfail, _⟩ := sendAll_stop (s := s.holding i start env) hp fun j hj => (hans j).trans (hok j hj)
  have hctl : (u.answered p.1 p.2 (.fail kind)).failedCtl i = s.failedCtl i := by
    rw [failedCtl, answered_ctl, hu.same]
    cases i <;> rfl
  refine ⟨(u.answered p.1 p.2 (.fail kind)).env, hx.trans (congrArg _ ?_)⟩
  rw [hfail kind ((hans k).trans ha), conclude_failed, hctl, answered_eq, hu.draws, hu.same, hu.wp, hu.hist, hu.panel,
    afterFailure, ← hdraws, List.append_cons _ (Event.txn _ _ _ _) [.rel]]
  rfl

/-- With the `k`-th transaction the first that is not answered `ok`, and not answered at all, it waits with the rest. -/
theorem Runs.waits (ha : s.answerAt k = none) :
    ∃ env, env.panelDraws = s.env.panelDraws + k ∧ exec i s = .next (s.atTxn i items start k env) := by
  obtain ⟨env, hdraws, hans, hx⟩ := h
  obtain ⟨u, hu, _, hwait⟩ := sendAll_stop (s := s.holding i start env) hp fun j hj => (hans j).trans (hok j hj)
  refine ⟨u.afterPhyPoll.env, ?_, hx.trans (congrArg _ ?_)⟩
  · rw [afterPhyPoll_panelDraws, hu.draws, ← hdraws]
    rfl
  · rw [hwait ((hans k).trans ha), afterPhyPoll_eq, hu.same, hu.wp, hu.hist, hu.panel, atTxn, ← hdraws]
    rfl

end

/-- Whatever the PHY answers, a step that runs `items` ends in one of these three ways. -/
theorem Runs.outcome {t : State} (h : Runs s i items start) (hx : exec i s = .next t) :
    (∃ env, t = s.afterSuccess i items start env) ∨
    (∃ k p kind env, (itemPayloads s.cfg s.fb s.wp items)[k]? = some p ∧ t = s.afterFailure i items start k p kind env) ∨
    ∃ k env, k < (itemPayloads s.cfg s.fb s.wp items).length ∧ env.panelDraws = s.env.panelDraws + k ∧
      t = s.atTxn i items start k env := by
  have next {u : State} (hu : exec i s = .next u) : t = u := by
    rw [hx] at hu
    injection hu
  rcases first_stop s.answerAt (itemPayloads s.cfg s.fb s.wp items).length with hall | ⟨k, hk, hok, hne⟩
  · obtain ⟨env, he⟩ := h.succeeds hall
    exact .inl ⟨env, next he⟩
  · have hp := List.getElem?_eq_getElem hk
    rcases ha : s.answerAt k with _ | _ | kind
    · obtain ⟨env, hdraws, he⟩ := h.waits hp hok ha
      exact .inr (.inr ⟨k, env, hk, hdraws, next he⟩)
    · exact absurd ha hne
    · obtain ⟨env, he⟩ := h.fails hp hok ha
      exact .inr (.inl ⟨k, _, kind, env, hp, next he⟩)

/-- Where a display-controller operation of a legal state runs items: granted the lock, or going on with what is left. -/
theorem Inv_runs (hs : s.Inv) (hi : isController i = true)
    (h : (s.activity = none ∧ stateCheck i s.ctl = none ∧ s.grantAt 0 = true ∧ items = planOf s.cfg i ∧ start = [.acq]) ∨
      (s.activity = some ⟨i, .lockWait⟩ ∧ s.grantAt 0 = true ∧ items = planOf s.cfg i ∧ start = [.acq]) ∨
      (s.activity = some ⟨i, .sending items⟩ ∧ start = [])) : Runs s i items start := by
  obtain ⟨b, hb, hdraws, hans, hx⟩ := exec_goes_on hs hi h
  refine ⟨b.env, hdraws, ?_, ?_⟩ <;> rw [holding, ← hb]
  · exact hans
  · exact hx

/-- Between two operations an accepted one that is granted the lock runs its whole plan, in a bracket of its own. -/
theorem Idle_runs (hs : s.Idle) (hi : isController i = true) (hc : stateCheck i s.ctl = none) (hg : s.grantAt 0 = true) :
    Runs s i (planOf s.cfg i) [.acq] := by
  have hbusy : State.acquired (afterLockPoll { s with ctl := s.busyCtl i }) =
      s.holding i [.acq] (afterLockPoll { s with ctl := s.busyCtl i }).env := acquired_afterLockPoll _
  refine ⟨(afterLockPoll { s with ctl := s.busyCtl i }).env, afterLockPoll_panelDraws _, fun k => ?_, ?_⟩
  · rw [← hbusy, answerAt_acquired, answerAt_afterLockPoll]
    rfl
  · rw [← hbusy, exec_effects hi hs.config (overlaps_none hs.none i) hs.buffer,
      controller_granted hs.none hc hs.lock (grantAt_zero s ▸ hg)]
    rfl

end

end Machine

/-- Settles O52: from each of the three places the step runs the items, and what it runs ends as the answers have it. -/
theorem operationsGoOnWhereTheyStand : Obligations.OperationsGoOnWhereTheyStand := by
  intro s i items start hs hi hstand
  have hruns := Machine.Inv_runs hs hi hstand
  refine ⟨fun ha => ?_, fun k p hp hok => ⟨fun kind ha => ?_, fun ha => ?_⟩⟩
  · obtain ⟨env, hx⟩ := hruns.succeeds ha
    exact ⟨_, hx, rfl⟩
  · obtain ⟨env, hx⟩ := hruns.fails hp hok ha
    exact ⟨_, hx, rfl⟩
  · obtain ⟨env, _, hx⟩ := hruns.waits hp hok ha
    exact ⟨_, hx, rfl⟩

end Sys2Proof

namespace Sys2Proof

/-! ### An operation from its request to its response, through all its waits (42_controller_ops.md R100, R107,
70_reset_and_hazards.md R157) -/

namespace Machine
open State

theorem okEvents_append (c : Config) (a b : List (Byte × List Byte)) : okEvents c (a ++ b) = okEvents c a ++ okEvents c b :=
  List.map_append

/-! Where the next steps of a waiting operation lead, in the terms of the state in which it was accepted. -/

section
variable {s : State} {lockEnv : Env}

theorem busyCtl_atLock (i : Instr) : (s.atLock i lockEnv).busyCtl i = s.busyCtl i := by
  cases i <;> rfl

theorem failedCtl_atLock (i : Instr) : (s.atLock i lockEnv).failedCtl i = s.failedCtl i := by
  cases i <;> rfl

variable (hdraws : lockEnv.panelDraws = s.env.panelDraws) (i : Instr) (items : List Item) (start : List Event) (env : Env)
include hdraws

theorem afterSuccess_atLock : (s.atLock i lockEnv).afterSuccess i items start env = s.afterSuccess i items start env := by
  rw [afterSuccess, afterSuccess, ← hdraws]
  cases i <;> rfl

theorem afterFailure_atLock (k : Nat) (p : Byte × List Byte) (kind : FailKind) :
    (s.atLock i lockEnv).afterFailure i items start k p kind env = s.afterFailure i items start k p kind env := by
  rw [afterFailure, afterFailure, ← hdraws, failedCtl_atLock]
  rfl

theorem atTxn_atLock (k : Nat) : (s.atLock i lockEnv).atTxn i items start k env = s.atTxn i items start k env := by
  rw [atTxn, atTxn, ← hdraws, busyCtl_atLock]
  rfl

end

section
variable {s u : State} {i : Instr} {items : List Item} {start : List Event} {k : Nat} {txnEnv : Env}
  (hu : u = s.atTxn i items start k txnEnv)
include hu

/-- What is left at the `k`-th transaction is the transactions from there on. -/
theorem itemPayloads_atTxn : itemPayloads u.cfg u.fb u.wp (itemsFrom items k) = (itemPayloads s.cfg s.fb s.wp items).drop k := by
  rw [hu]
  exact itemPayloads_from ..

theorem hist_atTxn (txns : List (Byte × List Byte)) : u.hist ++ [] ++ okEvents u.cfg txns =
    s.hist ++ start ++ okEvents s.cfg ((itemPayloads s.cfg s.fb s.wp items).take k ++ txns) := by
  rw [hu, List.append_nil, okEvents_append, ← List.append_assoc]
  rfl

variable (hk : k < (itemPayloads s.cfg s.fb s.wp items).length) (hdraws : txnEnv.panelDraws = s.env.panelDraws + k)
include hk hdraws

theorem panelAfter_atTxn (txns : List (Byte × List Byte)) : panelAfter u.cfg u.env.panelDraws txns u.panel =
    panelAfter s.cfg s.env.panelDraws ((itemPayloads s.cfg s.fb s.wp items).take k ++ txns) s.panel := by
  rw [hu, panelAfter_append, List.length_take_of_le hk.le, ← hdraws]
  rfl

theorem afterSuccess_atTxn (env : Env) :
    u.afterSuccess i (itemsFrom items k) [] env = s.afterSuccess i items start env := by
  rw [afterSuccess, itemPayloads_atTxn hu, hist_atTxn hu, panelAfter_atTxn hu hk hdraws, List.take_append_drop, afterSuccess,
    ← itemsEnd_from items s.wp k, hu]
  cases i <;> rfl

theorem afterFailure_atTxn (j : Nat) (p : Byte × List Byte) (kind : FailKind) (env : Env) :
    u.afterFailure i (itemsFrom items k) [] j p kind env = s.afterFailure i items start (k + j) p kind env := by
  rw [afterFailure, itemPayloads_atTxn hu, hist_atTxn hu, panelAfter_atTxn hu hk hdraws, ← List.take_add, afterFailure,
    ← pointerAt_from items s.wp k j, ← Nat.add_assoc, ← hdraws, hu]
  cases i <;> rfl

theorem atTxn_atTxn (j : Nat) (env : Env) :
    u.atTxn i (itemsFrom items k) [] j env = s.atTxn i items start (k + j) env := by
  rw [atTxn, itemPayloads_atTxn hu, hist_atTxn hu, panelAfter_atTxn hu hk hdraws, ← List.take_add, atTxn,
    ← pointerAt_from items s.wp k j, itemsFrom_from, hu]
  cases i <;> rfl

end

/-- What has come of the operation `i`, accepted at `s`: it waits for the lock, or for its next transaction, or has ended. -/
inductive Course (i : Instr) (s : State) : State → Prop
  | atLock (env : Env) (draws : env.panelDraws = s.env.panelDraws) : Course i s (s.atLock i env)
  | atTxn (k : Nat) (env : Env) (left : k < (itemPayloads s.cfg s.fb s.wp (planOf s.cfg i)).length)
      (draws : env.panelDraws = s.env.panelDraws + k) : Course i s (s.atTxn i (planOf s.cfg i) [.acq] k env)
  | succeeded (env : Env) : Course i s (s.afterSuccess i (planOf s.cfg i) [.acq] env)
  | failed (k : Nat) (p : Byte × List Byte) (kind : FailKind) (env : Env)
      (txn : (itemPayloads s.cfg s.fb s.wp (planOf s.cfg i))[k]? = some p) :
      Course i s (s.afterFailure i (planOf s.cfg i) [.acq] k p kind env)

/-- The first step of an accepted operation. -/
theorem Course.accepted {i : Instr} {s t : State} (hs : s.Inv) (hi : isController i = true) (ha : s.activity = none)
    (hc : stateCheck i s.ctl = none) (h : exec i s = .next t) : Course i s t := by
  cases hg : s.grantAt 0 with
  | false =>
    obtain ⟨u, hu, he, hdraws, _⟩ := exec_ungranted hs hi (.inl ⟨ha, hc⟩) hg
    rw [h] at hu
    injection hu with hu
    rw [hu, he]
    exact .atLock u.env hdraws
  | true =>
    have hruns := Inv_runs hs hi (.inl ⟨ha, hc, hg, rfl, rfl⟩)
    rcases hruns.outcome h with ⟨env, rfl⟩ | ⟨k, p, kind, env, hp, rfl⟩ | ⟨k, env, hk, hdraws, rfl⟩
    · exact .succeeded env
    · exact .failed k p kind env hp
    · exact .atTxn k env hk hdraws

/-- Its next step from a wait for the lock. -/
theorem Course.from_lock {i : Instr} {s t : State} {lockEnv : Env} (hi : isController i = true)
    (hs : (s.atLock i lockEnv).Inv) (hdraws : lockEnv.panelDraws = s.env.panelDraws)
    (h : exec i (s.atLock i lockEnv) = .next t) : Course i s t := by
  cases hg : (s.atLock i lockEnv).grantAt 0 with
  | false =>
    obtain ⟨u, hu, he, hdraws', _⟩ := exec_ungranted hs hi (.inr rfl) hg
    rw [h] at hu
    injection hu with hu
    rw [hu, he, busyCtl_atLock]
    exact .atLock u.env (hdraws'.trans hdraws)
  | true =>
    have hruns := Inv_runs hs hi (.inr (.inl ⟨rfl, hg, rfl, rfl⟩))
    rcases hruns.outcome h with ⟨env, rfl⟩ | ⟨k, p, kind, env, hp, rfl⟩ | ⟨k, env, hk, hdraws', rfl⟩
    · rw [afterSuccess_atLock hdraws]
      exact .succeeded env
    · rw [afterFailure_atLock hdraws]
      exact .failed k p kind env hp
    · rw [atTxn_atLock hdraws]
      exact .atTxn k env hk (hdraws'.trans (congrArg (· + k) hdraws))

/-- Its next step from a wait for the answer to the `k`-th transaction. -/
theorem Course.from_txn {i : Instr} {s u t : State} {k : Nat} {txnEnv : Env} (hi : isController i = true)
    (hu : u = s.atTxn i (planOf s.cfg i) [.acq] k txnEnv) (hs : u.Inv)
    (hk : k < (itemPayloads s.cfg s.fb s.wp (planOf s.cfg i)).length) (hdraws : txnEnv.panelDraws = s.env.panelDraws + k)
    (h : exec i u = .next t) : Course i s t := by
  have hact : u.activity = some ⟨i, .sending (itemsFrom (planOf s.cfg i) k)⟩ := by rw [hu]; rfl
  have hruns := Inv_runs hs hi (.inr (.inr ⟨hact, rfl⟩))
  rcases hruns.outcome h with ⟨env, rfl⟩ | ⟨j, p, kind, env, hp, rfl⟩ | ⟨j, env, hj, hdraws', rfl⟩
  · rw [afterSuccess_atTxn hu hk hdraws]
    exact .succeeded env
  · rw [itemPayloads_atTxn hu, List.getElem?_drop] at hp
    rw [afterFailure_atTxn hu hk hdraws]
    exact .failed (k + j) p kind env hp
  · rw [itemPayloads_atTxn hu, List.length_drop] at hj
    have hdraws'' : env.panelDraws = txnEnv.panelDraws + j := by rw [hdraws', hu]; rfl
    rw [atTxn_atTxn hu hk hdraws]
    exact .atTxn (k + j) env (by omega) (by omega)

/-- A step of what is still in progress. -/
theorem Course.next {i op : Instr} {stage : Stage} {s t v : State} (hi : isController i = true) (hc : Course i s t) (ht : t.Inv)
    (ha : t.activity = some ⟨op, stage⟩) (h : exec op t = .next v) : Course i s v := by
  cases hc with
  | atLock env hdraws =>
    cases ha
    exact from_lock hi ht hdraws h
  | atTxn k env hk hdraws =>
    cases ha
    exact from_txn hi rfl ht hk hdraws h
  | succeeded env => cases ha
  | failed k p kind env hp => cases ha

/-- Any number of steps in which no further request is taken. -/
theorem Course.run {i : Instr} {s : State} (hi : isController i = true) (n : Nat) : ∀ {t v : State}, Course i s t → t.Inv →
    Host.Core.run Sys2Proof.core n t = .next v → v.requests = t.requests → Course i s v := by
  induction n with
  | zero =>
    intro t v hc _ h _
    injection h with h
    exact h ▸ hc
  | succ n ih =>
    intro t v hc ht h hreq
    rcases Option.eq_none_or_eq_some t.activity with ha | ⟨⟨op, stage⟩, ha⟩
    · exact run_idle (n + 1) ht ha h hreq ▸ hc
    · obtain ⟨u, hstep, hrun⟩ := run_succ h
      have hu := step_inv ht hstep
      rw [step_resume ha] at hstep
      exact ih (hc.next hi ht ha hstep) hu hrun (hreq.trans (exec_frame hstep).req.symm)

/-! The same in the terms of the operation's own rule (R102, R107 with R109, R112, R115). -/

section
variable {s : State} {i : Instr} (hs : s.Free) (hi : isController i = true) (env : Env)
include hs hi

theorem atTxn_plan {k : Nat} (hk : k < (s.operationTxns i).length) :
    s.atTxn i (planOf s.cfg i) [.acq] k env = { s with
      ctl := s.busyCtl i
      wp := s.operationPointer i k
      lock := true
      activity := some ⟨i, .sending (itemsFrom (planOf s.cfg i) k)⟩
      hist := s.hist ++ .acq :: okEvents s.cfg ((s.operationTxns i).take k)
      env := env
      panel := panelAfter s.cfg s.env.panelDraws ((s.operationTxns i).take k) s.panel } := by
  rw [atTxn, plan_txns hs.config hs.buffer, plan_pointer hs.config hs.buffer hi hk, ← List.append_cons]

theorem afterSuccess_plan (hl : s.lock = false) : s.afterSuccess i (planOf s.cfg i) [.acq] env = { s.succeeded i with
      hist := s.hist ++ .acq :: okEvents s.cfg (s.operationTxns i) ++ [.rel]
      responses := s.responses ++ [⟨.ok, []⟩]
      env := env
      panel := panelAfter s.cfg s.env.panelDraws (s.operationTxns i) s.panel } := by
  rw [afterSuccess, plan_txns hs.config hs.buffer, plan_end hs.config hi, ← List.append_cons, ← hl, ← hs.none]
  cases i <;> rfl

theorem afterFailure_plan (hl : s.lock = false) {k : Nat} (hk : k < (s.operationTxns i).length) (p : Byte × List Byte)
    (kind : FailKind) : s.afterFailure i (planOf s.cfg i) [.acq] k p kind env = { s with
      ctl := s.failedCtl i
      wp := s.operationPointer i k
      hist := s.hist ++ .acq :: okEvents s.cfg ((s.operationTxns i).take k) ++
        [.txn s.cfg.devAddr p.1 p.2 (.fail kind), .rel]
      responses := s.responses ++ [⟨.transport kind, []⟩]
      env := env
      panel := (panelAfter s.cfg s.env.panelDraws ((s.operationTxns i).take k) s.panel).receive s.cfg
        (s.env.panelDraws + k) p.1 p.2 (.fail kind) } := by
  rw [afterFailure, plan_txns hs.config hs.buffer, plan_pointer hs.config hs.buffer hi hk,
    ← List.append_cons s.hist, ← hl, ← hs.none]

end

end Machine

/-- Settles O53: the first step starts the operation's course, every later one continues it or leaves an idle block as it is. -/
theorem operationsRunThroughTheirWaits : Obligations.OperationsRunThroughTheirWaits := by
  intro s t w rest i steps hs ha hr hd hi hc hrun hreq
  obtain _ | n := steps
  · injection hrun with hst
    rw [← hst, hr] at hreq
    simp at hreq
  obtain ⟨u, hstep, hrun⟩ := Machine.run_succ hrun
  have hu := Machine.step_inv hs hstep
  rw [Machine.step_code (Machine.State.fetch_request ha hs.noCall hr) rfl hd] at hstep
  have hfirst := Machine.Course.accepted (Machine.Inv_taken hs rest) hi ha hc hstep
  have hcourse := hfirst.run hi n hu hrun (hreq.trans (Machine.exec_frame hstep).req.symm)
  have hfree : Machine.State.Free { s with requests := rest } := ⟨hs.config, ha, hs.buffer⟩
  have hlock := (Machine.Inv_none hs ha).1
  have htxns (wp : Nat) := Machine.plan_txns (s := { s with requests := rest }) hs.config hs.buffer i wp
  cases hcourse with
  | atLock env _ => exact .inl rfl
  | atTxn k env hk _ =>
    rw [htxns] at hk
    rw [Machine.atTxn_plan hfree hi env hk]
    exact .inr (.inl ⟨k, hk, rfl⟩)
  | succeeded env =>
    rw [Machine.afterSuccess_plan hfree hi env hlock]
    cases i <;> exact .inr (.inr (.inl rfl))
  | failed k p kind env hp =>
    rw [htxns] at hp
    rw [Machine.afterFailure_plan hfree hi env hlock (List.getElem?_eq_some_iff.mp hp).1]
    exact .inr (.inr (.inr ⟨k, p, kind, hp, rfl⟩))

end Sys2Proof

namespace Sys2Proof

/-! ### The initial values of a legal configuration (42_controller_ops.md R104) -/

/-- The last member of a list that passes a test. -/
theorem find?_reverse_of_last {α : Type} {p : α → Bool} {x : α} (before : List α) {after : List α} (hx : p x = true)
    (hafter : ∀ y ∈ after, p y = false) : (before ++ x :: after).reverse.find? p = some x := by
  have hnone : after.reverse.find? p = none := by simpa using hafter
  simp [List.find?_append, hnone, hx]

namespace Config

/-- A command of `INIT_SEQ` that begins with the contrast command has its one level after it. -/
theorem contrast_command {c : Config} {cmds : List (List Byte)} (h : c.InitReads cmds) {x : List Byte} (hx : x ∈ cmds)
    (hhead : x.head? = some c.cmdContrast) : ∃ u, x = [c.cmdContrast, u] := by
  obtain ⟨cmd, args, rfl, hargs⟩ := isCommand_cases (GroupsRead.isCommand h x hx)
  obtain rfl : cmd = c.cmdContrast := by simpa using hhead
  obtain ⟨u, rfl⟩ : ∃ u, args = [u] := List.length_eq_one_iff.mp (by simpa [argsOf, eq_comm] using hargs)
  exact ⟨u, rfl⟩

section
variable {c : Config} {cmds : List (List Byte)} (hv : c.valid = true) (h : c.InitReads cmds)
include hv h

/-- In a legal configuration the initial `inverted` and `INIT_CONTRAST` are what the last commands of `INIT_SEQ` for them set. -/
theorem valid_initValues :
    (c.initInverted = true ↔ c.cmdInverse ≠ c.cmdNormal ∧
      cmds.reverse.find? (fun x => x == [c.cmdNormal] || x == [c.cmdInverse]) = some [c.cmdInverse]) ∧
    ∀ v, cmds.reverse.find? (fun x => x.head? == some c.cmdContrast) = some [c.cmdContrast, v] → c.initContrast = v := by
  obtain ⟨_, _, _, _, _, _, _, _, hok⟩ := (valid_iff c).mp hv
  rw [initValuesOk, Bool.and_eq_true] at hok
  obtain ⟨hcontrast, hinverted⟩ := hok
  exact ⟨(inverted_matches_iff h).mp hinverted, (contrast_matches_iff h).mp hcontrast⟩

theorem initInverted_of_no_mode (hno : ∀ x ∈ cmds, x ≠ [c.cmdNormal] ∧ x ≠ [c.cmdInverse]) : c.initInverted = false := by
  have hnone : cmds.reverse.find? (fun x => x == [c.cmdNormal] || x == [c.cmdInverse]) = none := by
    simpa [not_or] using hno
  have hiff := (valid_initValues hv h).1
  rw [hnone] at hiff
  simpa using hiff

theorem initInverted_of_last {flag : Bool} {before after : List (List Byte)} (hne : c.cmdNormal ≠ c.cmdInverse)
    (hcmds : cmds = before ++ [if flag then c.cmdInverse else c.cmdNormal] :: after)
    (hafter : ∀ x ∈ after, x ≠ [c.cmdNormal] ∧ x ≠ [c.cmdInverse]) : c.initInverted = flag := by
  have hiff := (valid_initValues hv h).1
  rw [hcmds, find?_reverse_of_last before (by cases flag <;> simp) (by simpa using hafter)] at hiff
  cases flag <;> simpa [hne, hne.symm] using hiff

theorem initContrast_of_last {v : Byte} {before after : List (List Byte)} (hcmds : cmds = before ++ [c.cmdContrast, v] :: after)
    (hafter : ∀ x ∈ after, ∀ u, x ≠ [c.cmdContrast, u]) : c.initContrast = v := by
  have hother : ∀ x ∈ after, (x.head? == some c.cmdContrast) = false := fun x hx => by
    refine beq_eq_false_iff_ne.mpr fun hhead => ?_
    obtain ⟨u, hu⟩ := contrast_command h (by simp [hcmds, hx]) hhead
    exact hafter x hx u hu
  refine (valid_initValues hv h).2 v ?_
  rw [hcmds]
  exact find?_reverse_of_last before (by simp) hother

end

end Config

namespace Machine
open State

/-! ### An operation that starts between two others and is answered at once (42_controller_ops.md R100) -/

section
variable {s : State} {i : Instr} (hs : s.Idle) (hi : isController i = true)
include hs hi

/-- One that the state check rejects has no effect but its response (R101). -/
theorem Idle_rejected {e : Status} (hc : stateCheck i s.ctl = some e) :
    exec i s = .next { s with responses := s.responses ++ [⟨e, []⟩] } := by
  rw [exec_effects hi hs.config (overlaps_none hs.none i) hs.buffer, controller_rejected hs.none hc, raise,
    respond_of_none hs.none]

section
variable (hc : stateCheck i s.ctl = none) (hg : s.grantAt 0 = true)
include hc hg

theorem Idle_succeeds (ha : ∀ k, k < (s.operationTxns i).length → s.answerAt k = some .ok) :
    ∃ t, exec i s = .next t ∧ t = { s.succeeded i with
      hist := s.hist ++ .acq :: okEvents s.cfg (s.operationTxns i) ++ [.rel]
      responses := s.responses ++ [⟨.ok, []⟩]
      env := t.env
      panel := t.panel } := by
  obtain ⟨env, hx⟩ := (Idle_runs hs hi hc hg).succeeds (by rwa [plan_txns hs.config hs.buffer])
  rw [afterSuccess_plan hs.toFree hi env hs.lock] at hx
  exact ⟨_, hx, rfl⟩

theorem Idle_fails {k : Nat} {p : Byte × List Byte} {kind : FailKind} (hp : (s.operationTxns i)[k]? = some p)
    (hok : ∀ j, j < k → s.answerAt j = some .ok) (ha : s.answerAt k = some (.fail kind)) :
    ∃ t, exec i s = .next t ∧ t = { s with
      ctl := s.failedCtl i
      wp := s.operationPointer i k
      hist := s.hist ++ .acq :: okEvents s.cfg ((s.operationTxns i).take k) ++
        [.txn s.cfg.devAddr p.1 p.2 (.fail kind), .rel]
      responses := s.responses ++ [⟨.transport kind, []⟩]
      env := t.env
      panel := t.panel } := by
  obtain ⟨env, hx⟩ := (Idle_runs hs hi hc hg).fails (by rwa [plan_txns hs.config hs.buffer]) hok ha
  rw [afterFailure_plan hs.toFree hi env hs.lock (List.getElem?_eq_some_iff.mp hp).1] at hx
  exact ⟨_, hx, rfl⟩

/-- The two operations of one command frame (R112, R115), whatever its answer. -/
theorem Idle_one (hinit : i ≠ .init) (hupdate : i ≠ .update) {payload : List Byte}
    (htxn : s.operationTxns i = [(s.cfg.ctrlCmd, payload)]) {r : TxnResult} (ha : s.answerAt 0 = some r) :
    ∃ t, exec i s = .next t ∧ t = { (match r with | .ok => s.succeeded i | .fail _ => s) with
      hist := s.hist ++ [.acq, .txn s.cfg.devAddr s.cfg.ctrlCmd payload r, .rel]
      responses := s.responses ++ [⟨match r with | .ok => .ok | .fail kind => .transport kind, []⟩]
      env := t.env
      panel := t.panel } := by
  cases r with
  | ok =>
    obtain ⟨t, hx, ht⟩ := Idle_succeeds hs hi hc hg fun k hk => by
      obtain rfl : k = 0 := by simpa [htxn] using hk
      exact ha
    rw [htxn] at ht
    exact ⟨t, hx, ht.trans (by simp [okEvents])⟩
  | fail kind =>
    obtain ⟨t, hx, ht⟩ := Idle_fails hs hi hc hg (k := 0) (by rw [htxn]; rfl) (by simp) ha
    exact ⟨t, hx, ht.trans (by simp [okEvents, failedCtl, operationPointer, hinit, hupdate])⟩

end

end

theorem okEvents_map {α : Type} (c : Config) (f : α → Byte × List Byte) (l : List α) :
    okEvents c (l.map f) = l.map fun x => .txn c.devAddr (f x).1 (f x).2 .ok := List.map_map

end Machine

/-- Settles O25: a legal configuration has the values that the last commands of `INIT_SEQ` set, and an `INIT` whose groups are all
answered `ok` succeeds. -/
theorem initBringsUp : Obligations.InitBringsUp := by
  refine ⟨rfl, fun c cmds hv h => ⟨Config.initInverted_of_no_mode hv h, fun _ _ _ => Config.initInverted_of_last hv h,
    fun _ _ _ => Config.initContrast_of_last hv h⟩, fun s hs hg ha => ?_⟩
  obtain ⟨t, hx, ht⟩ := Machine.Idle_succeeds (i := .init) hs rfl rfl hg (by simpa [Machine.State.operationTxns] using ha)
  refine ⟨t, hx, ?_⟩
  rw [ht]
  exact ⟨by rw [Machine.State.operationTxns, Machine.okEvents_map], fun a h => Machine.Memory.read_fill _ h,
    Machine.Memory.fill_wf _ _, rfl, rfl, rfl⟩

/-- Settles O26: the failure leaves a state between operations with `ctl` FAILED, in which `UPDATE` is rejected. -/
theorem initFailureChangesOnlyCtl : Obligations.InitFailureChangesOnlyCtl := by
  intro s k kind hs hg hk hok ha
  have hp : (s.operationTxns .init)[k]? = some (s.cfg.ctrlCmd, s.cfg.initSeq[k]?.getD []) := by
    simp [Machine.State.operationTxns, hk]
  obtain ⟨t, hx, ht⟩ := Machine.Idle_fails (i := .init) hs rfl rfl hg hp hok ha
  have hidle : t.Idle := by
    rw [ht]
    exact ⟨⟨hs.config, hs.none, hs.buffer⟩, hs.lock, by simp [Machine.State.failedCtl]⟩
  have hctl : t.ctl = .failed := by rw [ht]; rfl
  refine ⟨t, hx, ?_, by rw [ht]; rfl, Machine.Idle_rejected hidle rfl (by rw [hctl]; rfl)⟩
  rw [ht, Machine.State.operationTxns, ← List.map_take, Machine.okEvents_map]

end Sys2Proof

namespace Sys2Proof

/-! ### `UPDATE` and its chunks (42_controller_ops.md R107 to R111) -/

namespace Machine
open State

/-- The first transactions of an `UPDATE` are its first window groups. -/
theorem updateTxns_take_window {s : State} {k : Nat} (hk : k ≤ s.cfg.windowSeq.length) :
    (s.operationTxns .update).take k = (s.cfg.windowSeq.take k).map fun g => (s.cfg.ctrlCmd, g) := by
  rw [operationTxns, List.take_append_of_le_length (by simpa using hk), List.map_take]

/-- After all window groups come its first chunks. -/
theorem updateTxns_take_data {s : State} {k : Nat} (hk : k ≤ chunkCount s.cfg) :
    (s.operationTxns .update).take (s.cfg.windowSeq.length + k) = (s.cfg.windowSeq.map fun g => (s.cfg.ctrlCmd, g)) ++
      (List.range k).map fun j => (s.cfg.ctrlData, s.chunkAt j) := by
  rw [operationTxns, List.take_append, List.take_of_length_le (by simp), List.length_map, Nat.add_sub_cancel_left,
    ← List.map_take, List.take_range, Nat.min_eq_left hk]

/-- Consecutive pieces of `m` members make up the list as far as they go. -/
theorem flatten_pieces {α : Type} (l : List α) (m k : Nat) :
    ((List.range k).map fun j => (l.drop (j * m)).take m).flatten = l.take (k * m) := by
  induction k with
  | zero => simp
  | succ k ih => rw [List.range_succ, List.map_append, List.flatten_append, ih, Nat.succ_mul, List.take_add]; simp

theorem buffer_length {s : State} (hw : s.fb.wf s.cfg.size = true) : s.buffer.length = s.cfg.size := by
  rw [State.buffer, List.length_map, Memory.wf_length hw]

theorem chunkAt_length {s : State} (hw : s.fb.wf s.cfg.size = true) (j : Nat) :
    (s.chunkAt j).length = min s.cfg.maxTxn (s.cfg.size - j * s.cfg.maxTxn) := by
  rw [chunkAt, List.length_take, List.length_drop, buffer_length hw]

end Machine

/-- Settles O27: all transactions of an accepted `UPDATE` are `ok`, and it succeeds. -/
theorem updateStreamsTheBuffer : Obligations.UpdateStreamsTheBuffer := by
  intro s hs hc hg ha
  obtain ⟨t, hx, ht⟩ := Machine.Idle_succeeds (i := .update) hs rfl (by rw [hc]; rfl) hg
    (by simpa [Machine.State.operationTxns] using ha)
  refine ⟨t, hx, ?_, ?_⟩
  · rw [ht, Machine.State.operationTxns, Machine.okEvents_append, Machine.okEvents_map, Machine.okEvents_map]
    simp only [List.append_assoc, List.cons_append]
  · rw [ht, hc]
    rfl

/-- Settles O28: the chunks are the consecutive pieces of `MAX_TXN` bytes, as many as are not empty. -/
theorem chunksConcatenateToTheBuffer : Obligations.ChunksConcatenateToTheBuffer := by
  intro s hv hw
  have hm := Machine.valid_maxTxn hv
  have hlen := Machine.buffer_length hw
  have hcount (j : Nat) : j < Machine.chunkCount s.cfg ↔ j * s.cfg.maxTxn < s.cfg.size := Machine.lt_chunkCount hm
  refine ⟨?_, hlen, fun a _ => (Machine.Memory.read_eq_place hw a).symm, fun j hj => ?_, fun j hj => ?_, ?_⟩
  · refine (Machine.flatten_pieces s.buffer s.cfg.maxTxn _).trans (List.take_of_length_le ?_)
    rw [hlen]
    exact Machine.chunkCount_mul hm
  · rw [Machine.chunkAt_length hw]
    have := (hcount j).mp hj
    omega
  · rw [Machine.chunkAt_length hw]
    have := (hcount (j + 1)).mp hj
    rw [Nat.succ_mul] at this
    omega
  · rw [Machine.chunkAt_length hw]
    have hpos : 0 < Machine.chunkCount s.cfg := (hcount 0).mpr (by have := Machine.size_pos hv; omega)
    have hall := Machine.chunkCount_mul hm
    obtain ⟨k, hk⟩ : ∃ k, Machine.chunkCount s.cfg = k + 1 := ⟨_, (Nat.sub_add_cancel hpos).symm⟩
    rw [hk, Nat.succ_mul] at hall
    rw [hk, Nat.add_sub_cancel, Nat.mul_comm s.cfg.maxTxn k]
    omega

/-- Settles O29: chunk `k` is the transaction after the window groups and `k` chunks, and its first byte is at `k * MAX_TXN`. -/
theorem updateDataFailureKeepsTheBuffer : Obligations.UpdateDataFailureKeepsTheBuffer := by
  intro s k kind hs hc hg hk hok ha
  have hp : (s.operationTxns .update)[s.cfg.windowSeq.length + k]? = some (s.cfg.ctrlData, s.chunkAt k) := by
    simp [Machine.State.operationTxns, hk]
  obtain ⟨t, hx, ht⟩ := Machine.Idle_fails (i := .update) hs rfl (by rw [hc]; rfl) hg hp hok ha
  refine ⟨t, hx, ?_, ?_⟩
  · rw [ht, Machine.updateTxns_take_data hk.le, Machine.okEvents_append, Machine.okEvents_map, Machine.okEvents_map]
    simp only [List.append_assoc, List.cons_append]
  · rw [ht]
    simp [Machine.State.operationPointer, Machine.State.failedCtl]

/-- Settles O30: the window groups are the first transactions, which leave `wp` where it is. -/
theorem updateWindowFailureKeepsThePointer : Obligations.UpdateWindowFailureKeepsThePointer := by
  intro s k kind hs hc hg hk hok ha
  have hp : (s.operationTxns .update)[k]? = some (s.cfg.ctrlCmd, s.cfg.windowSeq[k]?.getD []) := by
    simp [Machine.State.operationTxns, hk, List.getElem?_append]
  obtain ⟨t, hx, ht⟩ := Machine.Idle_fails (i := .update) hs rfl (by rw [hc]; rfl) hg hp hok ha
  refine ⟨t, hx, ?_, ?_⟩
  · rw [ht, Machine.updateTxns_take_window hk.le, Machine.okEvents_map]
  · rw [ht]
    simp [Machine.State.operationPointer, Machine.State.failedCtl, hk]

/-! ### The operations of one command, and the command groups on the panel (20_memory.md R46, 42_controller_ops.md R103, R108,
R112 to R116) -/

/-- Settles O31: the two words are of its row of the table, and what is accepted sends one command frame. -/
theorem setInvertSendsOneCommand : Obligations.SetInvertSendsOneCommand := by
  refine ⟨fun flag => by cases flag <;> rfl, fun s flag hs hc => Machine.Idle_rejected hs rfl (by rw [hc]; rfl),
    fun s flag r hs hc hg ha => ?_⟩
  obtain ⟨t, hx, ht⟩ := Machine.Idle_one (i := .setInvert flag) hs rfl (Machine.modeCheck_failed hc) hg (by simp) (by simp)
    rfl ha
  cases r <;> exact ⟨t, hx, ht⟩

/-- Settles O32: likewise, with the clamped level as the byte after the command. -/
theorem setContrastSendsTheClampedLevel : Obligations.SetContrastSendsTheClampedLevel := by
  refine ⟨fun w h => decodeRequest_setContrast (beq_iff_eq.mpr h),
    fun s level hs hc => Machine.Idle_rejected hs rfl (by rw [hc]; rfl), fun s level r hs hc hg ha => ?_⟩
  obtain ⟨t, hx, ht⟩ := Machine.Idle_one (i := .setContrast level) hs rfl (Machine.modeCheck_failed hc) hg (by simp) (by simp)
    rfl ha
  exact ⟨t, Machine.contrastByte s.cfg level, hx, Machine.contrastByte_toNat hs.config level, by cases r <;> exact ht⟩

/-- Settles O33: the clamp is a case split on the level, and its three results are bytes. -/
theorem clampIsNotATruncation : Obligations.ClampIsNotATruncation := by
  have hclamp (level : Int) : Machine.clamp level 0 255 = if level < 0 then 0 else if level ≤ 255 then level else 255 := by
    unfold Machine.clamp
    split_ifs <;> omega
  refine ⟨hclamp, fun c level hmin hmax => ?_⟩
  rw [Machine.contrastByte, hmin, hmax, hclamp]
  split_ifs <;> rfl

/-- Settles O46: each of the four groups is one whole command. -/
theorem initGroupsReachThePanel : Obligations.InitGroupsReachThePanel := by
  intro s v hs ha
  have htwo (cmd : Byte) : s.FramerReady [cmd, v] := Machine.ready_of_le hs (by simp) (by simp)
  have hone : s.FramerReady [Cmd.displayOn] := Machine.ready_of_le hs (by simp) (by simp)
  exact ⟨Machine.exec_group_panel (htwo Cmd.memoryMode) ha rfl rfl, Machine.exec_group_panel (htwo Cmd.muxRatio) ha rfl rfl,
    Machine.exec_group_panel (htwo Cmd.chargePump) ha rfl rfl, Machine.exec_group_panel hone ha rfl rfl⟩

/-- Settles O47: so is each of the two window groups. -/
theorem windowGroupsReachThePanel : Obligations.WindowGroupsReachThePanel := by
  intro s a b hs ha
  have hthree (cmd : Byte) : s.FramerReady [cmd, a, b] := Machine.ready_of_le hs (by simp) (by simp)
  exact ⟨Machine.exec_group_panel (hthree Cmd.columnWindow) ha rfl rfl,
    Machine.exec_group_panel (hthree Cmd.pageWindow) ha rfl rfl⟩

end Sys2Proof

namespace Sys2Proof

/-! ### The control state, and what is sent outside READY (42_controller_ops.md R101, R107, R120) -/

namespace Machine
open State

/-- `ctl` is UPDATING exactly while an `UPDATE` is in progress (R25). -/
theorem Inv_ctl {s : State} (hs : s.Inv) {op : Instr} {stage : Stage} (ha : s.activity = some ⟨op, stage⟩) :
    s.ctl = .updating ↔ op = .update := by
  have hact := hs.activity
  unfold activityOk at hact
  rw [ha] at hact
  cases stage with
  | lockWait =>
    obtain ⟨_, _, hctl⟩ := hact
    exact hctl
  | sending rest =>
    obtain ⟨_, _, hctl, _⟩ := hact
    exact hctl

/-- Everything a display-controller operation can do from a legal state: it is rejected; or, accepted now or before, it waits for
the lock or runs items. -/
theorem Inv_exec_cases {s t : State} {i : Instr} (hs : s.Inv) (hi : isController i = true) (h : exec i s = .next t) :
    (∃ e, stateCheck i s.ctl = some e ∧ t = s.raise e) ∨
    ((s.activity = none ∧ stateCheck i s.ctl = none) ∨ ∃ stage, s.activity = some ⟨i, stage⟩) ∧
      ((∃ env, t = s.atLock i env) ∨ ∃ items start, Runs s i items start) := by
  have waits (hb : (s.activity = none ∧ stateCheck i s.ctl = none) ∨ s.activity = some ⟨i, .lockWait⟩) :
      (∃ env, t = s.atLock i env) ∨ ∃ items start, Runs s i items start := by
    cases hg : s.grantAt 0 with
    | false =>
      obtain ⟨u, hu, he, _⟩ := exec_ungranted hs hi hb hg
      rw [h] at hu
      injection hu with hu
      exact .inl ⟨u.env, hu.trans he⟩
    | true => exact .inr ⟨planOf s.cfg i, [.acq], Inv_runs hs hi (hb.elim (fun ⟨ha, hc⟩ => .inl ⟨ha, hc, hg, rfl, rfl⟩)
        fun ha => .inr (.inl ⟨ha, hg, rfl, rfl⟩))⟩
  rcases Option.eq_none_or_eq_some s.activity with ha | ⟨⟨op, stage⟩, ha⟩
  · cases hc : stateCheck i s.ctl with
    | none => exact .inr ⟨.inl ⟨ha, rfl⟩, waits (.inl ⟨ha, hc⟩)⟩
    | some e =>
      have hx := exec_controller_effects hi h
      rw [controller_rejected ha hc] at hx
      injection hx with hx
      exact .inl ⟨e, rfl, hx.symm⟩
  · obtain rfl : op = i := (overlaps_some ha i).mp (exec_overlaps h)
    refine .inr ⟨.inr ⟨stage, ha⟩, ?_⟩
    cases stage with
    | lockWait => exact waits (.inr ha)
    | sending rest => exact .inr ⟨rest, [], Inv_runs hs hi (.inr (.inr ⟨ha, rfl⟩))⟩

/-- So `ctl` and the response of an operation that is not rejected go together (R120). -/
theorem Inv_exec_ctl {s t : State} {i : Instr} (hs : s.Inv) (hi : isController i = true) (h : exec i s = .next t) :
    (∃ e, stateCheck i s.ctl = some e ∧ t = s.raise e) ∨
    ((s.activity = none ∧ stateCheck i s.ctl = none) ∨ ∃ stage, s.activity = some ⟨i, stage⟩) ∧
      ((t.responses = s.responses ∧ t.ctl = s.busyCtl i) ∨
       (t.responses = s.responses ++ [⟨.ok, []⟩] ∧ t.ctl = (s.succeeded i).ctl) ∨
       ∃ kind, t.responses = s.responses ++ [⟨.transport kind, []⟩] ∧ t.ctl = s.failedCtl i) := by
  refine (Inv_exec_cases hs hi h).imp_right fun ⟨hacc, hend⟩ => ⟨hacc, ?_⟩
  rcases hend with ⟨env, rfl⟩ | ⟨items, start, hruns⟩
  · exact .inl ⟨rfl, rfl⟩
  · rcases hruns.outcome h with ⟨env, rfl⟩ | ⟨k, p, kind, env, _, rfl⟩ | ⟨k, env, _, _, rfl⟩
    · exact .inr (.inl ⟨rfl, rfl⟩)
    · exact .inr (.inr ⟨kind, rfl, rfl⟩)
    · exact .inl ⟨rfl, rfl⟩

/-- An operation other than `INIT` and `UPDATE` never writes `ctl`, in any state. -/
theorem exec_keeps_ctl {s t : State} {i : Instr} (hinit : i ≠ .init) (hupdate : i ≠ .update) (h : exec i s = .next t) :
    t.ctl = s.ctl := by
  rcases instr_kinds s.cfg i with hi | hi | ⟨w, hw⟩
  · obtain ⟨_, _, f, data, rfl, _⟩ := exec_framebuffer hi h
    rfl
  · cases i <;> simp only [isController, Bool.false_eq_true] at hi
    case init => exact absurd rfl hinit
    case update => exact absurd rfl hupdate
    case setInvert flag => exact (execSetInvert_frame h).1
    case setContrast level => exact (execSetContrast_frame h).1
  · exact (exec_wire_next hw h).1

/-- Every transaction among the events is a command frame. -/
def CommandsOnly (c : Config) (es : List Event) : Prop :=
  ∀ addr ctrl payload r, .txn addr ctrl payload r ∈ es → ctrl = c.ctrlCmd

/-- A run of commands, and what ends it, append command frames only. -/
theorem conclude_commandsOnly {s : State} {items : List Item} (hitems : allCommands s.cfg items) (i : Instr) :
    ∃ es, (conclude i (sendAll items s)).hist = s.hist ++ es ∧ CommandsOnly s.cfg es := by
  obtain ⟨_, es, hes, hcmd⟩ := sendAll_commands hitems
  have hrel : CommandsOnly s.cfg (es ++ [.rel]) := fun addr ctrl payload r hm => hcmd addr ctrl payload r (by simpa using hm)
  rcases finish_cases i (fun u => { u.succeeded i with wp := u.wp }) (fun u => { u with ctl := u.failedCtl i })
    (sendAll items s) with ⟨_, hend⟩ | ⟨kind, _, hend⟩ | ⟨rest, _, hend⟩ <;> rw [conclude, hend]
  · obtain ⟨c, d, f, hshape, _⟩ := succeeded_shape i (sendAll items s).1
    exact ⟨_, by rw [hshape, respond_hist, release_hist, hes, List.append_assoc], hrel⟩
  · exact ⟨_, by rw [raise_hist, release_hist, hes, List.append_assoc], hrel⟩
  · exact ⟨es, hes, hcmd⟩

section
variable {s t : State} {i : Instr} (hs : s.Inv ∨ (s.cfg.valid = true ∧ s.activity = none))
  (hctl : s.ctl = .uninitialized ∨ s.ctl = .failed)
include hs hctl

/-- Outside READY an `UPDATE` is rejected: none is in progress there. -/
theorem update_rejected_outside_ready (h : exec .update s = .next t) : ∃ e, t = s.raise e := by
  have ha : s.activity = none := by
    rcases hs with hinv | ⟨_, ha⟩
    · by_contra hne
      obtain ⟨⟨op, stage⟩, ha⟩ := Option.ne_none_iff_exists'.mp hne
      obtain rfl : op = .update := (overlaps_some ha _).mp (exec_overlaps h)
      rw [(Inv_ctl hinv ha).mpr rfl] at hctl
      simp at hctl
    · exact ha
  obtain ⟨e, hc⟩ : ∃ e, stateCheck .update s.ctl = some e := by
    rcases hctl with hc | hc <;> exact ⟨_, by rw [hc]; rfl⟩
  have hx := exec_controller_effects rfl h
  rw [controller_rejected ha hc] at hx
  injection hx with hx
  exact ⟨e, hx.symm⟩

/-- There the display-controller operations append command frames only, new or going on: only `UPDATE` has others to send. -/
theorem exec_commandsOnly (hi : isController i = true) (h : exec i s = .next t) :
    ∃ es, t.hist = s.hist ++ es ∧ CommandsOnly s.cfg es := by
  by_cases hne : i = .update
  · subst hne
    obtain ⟨e, rfl⟩ := update_rejected_outside_ready hs hctl h
    exact ⟨[], by simp, by simp [CommandsOnly]⟩
  have hplan : allCommands s.cfg (planOf s.cfg i) := plan_commands hi hne
  rcases controller_next (exec_controller_effects hi h) with ⟨e, _, _, rfl⟩ | ⟨b, hb, _, hw⟩ | ⟨o, rest, ha, _, rfl⟩
  · exact ⟨[], by simp, by simp [CommandsOnly]⟩
  · obtain ⟨c, rfl⟩ : ∃ c, b = { s with ctl := c } := by
      rcases hb with ⟨_, _, rfl⟩ | ⟨_, rfl⟩
      · exact ⟨_, rfl⟩
      · exact ⟨b.ctl, rfl⟩
    rcases hw with ⟨_, rfl⟩ | ⟨_, rfl⟩
    · exact ⟨[], by simp, by simp [CommandsOnly]⟩
    · obtain ⟨es, hes, hcmd⟩ := conclude_commandsOnly
        (s := (afterLockPoll { s with ctl := c }).acquired) (by simpa using hplan) i
      exact ⟨.acq :: es, hes.trans (by simp), by simpa [CommandsOnly] using hcmd⟩
  · rcases hs with hinv | ⟨_, hn⟩
    · obtain rfl : o = i := (overlaps_some ha i).mp (exec_overlaps h)
      obtain ⟨_, _, _, _, hsuffix, _⟩ := Inv_sending hinv ha
      exact conclude_commandsOnly (suffix_commands hsuffix hplan) o
    · simp [hn] at ha

end

end Machine

/-- Settles O38: a rejection leaves `ctl`, and each end of an `INIT` or `UPDATE` has its response and its `ctl`; `UPDATE` is not
rejected in READY and UPDATING only. -/
theorem controlStateTransitions : Obligations.ControlStateTransitions := by
  refine ⟨fun s t hs h => ?_, fun s t hs h => ?_, fun i s t hinit hupdate h => Machine.exec_keeps_ctl hinit hupdate h⟩
  · rcases Machine.Inv_exec_ctl hs rfl h with ⟨e, he, _⟩ | ⟨_, hend⟩
    · cases he
    · exact hend
  · rcases Machine.Inv_exec_ctl hs rfl h with ⟨e, he, rfl⟩ | ⟨hacc, hend⟩
    · rcases Machine.stateCheck_error he with ⟨rfl, _, hc⟩ | ⟨rfl, hc, _⟩
      · exact .inl ⟨rfl, hc, rfl⟩
      · exact .inr (.inl ⟨rfl, hc, rfl⟩)
    · refine .inr (.inr ⟨?_, hend⟩)
      rcases hacc with ⟨_, hc⟩ | ⟨stage, ha⟩
      · revert hc
        cases s.ctl <;> simp [Machine.stateCheck, Machine.updateCheck]
      · exact .inr ((Machine.Inv_ctl hs ha).mpr rfl)

/-- Settles O42: the framebuffer operations send nothing, and the display-controller operations command frames only. -/
theorem noDataIsSentOutsideReady : Obligations.NoDataIsSentOutsideReady := by
  intro i s t hs hctl ⟨w, hw⟩ h
  rcases Machine.instr_kinds s.cfg i with hi | hi | ⟨c, hc⟩
  · obtain ⟨_, _, f, data, rfl, _⟩ := Machine.exec_framebuffer hi h
    exact ⟨[], by simp, by simp⟩
  · exact Machine.exec_commandsOnly hs hctl hi h
  · rw [hw] at hc
    cases hc

end Sys2Proof

namespace Sys2Proof

/-! ### Errors: who raises them, and what they leave (60_exceptions.md R126 to R128, R134, R135) -/

namespace Machine
open State

/-- The response that an instruction gives is a success, the error of its state check, or that of a transaction that failed just
before the lock was released (R60, R101, R133). -/
theorem exec_answered {s t : State} {i : Instr} {status : Status} {data : List Byte} (h : exec i s = .next t)
    (hr : t.responses = s.responses ++ [⟨status, data⟩]) :
    status = .ok ∨ (data = [] ∧ stateCheck i s.ctl = some status) ∨
      (data = [] ∧ isController i = true ∧ ∃ kind, status = .transport kind ∧
        ∃ before ctrl payload, t.hist = before ++ [.txn s.cfg.devAddr ctrl payload (.fail kind), .rel]) := by
  have only {r : Response} (he : t.responses = s.responses ++ [r]) : ⟨status, data⟩ = r := by simpa [hr] using he
  rcases exec_response h with hnone | ⟨_, hok⟩ | ⟨e, hc, _, rfl⟩ | ⟨hi, kind, hfail, hlast⟩
  · simp [hr] at hnone
  · cases only hok
    exact .inl rfl
  · cases only (raise_responses e s)
    exact .inr (.inl ⟨rfl, hc⟩)
  · cases only hfail
    exact .inr (.inr ⟨rfl, hi, kind, rfl, hlast⟩)

/-- The state check rejects before anything else happens (R101). -/
theorem exec_rejected {i : Instr} {s t : State} {e : Status} (hi : isController i = true) (ha : s.activity = none)
    (hc : stateCheck i s.ctl = some e) (h : exec i s = .next t) : t = s.raise e := by
  have hx := exec_controller_effects hi h
  rw [controller_rejected ha hc] at hx
  injection hx with hx
  exact hx.symm

/-- In FAILED only `INIT` passes the state check (R101, R127). -/
theorem stateCheck_failed {i : Instr} (hi : isController i = true) (hne : i ≠ .init) :
    stateCheck i .failed = some .alreadyFailed := by
  cases i <;> simp only [isController, Bool.false_eq_true] at hi
  case init => exact absurd rfl hne
  case update => rfl
  case setInvert => rfl
  case setContrast => rfl

end Machine

/-- Settles O34: `UPDATE` is rejected by its state check, which is the only source of this response. -/
theorem notInitializedIsUpdatesAlone : Obligations.NotInitializedIsUpdatesAlone := by
  refine ⟨fun s hs hctl => Machine.Idle_rejected hs rfl (by rw [hctl]; rfl), fun i s t data h hr => ?_⟩
  obtain ⟨hdata, hc⟩ : data = [] ∧ Machine.stateCheck i s.ctl = some .notInitialized := by
    simpa using Machine.exec_answered h hr
  simpa [hdata] using Machine.stateCheck_error hc

/-- Settles O35: in FAILED the state check rejects the three operations, and it is the only source of this response. -/
theorem alreadyFailedIsOfThreeOperations : Obligations.AlreadyFailedIsOfThreeOperations := by
  refine ⟨fun s i hs hctl hi => ?_, fun i s t data h hr => ?_⟩
  · obtain ⟨hcontroller, hne⟩ : Machine.isController i = true ∧ i ≠ .init := by
      rcases hi with rfl | ⟨flag, rfl⟩ | ⟨level, rfl⟩ <;> simp [Machine.isController]
    exact Machine.Idle_rejected hs hcontroller (hctl ▸ Machine.stateCheck_failed hcontroller hne)
  · obtain ⟨hdata, hc⟩ : data = [] ∧ Machine.stateCheck i s.ctl = some .alreadyFailed := by
      simpa using Machine.exec_answered h hr
    simpa [hdata] using Machine.stateCheck_error hc

/-- Settles O36: the state check raises no such error, so it is the end of a bracket at a failed transaction. -/
theorem transportErrorIsTheLastResult : Obligations.TransportErrorIsTheLastResult := by
  intro i s t kind data h hr
  rcases Machine.exec_answered h hr with hok | ⟨_, hc⟩ | ⟨hdata, hi, _, hkind, hlast⟩
  · cases hok
  · simpa using Machine.stateCheck_error hc
  · cases hkind
    exact ⟨hi, hdata, hlast⟩

/-- Settles O40: besides `INIT` only `UPDATE` writes `ctl`, and it is rejected in FAILED; an `INIT` that waits keeps `ctl`, one that
fails sets it to FAILED, so it has succeeded. -/
theorem onlyInitLeavesFailed : Obligations.OnlyInitLeavesFailed := by
  intro i s t hs hctl h hleft
  obtain rfl : i = .init := by
    by_contra hinit
    by_cases hupdate : i = .update
    · subst hupdate
      obtain ⟨e, rfl⟩ := Machine.update_rejected_outside_ready (.inl hs) (.inr hctl) h
      exact hleft hctl
    · exact hleft ((Machine.exec_keeps_ctl hinit hupdate h).trans hctl)
  rcases Machine.Inv_exec_cases hs rfl h with ⟨e, he, _⟩ | ⟨_, ⟨env, rfl⟩ | ⟨items, start, hruns⟩⟩
  · cases he
  · exact absurd hctl hleft
  · rcases hruns.outcome h with ⟨env, rfl⟩ | ⟨k, p, kind, env, _, rfl⟩ | ⟨k, env, _, _, rfl⟩
    · exact ⟨rfl, rfl, rfl, rfl, fun a ha => Machine.Memory.read_fill _ ha⟩
    · exact absurd rfl hleft
    · exact absurd hctl hleft

/-- Settles O41: the framebuffer operations never touch the bus, and the state check rejects the others before the lock. -/
theorem failedDisplayLeavesTheBusAlone : Obligations.FailedDisplayLeavesTheBusAlone := by
  intro i s t ha hctl h ⟨w, hw⟩ hne
  rcases Machine.instr_kinds s.cfg i with hi | hi | ⟨c, hc⟩
  · obtain ⟨_, _, f, data, rfl, _⟩ := Machine.exec_framebuffer hi h
    exact ⟨rfl, rfl, rfl⟩
  · obtain rfl := Machine.exec_rejected hi ha (hctl ▸ Machine.stateCheck_failed hi hne) h
    exact ⟨rfl, rfl, rfl⟩
  · rw [hw] at hc
    cases hc

end Sys2Proof

namespace Sys2Proof

/-! ### An operation in progress keeps the others out (70_reset_and_hazards.md R154) -/

namespace Machine
open State

theorem State.overlaps_other {s : State} {a : Activity} {i : Instr} (ha : s.activity = some a) (hne : i ≠ a.op) :
    s.overlaps i = true := by
  simpa [overlaps, ha] using hne.symm

/-- The gate refuses what would overlap the operation in progress (R154, log 15). -/
theorem exec_overlapping {s : State} {i : Instr} (hv : s.cfg.valid = true) (ho : s.overlaps i = true) :
    exec i s = .refused .operationOverlap := by
  obtain ⟨k, hk⟩ := exec_gated i s
  rw [hk, gate, configured_valid hv, if_pos ho]

end Machine

/-- Settles O13: the gate of every instruction refuses the overlap. -/
theorem overlappingOperationsAreRefused : Obligations.OverlappingOperationsAreRefused := fun _ _ _ hv ha hne =>
  Machine.exec_overlapping hv (Machine.State.overlaps_other ha hne)

/-! ### Waiting for the first answer (70_reset_and_hazards.md R157) -/

namespace Machine
open State

/-- A run that begins with no rewind begins with its first transaction. -/
theorem first_txn_of_no_rewind {items : List Item} (h : items.head? ≠ some .rewind) :
    itemsFrom items 0 = items ∧ ∀ wp, pointerAt wp items 0 = wp := by
  rcases items with _ | ⟨_ | _ | _, rest⟩
  case cons.rewind => exact absurd rfl h
  all_goals exact ⟨rfl, fun _ => rfl⟩

/-- At its first transaction a run has done the rewind that it may begin with, and nothing else. -/
theorem first_txn {items : List Item} (h : items.head? = some .rewind → items.tail.head? ≠ some .rewind) :
    itemsFrom items 0 = (if items.head? = some .rewind then items.tail else items) ∧
      ∀ wp, pointerAt wp items 0 = if items.head? = some .rewind then 0 else wp := by
  split_ifs with hr
  · obtain ⟨rest, rfl⟩ := List.head?_eq_some_iff.mp hr
    obtain ⟨hitems, hwp⟩ := first_txn_of_no_rewind (h rfl)
    exact ⟨hitems, fun _ => hwp 0⟩
  · exact first_txn_of_no_rewind hr

theorem allCommands_head {c : Config} {items : List Item} (h : allCommands c items) : items.head? ≠ some .rewind := fun hr => by
  obtain ⟨_, hp⟩ := h .rewind (List.mem_of_mem_head? hr)
  cases hp

/-- A plan that begins with `wp <- 0`, which is an `UPDATE` with an empty `WINDOW_SEQ`, goes on with a chunk (R107). -/
theorem plan_rewinds_once {c : Config} {i : Instr} (hi : isController i = true) (h : (planOf c i).head? = some .rewind) :
    (planOf c i).tail.head? ≠ some .rewind := by
  obtain rfl : i = .update := by
    by_contra hne
    exact allCommands_head (plan_commands hi hne) h
  rw [planOf, updatePlan] at h ⊢
  rcases hw : c.windowSeq with _ | ⟨g, groups⟩
  · simp [commandItems]
  · simp [hw, commandItems] at h

/-- Only an `INIT` with an empty `INIT_SEQ` has no first transaction (R102 (a)). -/
theorem plan_first {s : State} (hv : s.cfg.valid = true) (hw : s.fb.wf s.cfg.size = true) {i : Instr}
    (hi : isController i = true) (h : i = .init → s.cfg.initSeq ≠ []) (wp : Nat) :
    ∃ p, (itemPayloads s.cfg s.fb wp (planOf s.cfg i))[0]? = some p := by
  refine ⟨_, List.getElem?_eq_getElem (List.length_pos_iff.mpr fun he => ?_)⟩
  obtain ⟨hinit, hseq⟩ := plan_empty hv hw hi he
  exact h hinit hseq

end Machine

/-- Settles O50: the step opens the bracket and waits at transaction 0 of the plan, which has done at most one rewind before it. -/
theorem silentPhyMakesTheOperationWait : Obligations.SilentPhyMakesTheOperationWait := by
  intro s i hs hi hc hg ha hinit
  obtain ⟨p, hp⟩ := Machine.plan_first hs.config hs.buffer hi hinit s.wp
  obtain ⟨env, _, hx⟩ := (Machine.Idle_runs hs hi hc hg).waits hp (by simp) ha
  obtain ⟨hitems, hwp⟩ := Machine.first_txn (Machine.plan_rewinds_once (c := s.cfg) hi)
  rw [Machine.State.atTxn, hitems, hwp, List.take_zero] at hx
  exact ⟨_, hx, by simp [Machine.okEvents, Machine.panelAfter]⟩

/-! ### A fair environment ends every operation (70_reset_and_hazards.md R157, 93_implementation_defined.md U11) -/

namespace Machine
open State

theorem PhyAnswers_congr {s u : State} (h : ∀ k, u.answerAt k = s.answerAt k) (n : Nat) : PhyAnswers u n ↔ PhyAnswers s n := by
  simp only [PhyAnswers, answeredPolls, h]

/-- After `k` answers and a poll that is not answered, all but `k` of the answers are still to come. -/
theorem answeredPolls_after_wait {s u : State} {k : Nat} (hk : s.answerAt k = none)
    (hu : ∀ j, u.answerAt j = s.answerAt (k + 1 + j)) (m : Nat) : s.answeredPolls (k + 1 + m) ≤ k + u.answeredPolls m := by
  have hsplit : s.answeredPolls (k + 1 + m) = s.answeredPolls (k + 1) + u.answeredPolls m := by
    simp only [answeredPolls, List.range_add, List.countP_append, List.countP_map, Function.comp_def, hu]
  rw [hsplit]
  exact Nat.add_le_add_right (answeredPolls_wait hk) _

/-- `t` is where the operation of `s` has ended, with `start` the first events that it has emitted from `s` on: it has responded,
once, and has released the lock, and no request was taken. -/
structure Responded (s : State) (start : List Event) (t : State) : Prop where
  requests  : t.requests = s.requests
  hist      : ∃ events, t.hist = s.hist ++ start ++ events
  responses : ∃ r, t.responses = s.responses ++ [r]
  activity  : t.activity = none
  lock      : t.lock = false

/-- What holds from a later state of the operation holds from an earlier one. -/
theorem Responded.from_earlier {s u t : State} {start later : List Event} (h : Responded u later t)
    (hreq : u.requests = s.requests) (hresp : u.responses = s.responses)
    (hhist : ∃ between, u.hist ++ later = s.hist ++ start ++ between) : Responded s start t := by
  obtain ⟨between, hb⟩ := hhist
  obtain ⟨events, he⟩ := h.hist
  exact ⟨h.requests.trans hreq, ⟨between ++ events, by rw [he, hb, List.append_assoc]⟩, hresp ▸ h.responses, h.activity, h.lock⟩

/-- The step of `i` from `s`, and some number of steps after it, end the operation. -/
def Completes (i : Instr) (s : State) (start : List Event) : Prop :=
  ∃ u n t, exec i s = .next u ∧ Host.Core.run Sys2Proof.core n u = .next t ∧ Responded s start t

/-- An operation that waits after its step ends if it ends from its wait. -/
theorem Completes.of_wait {i : Instr} {s u : State} {stage : Stage} {start later : List Event} (hx : exec i s = .next u)
    (ha : u.activity = some ⟨i, stage⟩) (h : Completes i u later) (hresp : u.responses = s.responses)
    (hhist : ∃ between, u.hist ++ later = s.hist ++ start ++ between) : Completes i s start := by
  obtain ⟨v, n, t, hnext, hrun, ht⟩ := h
  exact ⟨u, n + 1, t, hx, run_cons ((step_resume ha).trans hnext) hrun, ht.from_earlier (exec_frame hx).req hresp hhist⟩

/-- What ends so, ends by a run of the machine from where the step of `i` is the next one. -/
theorem Completes.run {i : Instr} {s v : State} {start : List Event} (h : Completes i s start) (hstep : step v = exec i s) :
    ∃ n t events r, Host.Core.run Sys2Proof.core n v = .next t ∧ t.requests = s.requests ∧
      t.hist = s.hist ++ (start ++ events) ∧ t.responses = s.responses ++ [r] ∧ t.activity = none ∧ t.lock = false := by
  obtain ⟨u, n, t, hx, hrun, ht⟩ := h
  obtain ⟨events, he⟩ := ht.hist
  obtain ⟨r, hr⟩ := ht.responses
  exact ⟨n + 1, t, events, r, run_cons (hstep.trans hx) hrun, ht.requests, by rw [he, List.append_assoc], hr, ht.activity, ht.lock⟩

section
variable {s : State} {i : Instr} {items : List Item} {start : List Event}

theorem afterSuccess_responded (env : Env) : Responded s start (s.afterSuccess i items start env) where
  requests := by cases i <;> rfl
  hist := ⟨_, List.append_assoc ..⟩
  responses := ⟨_, rfl⟩
  activity := rfl
  lock := rfl

theorem afterFailure_responded (k : Nat) (p : Byte × List Byte) (kind : FailKind) (env : Env) :
    Responded s start (s.afterFailure i items start k p kind env) where
  requests := rfl
  hist := ⟨_, List.append_assoc ..⟩
  responses := ⟨_, rfl⟩
  activity := rfl
  lock := rfl

/-- A step that waits at the `k`-th transaction has polled the PHY `k + 1` times. -/
theorem Runs.answerAt_waiting {t : State} {k : Nat} {p : Byte × List Byte} (h : Runs s i items start)
    (hp : (itemPayloads s.cfg s.fb s.wp items)[k]? = some p) (hok : ∀ j, j < k → s.answerAt j = some .ok)
    (ha : s.answerAt k = none) (hx : exec i s = .next t) (j : Nat) : t.answerAt j = s.answerAt (k + 1 + j) := by
  obtain ⟨env, _, hans, hrun⟩ := h
  obtain ⟨u, hu, _, hwait⟩ := sendAll_stop (s := s.holding i start env) hp fun j hj => (hans j).trans (hok j hj)
  rw [hx, hwait ((hans k).trans ha)] at hrun
  injection hrun with ht
  calc t.answerAt j = u.afterPhyPoll.answerAt j := by rw [ht]; rfl
    _ = s.answerAt (j + 1 + k) := by rw [answerAt_afterPhyPoll, hu.answer, hans]
    _ = s.answerAt (k + 1 + j) := by congr 1; omega

/-- A step that runs `items` ends the operation, or waits at a transaction whose poll is not answered. -/
theorem Runs.ends_or_waits (h : Runs s i items start) : ∃ t, exec i s = .next t ∧ (Responded s start t ∨
    ∃ k env, k < (itemPayloads s.cfg s.fb s.wp items).length ∧ s.answerAt k = none ∧
      (∀ j, t.answerAt j = s.answerAt (k + 1 + j)) ∧ t = s.atTxn i items start k env) := by
  rcases first_stop s.answerAt (itemPayloads s.cfg s.fb s.wp items).length with hall | ⟨k, hk, hok, hne⟩
  · obtain ⟨env, hx⟩ := h.succeeds hall
    exact ⟨_, hx, .inl (afterSuccess_responded env)⟩
  · have hp := List.getElem?_eq_getElem hk
    rcases ha : s.answerAt k with _ | _ | kind
    · obtain ⟨env, _, hx⟩ := h.waits hp hok ha
      exact ⟨_, hx, .inr ⟨k, env, hk, ha, h.answerAt_waiting hp hok ha hx, rfl⟩⟩
    · exact absurd ha hne
    · obtain ⟨env, hx⟩ := h.fails hp hok ha
      exact ⟨_, hx, .inl (afterFailure_responded k _ kind env)⟩

end

/-- With as many answers to come as there are transactions left, the operation ends: every wait leaves fewer polls to come. -/
theorem Runs.completes {i : Instr} (hi : isController i = true) (m : Nat) : ∀ {s : State} {items : List Item}
    {start : List Event}, s.Inv → Runs s i items start →
    (itemPayloads s.cfg s.fb s.wp items).length ≤ s.answeredPolls m → Completes i s start := by
  induction m using Nat.strong_induction_on with
  | _ m ih =>
    intro s items start hs h hm
    obtain ⟨u, hx, hend | ⟨k, env, hk, ha, hans, hu⟩⟩ := h.ends_or_waits
    · exact ⟨u, 0, u, hx, rfl, hend⟩
    · obtain ⟨later, rfl⟩ : ∃ later, m = k + 1 + later :=
        Nat.exists_eq_add_of_le (hk.trans_le (hm.trans (answeredPolls_le s m)))
      have hinv : u.Inv := (exec_legal hs hx).inv
      have hact : u.activity = some ⟨i, .sending (itemsFrom items k)⟩ := by rw [hu]; rfl
      have hleft : (itemPayloads u.cfg u.fb u.wp (itemsFrom items k)).length ≤ u.answeredPolls later := by
        have := answeredPolls_after_wait ha hans later
        rw [itemPayloads_atTxn hu, List.length_drop]
        omega
      have hthen := ih later (by omega) hinv (Inv_runs hinv hi (.inr (.inr ⟨hact, rfl⟩))) hleft
      exact .of_wait hx hact hthen (by rw [hu]; rfl) ⟨_, by rw [hu, List.append_nil]; rfl⟩

section
variable {s : State} {i : Instr} (hs : s.Inv) (hi : isController i = true)
  (hstand : (s.activity = none ∧ stateCheck i s.ctl = none) ∨ s.activity = some ⟨i, .lockWait⟩)
include hs hi hstand

/-- An accepted operation, or one that waits for the lock, ends if it is granted it and the PHY answers. -/
theorem completes_of_granted (hg : s.grantAt 0 = true) (hphy : PhyAnswers s (s.operationTxns i).length) :
    Completes i s [.acq] := by
  obtain ⟨m, hm⟩ := hphy
  have hruns : Runs s i (planOf s.cfg i) [.acq] := Inv_runs hs hi <|
    hstand.imp (fun ⟨ha, hc⟩ => ⟨ha, hc, hg, rfl, rfl⟩) fun ha => .inl ⟨ha, hg, rfl, rfl⟩
  exact hruns.completes hi m hs (by rwa [plan_txns hs.config hs.buffer])

/-- If it is not granted it, it waits with the same environment to come, one poll of the lock later. -/
theorem completes_of_ungranted (hg : s.grantAt 0 = false)
    (hlater : ∀ u : State, u.Inv → u.activity = some ⟨i, .lockWait⟩ → (∀ k, u.grantAt k = s.grantAt (k + 1)) →
      (∀ n, PhyAnswers u n ↔ PhyAnswers s n) → u.operationTxns i = s.operationTxns i → Completes i u [.acq]) :
    Completes i s [.acq] := by
  obtain ⟨u, hx, hu, _, hans, hgrants⟩ := exec_ungranted hs hi hstand hg
  have hact : u.activity = some ⟨i, .lockWait⟩ := by rw [hu]
  have htxns : u.operationTxns i = s.operationTxns i := by rw [hu]; cases i <;> rfl
  have hthen := hlater u (exec_legal hs hx).inv hact hgrants (PhyAnswers_congr hans) htxns
  exact .of_wait hx hact hthen (by rw [hu]) ⟨[], by rw [hu, List.append_nil]⟩

end

/-- With a fair lock it is granted it at some poll. -/
theorem completes_of_fair {i : Instr} (hi : isController i = true) {s : State} (hs : s.Inv)
    (hstand : (s.activity = none ∧ stateCheck i s.ctl = none) ∨ s.activity = some ⟨i, .lockWait⟩) (hfair : LockFair s)
    (hphy : PhyAnswers s (s.operationTxns i).length) : Completes i s [.acq] := by
  obtain ⟨k, hk⟩ := hfair
  induction k generalizing s with
  | zero => exact completes_of_granted hs hi hstand hk hphy
  | succ k ih =>
    cases hg : s.grantAt 0 with
    | true => exact completes_of_granted hs hi hstand hg hphy
    | false =>
      refine completes_of_ungranted hs hi hstand hg fun u hu hact hgrants hphy' htxns => ?_
      exact ih hu (.inr hact) (by rwa [hphy', htxns]) ((hgrants k).trans hk)

/-- An operation that the state check rejects ends at once (R101). -/
theorem completes_of_rejected {i : Instr} (hi : isController i = true) {s : State} (hs : s.Inv) (ha : s.activity = none)
    {e : Status} (hc : stateCheck i s.ctl = some e) : Completes i s [] := by
  have hx : exec i s = .next (s.raise e) := by
    rw [exec_effects hi hs.config (overlaps_none ha i) hs.buffer, controller_rejected ha hc]
  exact ⟨_, 0, _, hx, rfl, rfl, ⟨[], by simp⟩, ⟨_, rfl⟩, rfl, (Inv_none hs ha).1⟩

/-- From its request on an operation ends under a fair lock, accepted or not. -/
theorem completes_from_request {i : Instr} (hi : isController i = true) {s : State} (hs : s.Inv) (ha : s.activity = none)
    (hfair : LockFair s) (hphy : PhyAnswers s (s.operationTxns i).length) : Completes i s [] := by
  rcases hc : stateCheck i s.ctl with _ | e
  · obtain ⟨u, n, t, hx, hrun, ht⟩ := completes_of_fair hi hs (.inl ⟨ha, hc⟩) hfair hphy
    exact ⟨u, n, t, hx, hrun, ht.from_earlier rfl rfl ⟨[.acq], by rw [List.append_nil]⟩⟩
  · exact completes_of_rejected hi hs ha hc

end Machine

/-- Settles O54: a wait for the lock ends with the granted poll, by induction on its number, and the bracket by induction on the
polls of the PHY that hold the answers. -/
theorem fairEnvironmentEndsTheOperation : Obligations.FairEnvironmentEndsTheOperation := by
  refine ⟨fun s w rest i hs ha hr hd hi hfair hphy => ?_, fun s op hs ha hfair hphy => ?_, fun s op items hs ha ⟨m, hm⟩ => ?_⟩
  · have hphy' : Machine.PhyAnswers { s with requests := rest }
        (Machine.State.operationTxns { s with requests := rest } i).length := by
      cases i <;> exact hphy
    have hends := Machine.completes_from_request hi (Machine.Inv_taken hs rest) ha hfair hphy'
    exact hends.run (Machine.step_code (Machine.State.fetch_request ha hs.noCall hr) rfl hd)
  · have hends := Machine.completes_of_fair (Machine.Inv_some hs ha) hs (.inr ha) hfair hphy
    exact hends.run (Machine.step_resume ha)
  · have hi := Machine.Inv_some hs ha
    have hruns := Machine.Inv_runs hs hi (.inr (.inr ⟨ha, rfl⟩))
    exact (hruns.completes hi m hs hm).run (Machine.step_resume ha)

end Sys2Proof
